-- ==== Sys2Proof/Word.lean ====
section
/-!
DEFINITION. The machine's words (00_scope.md R5): a word is 32 bits, a byte 8 bits, and `+` and `-` on words are
modulo 2^32, which is what `BitVec` arithmetic does (assumption log 19).
-/

namespace Sys2Proof

/-- A register value or an address: 32 bits (00_scope.md R5, 10_state.md R10). -/
abbrev Word := BitVec 32

/-- The unit of memory and of the UART (00_scope.md R5). -/
abbrev Byte := BitVec 8

/-- The name of a general register, x0 to x31 (10_state.md R10, R12). -/
abbrev Reg := Fin 32

end Sys2Proof
end

