-- ==== Sys2Proof/Config.lean ====
section
/-!
DEFINITION. What an implementation of this hardware fixes (00_scope.md §4): the parameters a model takes as arguments
(the address map, the reset pc, the status masks, the decode parameters, the policy for a misaligned pc) with their
reference values and what the spec asks of any value; the CSR table; and the free values of the host and of the CSR file. Where the spec
calls a value a decision, the log entry is named.
-/

namespace Sys2Proof

/-- The behaviours a region can have (20_memory.md R31, R35, R36, R37). -/
inductive RegionKind where
  | rom
  | ram
  | uart
  deriving DecidableEq, Repr

/-- The six numbers of the address map (20_memory.md R31, decision D10): inclusive bounds of the three regions. "exact base
addresses are configuration, not protocol". -/
structure AddressMap where
  romBase  : Nat
  romLast  : Nat
  ramBase  : Nat
  ramLast  : Nat
  uartBase : Nat
  uartLast : Nat
  deriving DecidableEq, Repr

/-- One row of the region table (20_memory.md R31): inclusive bounds, and which directions have a handler. -/
structure Region where
  kind  : RegionKind
  first : Nat
  last  : Nat
  load  : Bool
  store : Bool
  deriving DecidableEq, Repr

/-- The two decode parameters the spec leaves with a default (45_op.md R150, 47_jump.md R175). -/
structure DecodeParams where
  /-- OP_FUNCT7_STRICT: OP words with funct3 in {1,2,3,4,6,7} are illegal when funct7 is not 0. -/
  opFunct7Strict   : Bool
  /-- JALR_FUNCT3_STRICT: JALR words are illegal when funct3 is not 0. -/
  jalrFunct3Strict : Bool
  deriving DecidableEq, Repr

/-- MISALIGNED_PC_POLICY (40_cycle.md R93): what a cycle that begins with pc[1:0] ≠ 0 does. -/
inductive MisalignedPcPolicy where
  | fault
  | bytewise
  deriving DecidableEq, Repr

/-- The parameters of the hardware (00_scope.md §4) that a step depends on. They are configuration, not state: no step
changes them, and `State` carries them only because a step takes nothing else (assumption log 27). -/
structure Params where
  map          : AddressMap
  /-- RESET_PC (70_reset_and_hazards.md R241). -/
  resetPc      : Word
  /-- UART_NEWDAT_MASK (60_exceptions.md R211). -/
  newdatMask   : Byte
  /-- UART_TXDONE_MASK (60_exceptions.md R211). -/
  txdoneMask   : Byte
  decode       : DecodeParams
  misalignedPc : MisalignedPcPolicy
  deriving DecidableEq, Repr

/-! ### What the spec asks of a configuration -/

/-- Each region is a range of 32-bit addresses (20_memory.md R30, R31). -/
abbrev AddressMap.Ranged (m : AddressMap) : Prop :=
  (m.romBase ≤ m.romLast ∧ m.romLast < 2 ^ 32) ∧ (m.ramBase ≤ m.ramLast ∧ m.ramLast < 2 ^ 32) ∧
  (m.uartBase ≤ m.uartLast ∧ m.uartLast < 2 ^ 32)

/-- "Regions never overlap": "region non-overlap is a hard invariant" (20_memory.md R31). -/
abbrev AddressMap.Disjoint (m : AddressMap) : Prop :=
  (m.romLast < m.ramBase ∨ m.ramLast < m.romBase) ∧ (m.romLast < m.uartBase ∨ m.uartLast < m.romBase) ∧
  (m.ramLast < m.uartBase ∨ m.uartLast < m.ramBase)

/-- "A configuration must keep the UART window two bytes long with an even UART_BASE" (20_memory.md R31). -/
abbrev AddressMap.UartWindow (m : AddressMap) : Prop :=
  m.uartLast = m.uartBase + 1 ∧ m.uartBase % 2 = 0

/-- A map the spec allows (20_memory.md R31, decision D10). -/
def AddressMap.wf (m : AddressMap) : Bool := decide (m.Ranged ∧ m.Disjoint ∧ m.UartWindow)

/-- "ROM at low addresses (read-only), RAM immediately above it (read-write), UART at a high, isolated 2-byte window"
(20_memory.md R31, the protocol part). No law needs it. -/
def AddressMap.protocolLayout (m : AddressMap) : Bool :=
  decide (m.romBase = 0 ∧ m.ramBase = m.romLast + 1 ∧ m.ramLast + 1 < m.uartBase)

/-- "any two distinct single-bit masks inside 0x03" (60_exceptions.md R211). -/
abbrev Params.MasksAllowed (p : Params) : Prop :=
  (p.newdatMask = 0x01#8 ∧ p.txdoneMask = 0x02#8) ∨ (p.newdatMask = 0x02#8 ∧ p.txdoneMask = 0x01#8)

/-- Parameters the spec allows: the map's constraints, RESET_PC "must be a multiple of 4" (70_reset_and_hazards.md R241),
and the masks'. -/
def Params.wf (p : Params) : Bool := p.map.wf && decide (p.resetPc.toNat % 4 = 0 ∧ p.MasksAllowed)

/-- What a CSR entry's get handler does (60_exceptions.md R205). -/
inductive CsrGet where
  | constant (v : Word)
  /-- Not specified by the source: answered by the free value `Config.csrOpenGet`. -/
  | unspecified
  deriving DecidableEq, Repr

/-- What a CSR entry's set handler does (60_exceptions.md R205). -/
inductive CsrSet where
  | ignore
  /-- Not specified by the source: answered by the free value `Config.csrOpenSet`. -/
  | unspecified
  deriving DecidableEq, Repr

/-- One entry of the CSR file (10_state.md R20): "{name, 12-bit address, optional get handler, optional set handler}". -/
structure CsrEntry where
  name : String
  addr : BitVec 12
  get  : Option CsrGet
  set  : Option CsrSet
  deriving DecidableEq, Repr

namespace Config

/-- The reference map (20_memory.md R31; assumption log 15). -/
def referenceMap : AddressMap where
  romBase  := 0x00000000
  romLast  := 0x0000FFFF
  ramBase  := 0x00010000
  ramLast  := 0x0001FFFF
  uartBase := 0x80000000
  uartLast := 0x80000001

/-- RESET_PC (70_reset_and_hazards.md R241; assumption log 2). -/
def resetPc : Word := 0x00000000#32

/-- UART_NEWDAT_MASK and UART_TXDONE_MASK (60_exceptions.md R211; assumption log 16). -/
def uartNewdatMask : Byte := 0x01#8
def uartTxdoneMask : Byte := 0x02#8

/-- The defaults of the decode parameters (45_op.md R150, 47_jump.md R175; assumption log 14). -/
def decodeParams : DecodeParams := { opFunct7Strict := false, jalrFunct3Strict := false }

/-- The default of MISALIGNED_PC_POLICY (40_cycle.md R93; assumption log 8). -/
def misalignedPcPolicy : MisalignedPcPolicy := .fault

/-- The parameters of this hardware: reference and default values. -/
def params : Params where
  map          := referenceMap
  resetPc      := resetPc
  newdatMask   := uartNewdatMask
  txdoneMask   := uartTxdoneMask
  decode       := decodeParams
  misalignedPc := misalignedPcPolicy

/-- CSR_TABLE's value here: the entries the source names (60_exceptions.md R205). mstatus and misa: get and set are not
specified, so each is present and answered by a free value (assumption log 20). -/
def csrTable : List CsrEntry :=
  [ { name := "mstatus",   addr := 0x300#12, get := some .unspecified, set := some .unspecified },
    { name := "misa",      addr := 0x301#12, get := some .unspecified, set := some .unspecified },
    { name := "vendor ID", addr := 0xF11#12, get := some (.constant 0#32), set := some .ignore },
    { name := "arch ID",   addr := 0xF12#12, get := some (.constant 0#32), set := some .ignore },
    { name := "impl ID",   addr := 0xF13#12, get := some (.constant 0#32), set := some .ignore },
    { name := "hart ID",   addr := 0xF14#12, get := some (.constant 0#32), set := some .ignore } ]

/-- A table that CSR_TABLE may be (60_exceptions.md R205, R206, decision D14): one entry for an address, the four
identification registers as listed, and entries for mstatus and misa, whatever these do; what other entries exist is open. -/
def csrTableWf (t : List CsrEntry) : Bool :=
  decide ((∀ r ∈ csrTable, r.get = some .unspecified ∨ r ∈ t) ∧ (∀ r ∈ csrTable, ∃ e ∈ t, e.addr = r.addr) ∧
    (t.map CsrEntry.addr).Nodup)

/-- Free value: what the host sends before poll `k` of a behaviour that nothing constrains (60_exceptions.md R214,
70_reset_and_hazards.md R262; assumption log 5). -/
opaque hostSends : Nat → List Byte

/-- Free value: what a read of an entry whose get the source does not specify answers; `none` is the error
InvalidRegister (it may have no get handler). Nothing constrains it (assumption log 20). -/
opaque csrOpenGet : BitVec 12 → Option Word

/-- Free value: whether a write of an entry whose set the source does not specify is accepted; `false` is the error
InvalidRegister. Nothing constrains it (assumption log 20). -/
opaque csrOpenSet : BitVec 12 → Word → Bool

end Config
end Sys2Proof
end

