-- ==== Sys2Proof/Syntax.lean ====
section
/-!
DEFINITION. The instruction set (00_scope.md R2): one constructor per row of spec/opcode_table.json, with the operands
the row's handler reads (30_encoding.md R62, R76). Fields a handler ignores (funct7 of six OP rows, funct3 of JALR, all
of SYSTEM's 25 upper bits) are no operands. Branch and JAL offsets are byte offsets of 13 and 21 bits whose bit 0 is
always 0 (30_encoding.md R65, R67); that is the well-formedness check of WellFormed.lean.
-/

namespace Sys2Proof

inductive Instr where
  -- LOAD (41_load.md R110): rd, base rs1, 12-bit signed offset
  | lb    (rd rs1 : Reg) (imm : BitVec 12)
  | lh    (rd rs1 : Reg) (imm : BitVec 12)
  | lw    (rd rs1 : Reg) (imm : BitVec 12)
  | lbu   (rd rs1 : Reg) (imm : BitVec 12)
  | lhu   (rd rs1 : Reg) (imm : BitVec 12)
  -- OP-IMM (42_op_imm.md R120)
  | addi  (rd rs1 : Reg) (imm : BitVec 12)
  | slti  (rd rs1 : Reg) (imm : BitVec 12)
  | sltiu (rd rs1 : Reg) (imm : BitVec 12)
  | xori  (rd rs1 : Reg) (imm : BitVec 12)
  | ori   (rd rs1 : Reg) (imm : BitVec 12)
  | andi  (rd rs1 : Reg) (imm : BitVec 12)
  | slli  (rd rs1 : Reg) (shamt : BitVec 5)
  | srli  (rd rs1 : Reg) (shamt : BitVec 5)
  | srai  (rd rs1 : Reg) (shamt : BitVec 5)
  -- upper immediate (43_upper_immediate.md R135): the 20-bit field w[31:12]
  | auipc (rd : Reg) (field : BitVec 20)
  -- STORE (44_store.md R140): base rs1, data rs2, 12-bit signed offset
  | sb    (rs1 rs2 : Reg) (imm : BitVec 12)
  | sh    (rs1 rs2 : Reg) (imm : BitVec 12)
  | sw    (rs1 rs2 : Reg) (imm : BitVec 12)
  -- OP (45_op.md R150)
  | add   (rd rs1 rs2 : Reg)
  | sub   (rd rs1 rs2 : Reg)
  | sll   (rd rs1 rs2 : Reg)
  | slt   (rd rs1 rs2 : Reg)
  | sltu  (rd rs1 rs2 : Reg)
  | xor   (rd rs1 rs2 : Reg)
  | srl   (rd rs1 rs2 : Reg)
  | sra   (rd rs1 rs2 : Reg)
  | or    (rd rs1 rs2 : Reg)
  | and   (rd rs1 rs2 : Reg)
  | lui   (rd : Reg) (field : BitVec 20)
  -- BRANCH (46_branch.md R165): byte offset from the branch's own address
  | beq   (rs1 rs2 : Reg) (offset : BitVec 13)
  | bne   (rs1 rs2 : Reg) (offset : BitVec 13)
  | blt   (rs1 rs2 : Reg) (offset : BitVec 13)
  | bge   (rs1 rs2 : Reg) (offset : BitVec 13)
  | bltu  (rs1 rs2 : Reg) (offset : BitVec 13)
  | bgeu  (rs1 rs2 : Reg) (offset : BitVec 13)
  -- jumps (47_jump.md R175)
  | jalr  (rd rs1 : Reg) (imm : BitVec 12)
  | jal   (rd : Reg) (offset : BitVec 21)
  -- SYSTEM (48_system.md R180)
  | system
  deriving DecidableEq, Repr

end Sys2Proof
end

