-- ==== Sys2Proof/WellFormed.lean ====
section
/-!
DEFINITION. When a term of `Instr` is an instruction of the hardware: branch and JAL offsets have bit 0 clear
(30_encoding.md R65, R67: "bit 0 always 0"). Every other operand is admitted at every value of its type.
-/

namespace Sys2Proof

def Instr.wellFormed : Instr → Bool
  | .beq _ _ o | .bne _ _ o | .blt _ _ o | .bge _ _ o | .bltu _ _ o | .bgeu _ _ o => !o.getLsbD 0
  | .jal _ o => !o.getLsbD 0
  | .lb _ _ _ | .lh _ _ _ | .lw _ _ _ | .lbu _ _ _ | .lhu _ _ _
  | .addi _ _ _ | .slti _ _ _ | .sltiu _ _ _ | .xori _ _ _ | .ori _ _ _ | .andi _ _ _
  | .slli _ _ _ | .srli _ _ _ | .srai _ _ _
  | .auipc _ _ | .lui _ _
  | .sb _ _ _ | .sh _ _ _ | .sw _ _ _
  | .add _ _ _ | .sub _ _ _ | .sll _ _ _ | .slt _ _ _ | .sltu _ _ _ | .xor _ _ _
  | .srl _ _ _ | .sra _ _ _ | .or _ _ _ | .and _ _ _
  | .jalr _ _ _ | .system => true

end Sys2Proof
end

