-- ==== Sys2Proof/Decode.lean ====
section
/-!
DEFINITION. Decoding (30_encoding.md): bytes to a word (R38, R60), length validation (R60), fields (R61), immediates
(R63 to R68), the decode procedure (R70, R71, R72, R77); after it the encoder, written from the same formats (R62), and
the opcode table's rows as masks and matches. Total: every list of bytes and every word has an answer, and a rejection
has a name. The opcode numerals are R69's (assumption log 11).
-/

namespace Sys2Proof

/-! ### Byte order (20_memory.md R38) -/

/-- The value of up to four bytes, the first in bits 7:0. -/
def leWord : List Byte → Word
  | [] => 0
  | b :: bs => b.setWidth 32 ||| (leWord bs <<< 8)

/-- The low `n` bytes of a word, least significant first (20_memory.md R41). -/
def leBytes : Nat → Word → List Byte
  | 0, _ => []
  | n + 1, v => v.setWidth 8 :: leBytes n (v >>> 8)

/-! ### Fields and immediates (30_encoding.md R61 to R68) -/

/-- A 5-bit register field names register 0 to 31 (10_state.md R10). -/
def regOfBits (b : BitVec 5) : Reg := b.toFin

/-- The 5-bit field that names a register. -/
def bitsOfReg (r : Reg) : BitVec 5 := BitVec.ofFin r

def opcodeGroup (w : Word) : BitVec 5 := w.extractLsb' 2 5
def rdField (w : Word) : Reg := regOfBits (w.extractLsb' 7 5)
def funct3 (w : Word) : BitVec 3 := w.extractLsb' 12 3
def rs1Field (w : Word) : Reg := regOfBits (w.extractLsb' 15 5)
def rs2Field (w : Word) : Reg := regOfBits (w.extractLsb' 20 5)
def funct7 (w : Word) : BitVec 7 := w.extractLsb' 25 7

/-- R63: w[31:20]; the sign extension is at the use (Operands.lean). -/
def immI (w : Word) : BitVec 12 := w.extractLsb' 20 12

/-- R64: w[31:25] ++ w[11:7]. -/
def immS (w : Word) : BitVec 12 := w.extractLsb' 25 7 ++ w.extractLsb' 7 5

/-- R65: w[31] ++ w[7] ++ w[30:25] ++ w[11:8] ++ 0. -/
def immB (w : Word) : BitVec 13 :=
  w.extractLsb' 31 1 ++ w.extractLsb' 7 1 ++ w.extractLsb' 25 6 ++ w.extractLsb' 8 4 ++ 0#1

/-- R66: the 20-bit field w[31:12]. -/
def fieldU (w : Word) : BitVec 20 := w.extractLsb' 12 20

/-- R67: w[31] ++ w[19:12] ++ w[20] ++ w[30:21] ++ 0. -/
def immJ (w : Word) : BitVec 21 :=
  w.extractLsb' 31 1 ++ w.extractLsb' 12 8 ++ w.extractLsb' 20 1 ++ w.extractLsb' 21 10 ++ 0#1

/-- R68: w[24:20]. -/
def shamtField (w : Word) : BitVec 5 := w.extractLsb' 20 5

/-! ### Opcode groups (30_encoding.md R69) -/

def groupLoad   : BitVec 5 := 0x00#5
def groupOpImm  : BitVec 5 := 0x04#5
def groupAuipc  : BitVec 5 := 0x05#5
def groupStore  : BitVec 5 := 0x08#5
def groupOp     : BitVec 5 := 0x0C#5
def groupLui    : BitVec 5 := 0x0D#5
def groupBranch : BitVec 5 := 0x18#5
def groupJalr   : BitVec 5 := 0x19#5
def groupJal    : BitVec 5 := 0x1B#5
def groupSystem : BitVec 5 := 0x1C#5

/-! ### The decoder -/

/-- Why a list of bytes is no instruction. -/
inductive DecodeError where
  /-- Fewer than four bytes: no word (30_encoding.md R60). Never arises in a cycle, which fetches four. -/
  | tooShort
  /-- The word fails length validation (30_encoding.md R60, R73): fatal, InvalidInstructionEncoding. -/
  | invalidEncoding
  /-- The opcode group is none of the ten (30_encoding.md R72): IllegalInstruction. -/
  | unlistedGroup
  /-- The group is listed, its funct3 and funct7 are not (30_encoding.md R71): IllegalInstruction. -/
  | unlistedFunction
  deriving DecidableEq, Repr

/-- Length validation (30_encoding.md R60): `w[1:0] = 0b11` and `w[4:2] ≠ 0b111`. -/
def accepted (w : Word) : Bool := w.extractLsb' 0 2 == 0b11#2 && w.extractLsb' 2 3 != 0b111#3

/-- LOAD rows of R70; the rest of the group is R71, 41_load.md R116. -/
def decodeLoad (w : Word) : Except DecodeError Instr :=
  if funct3 w = 0#3 then .ok (.lb (rdField w) (rs1Field w) (immI w))
  else if funct3 w = 1#3 then .ok (.lh (rdField w) (rs1Field w) (immI w))
  else if funct3 w = 2#3 then .ok (.lw (rdField w) (rs1Field w) (immI w))
  else if funct3 w = 4#3 then .ok (.lbu (rdField w) (rs1Field w) (immI w))
  else if funct3 w = 5#3 then .ok (.lhu (rdField w) (rs1Field w) (immI w))
  else .error .unlistedFunction

/-- OP-IMM rows of R70; the shifts check funct7 (42_op_imm.md R127 to R130). -/
def decodeOpImm (w : Word) : Except DecodeError Instr :=
  if funct3 w = 0#3 then .ok (.addi (rdField w) (rs1Field w) (immI w))
  else if funct3 w = 1#3 then
    if funct7 w = 0x00#7 then .ok (.slli (rdField w) (rs1Field w) (shamtField w))
    else .error .unlistedFunction
  else if funct3 w = 2#3 then .ok (.slti (rdField w) (rs1Field w) (immI w))
  else if funct3 w = 3#3 then .ok (.sltiu (rdField w) (rs1Field w) (immI w))
  else if funct3 w = 4#3 then .ok (.xori (rdField w) (rs1Field w) (immI w))
  else if funct3 w = 5#3 then
    if funct7 w = 0x00#7 then .ok (.srli (rdField w) (rs1Field w) (shamtField w))
    else if funct7 w = 0x20#7 then .ok (.srai (rdField w) (rs1Field w) (shamtField w))
    else .error .unlistedFunction
  else if funct3 w = 6#3 then .ok (.ori (rdField w) (rs1Field w) (immI w))
  else .ok (.andi (rdField w) (rs1Field w) (immI w))

/-- STORE rows of R70; the rest of the group is R71, 44_store.md R144. -/
def decodeStore (w : Word) : Except DecodeError Instr :=
  if funct3 w = 0#3 then .ok (.sb (rs1Field w) (rs2Field w) (immS w))
  else if funct3 w = 1#3 then .ok (.sh (rs1Field w) (rs2Field w) (immS w))
  else if funct3 w = 2#3 then .ok (.sw (rs1Field w) (rs2Field w) (immS w))
  else .error .unlistedFunction

/-- OP rows of R70 (45_op.md R150, R161): funct7 selects for funct3 0 and 5; for the other six it is checked only when
OP_FUNCT7_STRICT is set. -/
def decodeOp (strict : Bool) (w : Word) : Except DecodeError Instr :=
  if funct3 w = 0#3 then
    if funct7 w = 0x00#7 then .ok (.add (rdField w) (rs1Field w) (rs2Field w))
    else if funct7 w = 0x20#7 then .ok (.sub (rdField w) (rs1Field w) (rs2Field w))
    else .error .unlistedFunction
  else if funct3 w = 5#3 then
    if funct7 w = 0x00#7 then .ok (.srl (rdField w) (rs1Field w) (rs2Field w))
    else if funct7 w = 0x20#7 then .ok (.sra (rdField w) (rs1Field w) (rs2Field w))
    else .error .unlistedFunction
  else if strict = true ∧ funct7 w ≠ 0x00#7 then .error .unlistedFunction
  else if funct3 w = 1#3 then .ok (.sll (rdField w) (rs1Field w) (rs2Field w))
  else if funct3 w = 2#3 then .ok (.slt (rdField w) (rs1Field w) (rs2Field w))
  else if funct3 w = 3#3 then .ok (.sltu (rdField w) (rs1Field w) (rs2Field w))
  else if funct3 w = 4#3 then .ok (.xor (rdField w) (rs1Field w) (rs2Field w))
  else if funct3 w = 6#3 then .ok (.or (rdField w) (rs1Field w) (rs2Field w))
  else .ok (.and (rdField w) (rs1Field w) (rs2Field w))

/-- BRANCH rows of R70; funct3 2 and 3 are R71, 46_branch.md R172. -/
def decodeBranch (w : Word) : Except DecodeError Instr :=
  if funct3 w = 0#3 then .ok (.beq (rs1Field w) (rs2Field w) (immB w))
  else if funct3 w = 1#3 then .ok (.bne (rs1Field w) (rs2Field w) (immB w))
  else if funct3 w = 4#3 then .ok (.blt (rs1Field w) (rs2Field w) (immB w))
  else if funct3 w = 5#3 then .ok (.bge (rs1Field w) (rs2Field w) (immB w))
  else if funct3 w = 6#3 then .ok (.bltu (rs1Field w) (rs2Field w) (immB w))
  else if funct3 w = 7#3 then .ok (.bgeu (rs1Field w) (rs2Field w) (immB w))
  else .error .unlistedFunction

/-- JALR (47_jump.md R175): funct3 is checked only when JALR_FUNCT3_STRICT is set. -/
def decodeJalr (strict : Bool) (w : Word) : Except DecodeError Instr :=
  if strict = true ∧ funct3 w ≠ 0#3 then .error .unlistedFunction
  else .ok (.jalr (rdField w) (rs1Field w) (immI w))

/-- The decode procedure (30_encoding.md R77) for either setting of the two parameters. -/
def decodeWordWith (p : DecodeParams) (w : Word) : Except DecodeError Instr :=
  if accepted w = false then .error .invalidEncoding
  else if opcodeGroup w = groupLoad then decodeLoad w
  else if opcodeGroup w = groupOpImm then decodeOpImm w
  else if opcodeGroup w = groupAuipc then .ok (.auipc (rdField w) (fieldU w))
  else if opcodeGroup w = groupStore then decodeStore w
  else if opcodeGroup w = groupOp then decodeOp p.opFunct7Strict w
  else if opcodeGroup w = groupLui then .ok (.lui (rdField w) (fieldU w))
  else if opcodeGroup w = groupBranch then decodeBranch w
  else if opcodeGroup w = groupJalr then decodeJalr p.jalrFunct3Strict w
  else if opcodeGroup w = groupJal then .ok (.jal (rdField w) (immJ w))
  else if opcodeGroup w = groupSystem then .ok .system
  else .error .unlistedGroup

/-- The hardware's decoder: the parameters at the spec's defaults (assumption log 14). -/
def decodeWord (w : Word) : Except DecodeError Instr := decodeWordWith Config.decodeParams w

/-- Decode the first four bytes of a list, little-endian, and give the rest back (30_encoding.md R60), for either setting
of the two parameters. -/
def decodeBytesWith (p : DecodeParams) : List Byte → Except DecodeError (Instr × List Byte)
  | b0 :: b1 :: b2 :: b3 :: rest =>
    match decodeWordWith p (leWord [b0, b1, b2, b3]) with
    | .ok i => .ok (i, rest)
    | .error e => .error e
  | _ => .error .tooShort

/-- The same with the parameters at the spec's defaults. -/
def decodeBytes (l : List Byte) : Except DecodeError (Instr × List Byte) := decodeBytesWith Config.decodeParams l

/-- The 32-bit word the host means by `nbits` bits `w`: the bits above `nbits` are 0. Every row has 32 bits. -/
def tableWord (nbits w : Nat) : Word := BitVec.ofNat 32 (w % 2 ^ nbits)

/-- The instruction the decoder reads from a word numbered as spec/opcode_table.json numbers it: its bytes as the
hardware stores them, given to `decodeBytes`. -/
def decodeTableWord (nbits w : Nat) : Option Instr :=
  match decodeBytes (leBytes 4 (tableWord nbits w)) with
  | .ok (i, _) => some i
  | .error _ => none

/-! ### The encoder (30_encoding.md R62) -/

/-- R format. -/
def encodeR (f7 : BitVec 7) (rs2 rs1 : Reg) (f3 : BitVec 3) (rd : Reg) (group : BitVec 5) : Word :=
  f7 ++ bitsOfReg rs2 ++ bitsOfReg rs1 ++ f3 ++ bitsOfReg rd ++ group ++ 0b11#2

/-- I format. -/
def encodeI (imm : BitVec 12) (rs1 : Reg) (f3 : BitVec 3) (rd : Reg) (group : BitVec 5) : Word :=
  imm ++ bitsOfReg rs1 ++ f3 ++ bitsOfReg rd ++ group ++ 0b11#2

/-- I format of the immediate shifts. -/
def encodeShift (f7 : BitVec 7) (shamt : BitVec 5) (rs1 : Reg) (f3 : BitVec 3) (rd : Reg) : Word :=
  f7 ++ shamt ++ bitsOfReg rs1 ++ f3 ++ bitsOfReg rd ++ groupOpImm ++ 0b11#2

/-- S format. -/
def encodeS (imm : BitVec 12) (rs2 rs1 : Reg) (f3 : BitVec 3) : Word :=
  imm.extractLsb' 5 7 ++ bitsOfReg rs2 ++ bitsOfReg rs1 ++ f3 ++ imm.extractLsb' 0 5 ++ groupStore ++ 0b11#2

/-- B format. -/
def encodeB (o : BitVec 13) (rs2 rs1 : Reg) (f3 : BitVec 3) : Word :=
  o.extractLsb' 12 1 ++ o.extractLsb' 5 6 ++ bitsOfReg rs2 ++ bitsOfReg rs1 ++ f3 ++ o.extractLsb' 1 4
    ++ o.extractLsb' 11 1 ++ groupBranch ++ 0b11#2

/-- U format. -/
def encodeU (field : BitVec 20) (rd : Reg) (group : BitVec 5) : Word :=
  field ++ bitsOfReg rd ++ group ++ 0b11#2

/-- J format. -/
def encodeJ (o : BitVec 21) (rd : Reg) : Word :=
  o.extractLsb' 20 1 ++ o.extractLsb' 1 10 ++ o.extractLsb' 11 1 ++ o.extractLsb' 12 8 ++ bitsOfReg rd
    ++ groupJal ++ 0b11#2

/-- The word of a well-formed instruction; fields the hardware ignores are written as 0, as a standard assembler
writes them (assumption log 24). -/
def encode : Instr → Word
  | .lb rd rs1 imm    => encodeI imm rs1 0#3 rd groupLoad
  | .lh rd rs1 imm    => encodeI imm rs1 1#3 rd groupLoad
  | .lw rd rs1 imm    => encodeI imm rs1 2#3 rd groupLoad
  | .lbu rd rs1 imm   => encodeI imm rs1 4#3 rd groupLoad
  | .lhu rd rs1 imm   => encodeI imm rs1 5#3 rd groupLoad
  | .addi rd rs1 imm  => encodeI imm rs1 0#3 rd groupOpImm
  | .slti rd rs1 imm  => encodeI imm rs1 2#3 rd groupOpImm
  | .sltiu rd rs1 imm => encodeI imm rs1 3#3 rd groupOpImm
  | .xori rd rs1 imm  => encodeI imm rs1 4#3 rd groupOpImm
  | .ori rd rs1 imm   => encodeI imm rs1 6#3 rd groupOpImm
  | .andi rd rs1 imm  => encodeI imm rs1 7#3 rd groupOpImm
  | .slli rd rs1 sh   => encodeShift 0x00#7 sh rs1 1#3 rd
  | .srli rd rs1 sh   => encodeShift 0x00#7 sh rs1 5#3 rd
  | .srai rd rs1 sh   => encodeShift 0x20#7 sh rs1 5#3 rd
  | .auipc rd f       => encodeU f rd groupAuipc
  | .sb rs1 rs2 imm   => encodeS imm rs2 rs1 0#3
  | .sh rs1 rs2 imm   => encodeS imm rs2 rs1 1#3
  | .sw rs1 rs2 imm   => encodeS imm rs2 rs1 2#3
  | .add rd rs1 rs2   => encodeR 0x00#7 rs2 rs1 0#3 rd groupOp
  | .sub rd rs1 rs2   => encodeR 0x20#7 rs2 rs1 0#3 rd groupOp
  | .sll rd rs1 rs2   => encodeR 0x00#7 rs2 rs1 1#3 rd groupOp
  | .slt rd rs1 rs2   => encodeR 0x00#7 rs2 rs1 2#3 rd groupOp
  | .sltu rd rs1 rs2  => encodeR 0x00#7 rs2 rs1 3#3 rd groupOp
  | .xor rd rs1 rs2   => encodeR 0x00#7 rs2 rs1 4#3 rd groupOp
  | .srl rd rs1 rs2   => encodeR 0x00#7 rs2 rs1 5#3 rd groupOp
  | .sra rd rs1 rs2   => encodeR 0x20#7 rs2 rs1 5#3 rd groupOp
  | .or rd rs1 rs2    => encodeR 0x00#7 rs2 rs1 6#3 rd groupOp
  | .and rd rs1 rs2   => encodeR 0x00#7 rs2 rs1 7#3 rd groupOp
  | .lui rd f         => encodeU f rd groupLui
  | .beq rs1 rs2 o    => encodeB o rs2 rs1 0#3
  | .bne rs1 rs2 o    => encodeB o rs2 rs1 1#3
  | .blt rs1 rs2 o    => encodeB o rs2 rs1 4#3
  | .bge rs1 rs2 o    => encodeB o rs2 rs1 5#3
  | .bltu rs1 rs2 o   => encodeB o rs2 rs1 6#3
  | .bgeu rs1 rs2 o   => encodeB o rs2 rs1 7#3
  | .jalr rd rs1 imm  => encodeI imm rs1 0#3 rd groupJalr
  | .jal rd o         => encodeJ o rd
  | .system           => groupSystem.setWidth 32 <<< 2 ||| 0b11#32

/-! ### The opcode table (spec/opcode_table.json) -/

/-- One row: a word stands for the row's instruction when `w &&& mask = pattern`. -/
structure OpcodeRow where
  mnemonic : String
  pattern  : Word
  mask     : Word
  deriving DecidableEq, Repr

/-- LOAD and OP-IMM rows. -/
def opcodeRowsImm : List OpcodeRow :=
  [ ⟨"LB", 0x00000003, 0x0000707F⟩, ⟨"LH", 0x00001003, 0x0000707F⟩, ⟨"LW", 0x00002003, 0x0000707F⟩,
    ⟨"LBU", 0x00004003, 0x0000707F⟩, ⟨"LHU", 0x00005003, 0x0000707F⟩,
    ⟨"ADDI", 0x00000013, 0x0000707F⟩, ⟨"SLTI", 0x00002013, 0x0000707F⟩, ⟨"SLTIU", 0x00003013, 0x0000707F⟩,
    ⟨"XORI", 0x00004013, 0x0000707F⟩, ⟨"ORI", 0x00006013, 0x0000707F⟩, ⟨"ANDI", 0x00007013, 0x0000707F⟩,
    ⟨"SLLI", 0x00001013, 0xFE00707F⟩, ⟨"SRLI", 0x00005013, 0xFE00707F⟩, ⟨"SRAI", 0x40005013, 0xFE00707F⟩ ]

/-- AUIPC, STORE and OP rows, and LUI. -/
def opcodeRowsReg : List OpcodeRow :=
  [ ⟨"AUIPC", 0x00000017, 0x0000007F⟩,
    ⟨"SB", 0x00000023, 0x0000707F⟩, ⟨"SH", 0x00001023, 0x0000707F⟩, ⟨"SW", 0x00002023, 0x0000707F⟩,
    ⟨"ADD", 0x00000033, 0xFE00707F⟩, ⟨"SUB", 0x40000033, 0xFE00707F⟩, ⟨"SLL", 0x00001033, 0x0000707F⟩,
    ⟨"SLT", 0x00002033, 0x0000707F⟩, ⟨"SLTU", 0x00003033, 0x0000707F⟩, ⟨"XOR", 0x00004033, 0x0000707F⟩,
    ⟨"SRL", 0x00005033, 0xFE00707F⟩, ⟨"SRA", 0x40005033, 0xFE00707F⟩, ⟨"OR", 0x00006033, 0x0000707F⟩,
    ⟨"AND", 0x00007033, 0x0000707F⟩, ⟨"LUI", 0x00000037, 0x0000007F⟩ ]

/-- BRANCH rows, the jumps and SYSTEM. -/
def opcodeRowsControl : List OpcodeRow :=
  [ ⟨"BEQ", 0x00000063, 0x0000707F⟩, ⟨"BNE", 0x00001063, 0x0000707F⟩, ⟨"BLT", 0x00004063, 0x0000707F⟩,
    ⟨"BGE", 0x00005063, 0x0000707F⟩, ⟨"BLTU", 0x00006063, 0x0000707F⟩, ⟨"BGEU", 0x00007063, 0x0000707F⟩,
    ⟨"JALR", 0x00000067, 0x0000007F⟩, ⟨"JAL", 0x0000006F, 0x0000007F⟩, ⟨"SYSTEM", 0x00000073, 0x0000007F⟩ ]

/-- The 38 rows of spec/opcode_table.json, in its order. -/
def opcodeRows : List OpcodeRow := opcodeRowsImm ++ opcodeRowsReg ++ opcodeRowsControl

/-- The row's name for an instruction, as the table spells it. -/
def Instr.mnemonic : Instr → String
  | .lb _ _ _ => "LB" | .lh _ _ _ => "LH" | .lw _ _ _ => "LW" | .lbu _ _ _ => "LBU" | .lhu _ _ _ => "LHU"
  | .addi _ _ _ => "ADDI" | .slti _ _ _ => "SLTI" | .sltiu _ _ _ => "SLTIU" | .xori _ _ _ => "XORI"
  | .ori _ _ _ => "ORI" | .andi _ _ _ => "ANDI" | .slli _ _ _ => "SLLI" | .srli _ _ _ => "SRLI"
  | .srai _ _ _ => "SRAI" | .auipc _ _ => "AUIPC" | .sb _ _ _ => "SB" | .sh _ _ _ => "SH" | .sw _ _ _ => "SW"
  | .add _ _ _ => "ADD" | .sub _ _ _ => "SUB" | .sll _ _ _ => "SLL" | .slt _ _ _ => "SLT" | .sltu _ _ _ => "SLTU"
  | .xor _ _ _ => "XOR" | .srl _ _ _ => "SRL" | .sra _ _ _ => "SRA" | .or _ _ _ => "OR" | .and _ _ _ => "AND"
  | .lui _ _ => "LUI" | .beq _ _ _ => "BEQ" | .bne _ _ _ => "BNE" | .blt _ _ _ => "BLT" | .bge _ _ _ => "BGE"
  | .bltu _ _ _ => "BLTU" | .bgeu _ _ _ => "BGEU" | .jalr _ _ _ => "JALR" | .jal _ _ => "JAL" | .system => "SYSTEM"

end Sys2Proof
end

