-- ==== Sys2Proof/Machine/State.lean ====
section
/-!
DEFINITION. The machine's state as plain data (10_state.md), the error kinds (60_exceptions.md R190), why a step can
stop, and the state after reset (70_reset_and_hazards.md R241 to R245). `host` and `report` are the MODEL's own fields:
the spec says they are no state of the hardware (10_state.md R22); they hold its input and its outputs. `params` is no
state either: it is the configuration (10_state.md R22 (a)), carried beside the state because a step takes nothing else.
-/

namespace Sys2Proof.Machine

/-- The five error kinds (60_exceptions.md R190). -/
inductive ErrorKind where
  /-- Fatal: the fetched word fails length validation (40_cycle.md R94). -/
  | invalidInstructionEncoding
  /-- Recoverable: an accepted word that is no instruction (30_encoding.md R71, R72). -/
  | illegalInstruction
  /-- Recoverable: a halfword or word access not naturally aligned (20_memory.md R39). -/
  | misalignedAccess
  /-- Recoverable: an address unmapped or its handler missing, on any byte of a fetch, load or store (20_memory.md R44). -/
  | inaccessibleMemory
  /-- The CSR file's error (60_exceptions.md R204); no instruction can raise it. -/
  | invalidRegister
  deriving DecidableEq, Repr

/-- The UART's registers and flags (10_state.md R18, R19). -/
structure Uart where
  /-- `data_in`: the last byte received from the host. -/
  dataIn  : Byte
  /-- `data_out`: the last byte queued to the host. -/
  dataOut : Byte
  /-- NEWDAT: a new inbound byte is available, unread. -/
  newdat  : Bool
  /-- TXDONE: the outbound byte has been drained to the host. -/
  txdone  : Bool
  deriving DecidableEq, Repr

/-- What the host does for ever after a finite beginning, the MODEL's own. Both go on without end, as "whether and when the
host sends is unconstrained" (70_reset_and_hazards.md R262). -/
inductive HostLater where
  /-- Before each poll the next of these lists, from the first again after the last; with none, nothing for ever. -/
  | repeats (rounds : List (List Byte))
  /-- Before each poll a free value, `Config.hostSends`, from number `k` on: a host that nothing constrains. -/
  | free (k : Nat)
  deriving DecidableEq, Repr

/-- The host channel (60_exceptions.md R214), the MODEL's own: what waits, what was sent, and what will arrive. -/
structure HostChannel where
  /-- `rxq`: bytes waiting on the host's side, oldest first. -/
  rxq      : List Byte
  /-- `txlog`: bytes the host has received, oldest first. -/
  txlog    : List Byte
  /-- What the host appends to `rxq` before each coming poll, the next poll's first: any finite beginning of the
  unconstrained input, held as data (assumption log 5). -/
  arrivals : List (List Byte)
  /-- What it appends before each poll after those, for ever. -/
  later    : HostLater
  deriving DecidableEq, Repr

structure State where
  /-- The configuration: the parameters of 00_scope.md §4, immutable (10_state.md R22; assumption log 27). -/
  params : Params
  /-- x[0] to x[31] (10_state.md R10). -/
  regs   : Vector Word 32
  /-- The address of the instruction of this cycle (10_state.md R13). -/
  pc     : Word
  /-- ROM and RAM bytes by address (10_state.md R16, R17), in canonical form (`Memory.wf`). -/
  mem    : List Host.Cell
  /-- The UART (10_state.md R18, R19). -/
  uart   : Uart
  /-- The CSR table, immutable (10_state.md R20). -/
  csr    : List CsrEntry
  /-- The halted mark (10_state.md R21). -/
  halted : Bool
  /-- The MODEL's own: the host's side of the byte channel (60_exceptions.md R214). -/
  host   : HostChannel
  /-- The MODEL's own: the trap report of the latest cycle (60_exceptions.md R192); no instruction reads it. -/
  report : Option ErrorKind
  deriving DecidableEq, Repr

/-- Why the machine stops with a fault. -/
inductive Fault where
  /-- Raised by a cycle that begins in the halted state (10_state.md R21, 60_exceptions.md R195, decision D9: "A model
  treats reaching it as a fault"). Safe: the hardware does nothing more until reset (assumption log 7). -/
  | halted
  /-- Raised by a cycle that begins with pc[1:0] ≠ 0 under MISALIGNED_PC_POLICY = `fault` (40_cycle.md R93, decision
  D4). Safe: the model stops where the hardware may go on (assumption log 8). -/
  | misalignedPc
  deriving DecidableEq, Repr

/-- Why an instruction has no meaning. -/
inductive Refusal where
  /-- Raised by an arm of `exec` whose instruction is not modelled; no arm raises it. Safe. -/
  | notModelled (mnemonic : String)
  deriving DecidableEq, Repr

/-- The UART at reset (70_reset_and_hazards.md R244, decision D8; assumption log 3): idle. -/
def Uart.reset : Uart := { dataIn := 0x00#8, dataOut := 0x00#8, newdat := false, txdone := true }

/-- A silent host with nothing waiting (assumption log 5). -/
def HostChannel.silent : HostChannel := { rxq := [], txlog := [], arrivals := [], later := .repeats [] }

/-- The machine right after reset (70_reset_and_hazards.md R241 to R245), at the reference parameters. The registers' zeros
are assumption log 1, the empty ROM image assumption log 4; `State.launch` (Ops.lean) takes any of both and any allowed
parameters. -/
def State.reset : State where
  params := Config.params
  regs   := Vector.replicate 32 0#32
  pc     := Config.resetPc
  mem    := []
  uart   := Uart.reset
  csr    := Config.csrTable
  halted := false
  host   := HostChannel.silent
  report := none

end Sys2Proof.Machine
end

