-- ==== Sys2Proof/Machine/Ops.lean ====
section
/-!
DEFINITION. The named operations every meaning is written over: memory as canonical data, the address-space dispatcher
(20_memory.md R32 to R37), the UART's registers and poll (60_exceptions.md R208 to R217), multi-byte accesses
(20_memory.md R39 to R41), the register file (10_state.md R10, R11), closing a cycle (40_cycle.md R97, R98), the traps
(60_exceptions.md R191, R195) and the launch state (70_reset_and_hazards.md R240 to R245).
-/

namespace Sys2Proof.Machine

/-! ### Memory: a list of cells in one canonical form -/

/-- What an address that no cell lists reads as. RAM: 0x00 (70_reset_and_hazards.md R243). ROM outside the image: 0x00,
assumption log 4. -/
def Memory.unlisted (_a : Nat) : Byte := 0x00#8

/-- The byte at an address. -/
def Memory.read : List Host.Cell → Nat → Byte
  | [], a => Memory.unlisted a
  | (k, b) :: m, a => if k = a then b else Memory.read m a

/-- `m` with the cell (a, b) in front, unless b is what `a` reads as unlisted. -/
def Memory.consCell (a : Nat) (b : Byte) (m : List Host.Cell) : List Host.Cell :=
  if b = Memory.unlisted a then m else (a, b) :: m

/-- Set the byte at an address, keeping the canonical form. -/
def Memory.write : List Host.Cell → Nat → Byte → List Host.Cell
  | [], a, b => Memory.consCell a b []
  | (k, c) :: m, a, b =>
    if a < k then Memory.consCell a b ((k, c) :: m)
    else if a = k then Memory.consCell a b m
    else (k, c) :: Memory.write m a b

/-- Set consecutive bytes from an address on. -/
def Memory.writeList (m : List Host.Cell) (a : Nat) : List Byte → List Host.Cell
  | [] => m
  | b :: bs => Memory.writeList (Memory.write m a b) (a + 1) bs

/-- The canonical form: addresses strictly rising, and no cell equal to what its address reads as unlisted. -/
def Memory.wf : List Host.Cell → Bool
  | [] => true
  | [(a, b)] => b != Memory.unlisted a
  | (a, b) :: (k, c) :: m => b != Memory.unlisted a && decide (a < k) && Memory.wf ((k, c) :: m)

/-! ### The address-space dispatcher -/

/-- Region lookup in an ordered table (20_memory.md R32). -/
def regionIn (table : List Region) (a : Word) : Option Region :=
  table.find? fun r => decide (r.first ≤ a.toNat) && decide (a.toNat ≤ r.last)

/-- The ordered region table of a map (20_memory.md R31): ROM has no store handler. -/
def regionsOf (m : AddressMap) : List Region :=
  [ { kind := .rom,  first := m.romBase,  last := m.romLast,  load := true, store := false },
    { kind := .ram,  first := m.ramBase,  last := m.ramLast,  load := true, store := true },
    { kind := .uart, first := m.uartBase, last := m.uartLast, load := true, store := true } ]

/-- Region lookup in a map's table (20_memory.md R31, R32). -/
def regionAt (m : AddressMap) (a : Word) : Option Region := regionIn (regionsOf m) a

/-- The dispatcher's two errors (20_memory.md R33, R34), both InaccessibleMemory at the core (R44). -/
inductive AccessError where
  | unmapped
  | denied
  deriving DecidableEq, Repr

/-- The status byte (60_exceptions.md R211). -/
def statusByte (p : Params) (u : Uart) : Byte :=
  (if u.newdat then p.newdatMask else 0x00#8) ||| (if u.txdone then p.txdoneMask else 0x00#8)

/-- Whether an address of the UART window selects DATA or STATUS: whether its offset from UART_BASE is odd
(20_memory.md R37). -/
def uartSelectsData (m : AddressMap) (a : Word) : Bool := (a.toNat - m.uartBase) % 2 == 1

/-- `get_register` (60_exceptions.md R209, R210): a load of DATA consumes, a load of STATUS does not. -/
def uartLoad (p : Params) (a : Word) (u : Uart) : Byte × Uart :=
  if uartSelectsData p.map a then (u.dataIn, { u with newdat := false }) else (statusByte p u, u)

/-- `set_register` (60_exceptions.md R212, R213): a store to DATA queues the byte, a store to STATUS does nothing. -/
def uartStore (m : AddressMap) (a : Word) (b : Byte) (u : Uart) : Uart :=
  if uartSelectsData m a then { u with dataOut := b, txdone := false } else u

/-- `LoadByte` (20_memory.md R33, R35, R36, R37). -/
def loadByte (a : Word) (s : State) : Except AccessError (Byte × State) :=
  match regionAt s.params.map a with
  | none => .error .unmapped
  | some r =>
    if r.load then
      match r.kind with
      | .rom => .ok (Memory.read s.mem a.toNat, s)
      | .ram => .ok (Memory.read s.mem a.toNat, s)
      | .uart => .ok ((uartLoad s.params a s.uart).1, { s with uart := (uartLoad s.params a s.uart).2 })
    else .error .denied

/-- `StoreByte` (20_memory.md R34, R35, R36, R37). A region of kind `rom` has no store handler: a row that gave it one
would still deny. -/
def storeByte (a : Word) (b : Byte) (s : State) : Except AccessError State :=
  match regionAt s.params.map a with
  | none => .error .unmapped
  | some r =>
    if r.store then
      match r.kind with
      | .rom => .error .denied
      | .ram => .ok { s with mem := Memory.write s.mem a.toNat b }
      | .uart => .ok { s with uart := uartStore s.params.map a b s.uart }
    else .error .denied

/-! ### Multi-byte accesses -/

/-- The byte loads of an `n`-byte access, ascending from `a` modulo 2^32, stopping at the first error; what was loaded
before it keeps its side effects (20_memory.md R40). `none`: some byte failed. -/
def loadBytes : Nat → Word → State → Option (List Byte) × State
  | 0, _, s => (some [], s)
  | n + 1, a, s =>
    match loadByte a s with
    | .error _ => (none, s)
    | .ok (b, s1) => ((loadBytes n (a + 1) s1).1.map (b :: ·), (loadBytes n (a + 1) s1).2)

/-- The byte stores of an access, ascending from `a` modulo 2^32, stopping at the first error; earlier bytes stay
written (20_memory.md R41). `false`: some byte failed. -/
def storeBytes : List Byte → Word → State → Bool × State
  | [], _, s => (true, s)
  | b :: bs, a, s =>
    match storeByte a b s with
    | .error _ => (false, s)
    | .ok s1 => storeBytes bs (a + 1) s1

/-- `MemRead(addr, n)` (20_memory.md R40): an n-byte value, zero-extended to a word. -/
def memRead (a : Word) (n : Nat) (s : State) : Option Word × State :=
  ((loadBytes n a s).1.map leWord, (loadBytes n a s).2)

/-- `MemWrite(addr, n, v)` (20_memory.md R41). -/
def memWrite (a : Word) (n : Nat) (v : Word) (s : State) : Bool × State := storeBytes (leBytes n v) a s

/-- Natural alignment of an `n`-byte access (20_memory.md R39): a byte always, a halfword at a multiple of 2, a word at a
multiple of 4. -/
def aligned (n : Nat) (a : Word) : Bool := a.toNat % n == 0

/-! ### Registers and closing the cycle -/

/-- `x[i]` (00_scope.md R7). Entry 0 holds 0 at the start of every cycle (10_state.md R11). -/
def State.readReg (s : State) (r : Reg) : Word := s.regs[r]

/-- `x[i] <- v` (00_scope.md R7). A write to entry 0 is lost when the cycle closes (40_cycle.md R97). -/
def State.writeReg (s : State) (r : Reg) (v : Word) : State := { s with regs := s.regs.set r v }

/-- "register 0 is forced back to 0" (40_cycle.md R97). -/
def State.forceZero (s : State) : State := { s with regs := s.regs.set 0 0#32 }

/-- Close the cycle (40_cycle.md R97, R98): force x[0], report (60_exceptions.md R192), set the next pc. -/
def State.close (s : State) (nextPc : Word) (report : Option ErrorKind) : State :=
  { s.forceZero with pc := nextPc, report := report }

/-- The address of the following instruction, modulo 2^32 (10_state.md R14). -/
def State.nextPc (s : State) : Word := s.pc + 4#32

/-- An instruction that completes without changing the flow: pc + 4, no trap. -/
def State.retire (s : State) : State := s.close s.nextPc none

/-- An instruction that performed `pc <- t`. -/
def State.retireAt (s : State) (t : Word) : State := s.close t none

/-- TAKING A RECOVERABLE TRAP in execute (`raise K`; 60_exceptions.md R191, R197): the rest of the instruction is not
performed, the kind is reported, x[0] is forced and pc becomes pc + 4. Nothing is saved and nothing is vectored, and so
there is no return from a trap either (R198). -/
def State.raiseTrap (s : State) (k : ErrorKind) : State := s.close s.nextPc (some k)

/-- A failed fetch (40_cycle.md R91, R92): InaccessibleMemory is reported, x[0] is forced, pc keeps its value. -/
def State.fetchTrap (s : State) : State := s.close s.pc (some .inaccessibleMemory)

/-- The fatal outcome (40_cycle.md R94, 60_exceptions.md R195): reported, halted, nothing else changes. -/
def State.halt (s : State) : State :=
  { s with halted := true, report := some .invalidInstructionEncoding }

/-! ### The UART poll -/

/-- What the host sends before the next poll, after its finite beginning. -/
def HostLater.sends : HostLater → List Byte
  | .repeats l => l.headD []
  | .free k => Config.hostSends k

/-- What it does after that poll. -/
def HostLater.advance : HostLater → HostLater
  | .repeats l => .repeats (l.tail ++ l.take 1)
  | .free k => .free (k + 1)

/-- What the host sends before the next poll (60_exceptions.md R214; assumption log 5). -/
def HostChannel.sends (h : HostChannel) : List Byte :=
  match h.arrivals with
  | [] => h.later.sends
  | bs :: _ => bs

/-- The channel after the host sent that, but for the queue. -/
def HostChannel.advance (h : HostChannel) : HostChannel :=
  match h.arrivals with
  | [] => { h with later := h.later.advance }
  | _ :: rest => { h with arrivals := rest }

/-- The host appends to its queue before this poll (60_exceptions.md R214; assumption log 5). -/
def hostArrive (h : HostChannel) : HostChannel := { h.advance with rxq := h.rxq ++ h.sends }

/-- The receive part (60_exceptions.md R216): with NEWDAT clear, take the oldest waiting byte and drain the rest. -/
def pollReceive (s : State) : State :=
  if s.uart.newdat then s
  else
    match s.host.rxq with
    | [] => s
    | b :: _ =>
      { s with uart := { s.uart with dataIn := b, newdat := true }, host := { s.host with rxq := [] } }

/-- The transmit part (60_exceptions.md R217). -/
def pollTransmit (s : State) : State :=
  if s.uart.txdone then s
  else
    { s with uart := { s.uart with txdone := true }
             host := { s.host with txlog := s.host.txlog ++ [s.uart.dataOut] } }

/-- One UART poll (60_exceptions.md R215): receive, then transmit; before it, what the host sent since the last one. -/
def poll (s : State) : State := pollTransmit (pollReceive { s with host := hostArrive s.host })

/-! ### Launch (70_reset_and_hazards.md R240) -/

/-- What a launch fixes: the parameters of 00_scope.md §4 (RESET_PC and the address map among them, CSR_TABLE, ROM_IMAGE
(10_state.md R16) and INIT_REGS (R242)), and what the host does. -/
structure Launch where
  params   : Params
  /-- CSR_TABLE (60_exceptions.md R205; `Config.csrTableWf` says which tables may be). -/
  csrTable : List CsrEntry
  /-- The image's bytes, the first at ROM_BASE; those beyond the ROM are not loaded. -/
  romImage : List Byte
  /-- x[0] to x[31]; entry 0 is not used. -/
  initRegs : Vector Word 32
  /-- Bytes the host has waiting (R245: "at reset the host may already have bytes waiting"). -/
  waiting  : List Byte
  /-- What the host will append before each coming poll, for a beginning of the run. -/
  arrivals : List (List Byte)
  /-- What it will append after that, for ever. -/
  later    : HostLater
  deriving DecidableEq, Repr

/-- How many bytes the ROM holds (10_state.md R16). -/
def romSize (m : AddressMap) : Nat := m.romLast + 1 - m.romBase

/-- The state after reset for any launch (R241 to R245): pc is RESET_PC, and `txlog` is empty as seen from this run.
`State.reset` is the launch at the reference parameters and table with no image, zeros and a silent host. -/
def State.launch (l : Launch) : State where
  params := l.params
  regs   := l.initRegs.set 0 0#32
  pc     := l.params.resetPc
  mem    := Memory.writeList [] l.params.map.romBase (l.romImage.take (romSize l.params.map))
  uart   := Uart.reset
  csr    := l.csrTable
  halted := false
  host   := { rxq := l.waiting, txlog := [], arrivals := l.arrivals, later := l.later }
  report := none

/-! ### Bodies that several meanings share -/

/-- A load (41_load.md R110): alignment, the bytes, the extension, the destination; any trap leaves rd unwritten. -/
def loadInto (n : Nat) (extend : Word → Word) (rd : Reg) (a : Word) (s : State) :
    Host.Outcome State Fault Refusal :=
  if aligned n a then
    match memRead a n s with
    | (some v, s1) => .next (s1.writeReg rd (extend v)).retire
    | (none, s1) => .next (s1.raiseTrap .inaccessibleMemory)
  else .next (s.raiseTrap .misalignedAccess)

/-- A store (44_store.md R140): alignment, then the bytes; bytes before a failing one stay stored. -/
def storeFrom (n : Nat) (v : Word) (a : Word) (s : State) : Host.Outcome State Fault Refusal :=
  if aligned n a then
    match memWrite a n v s with
    | (true, s1) => .next s1.retire
    | (false, s1) => .next (s1.raiseTrap .inaccessibleMemory)
  else .next (s.raiseTrap .misalignedAccess)

/-- An instruction whose one effect is `x[rd] <- v`. -/
def writeResult (rd : Reg) (v : Word) (s : State) : Host.Outcome State Fault Refusal :=
  .next (s.writeReg rd v).retire

/-- A branch (46_branch.md R165): `pc <- t` if the condition holds, else pc + 4. -/
def branchIf (taken : Bool) (t : Word) (s : State) : Host.Outcome State Fault Refusal :=
  .next (if taken then s.retireAt t else s.retire)

/-- A jump (47_jump.md R175): the link value pc + 4 into rd, then `pc <- t`. -/
def jumpAndLink (rd : Reg) (t : Word) (s : State) : Host.Outcome State Fault Refusal :=
  .next ((s.writeReg rd s.nextPc).retireAt t)

end Sys2Proof.Machine
end

