-- ==== Sys2Proof/Machine/Flags.lean ====
section
/-!
DEFINITION. This hardware has no flag register and no condition code (10_state.md R15). What stands in their place are
the comparisons: SLT, SLTI, SLTU, SLTIU write 0 or 1 into a register, and the six branches test a condition inside one
instruction (45_op.md R162).
-/

namespace Sys2Proof.Machine

/-- `signed(a) < signed(b)` (SLT, SLTI, BLT, BGE). -/
def lessSigned (a b : Word) : Bool := a.slt b

/-- `a < b` as unsigned numbers (SLTU, SLTIU, BLTU, BGEU). -/
def lessUnsigned (a b : Word) : Bool := a.ult b

/-- Bitwise equality (BEQ, BNE). -/
def equalWords (a b : Word) : Bool := a == b

/-- The 32-bit value 1 or 0 of a comparison. -/
def truthWord (c : Bool) : Word := if c then 1#32 else 0#32

end Sys2Proof.Machine
end

