-- ==== Sys2Proof/Machine/Operands.lean ====
section
/-!
DEFINITION. Every operand form: sign and zero extension (00_scope.md R6), the immediates as 32-bit operands
(30_encoding.md R63 to R68), effective addresses (20_memory.md R43), branch and jump targets (46_branch.md R165,
47_jump.md R176, R177) and register shift amounts (45_op.md R162).
-/

namespace Sys2Proof.Machine

/-- `sext_12(imm)`: the I and S immediates (30_encoding.md R63, R64). -/
def sext12 (imm : BitVec 12) : Word := imm.signExtend 32

/-- `sext_13(offset)`: the B immediate, a byte offset (30_encoding.md R65). -/
def sext13 (o : BitVec 13) : Word := o.signExtend 32

/-- `sext_21(offset)`: the J immediate, a byte offset (30_encoding.md R67). -/
def sext21 (o : BitVec 21) : Word := o.signExtend 32

/-- `imm_U`: the field shifted left by 12 (30_encoding.md R66). -/
def upperImm (field : BitVec 20) : Word := field.setWidth 32 <<< 12

/-- `sext_8`, `sext_16`, `zext_8`, `zext_16` of the low bits of a word (00_scope.md R6; 41_load.md R111 to R115). -/
def sext8 (v : Word) : Word := (v.setWidth 8).signExtend 32
def sext16 (v : Word) : Word := (v.setWidth 16).signExtend 32
def zext8 (v : Word) : Word := (v.setWidth 8).setWidth 32
def zext16 (v : Word) : Word := (v.setWidth 16).setWidth 32

/-- The effective address of a load or store: `x[rs1] + sext_12(imm)` modulo 2^32 (20_memory.md R43). -/
def effectiveAddr (s : State) (rs1 : Reg) (imm : BitVec 12) : Word := s.readReg rs1 + sext12 imm

/-- The target of a taken branch: `pc + imm_B` modulo 2^32 (46_branch.md R165). -/
def branchTarget (s : State) (o : BitVec 13) : Word := s.pc + sext13 o

/-- The target of JAL: `pc + imm_J` modulo 2^32 (47_jump.md R177). -/
def jalTarget (s : State) (o : BitVec 21) : Word := s.pc + sext21 o

/-- The target of JALR: `(x[rs1] + imm_I) & 0xFFFFFFFE` (47_jump.md R176). -/
def jalrTarget (s : State) (rs1 : Reg) (imm : BitVec 12) : Word := (s.readReg rs1 + sext12 imm) &&& 0xFFFFFFFE#32

/-- A register shift amount: the low 5 bits (45_op.md R162). -/
def shiftAmount (v : Word) : Nat := (v.extractLsb' 0 5).toNat

end Sys2Proof.Machine
end

