-- ==== Sys2Proof/Machine/Branch.lean ====
section
/-!
DEFINITION. The BRANCH group (46_branch.md R165 to R171): no register is written, no memory is accessed, no target is checked.
-/

namespace Sys2Proof.Machine

/-- BEQ (46_branch.md R166). -/
def execBeq (rs1 rs2 : Reg) (offset : BitVec 13) (s : State) : Host.Outcome State Fault Refusal :=
  branchIf (equalWords (s.readReg rs1) (s.readReg rs2)) (branchTarget s offset) s

/-- BNE (46_branch.md R167). -/
def execBne (rs1 rs2 : Reg) (offset : BitVec 13) (s : State) : Host.Outcome State Fault Refusal :=
  branchIf (!equalWords (s.readReg rs1) (s.readReg rs2)) (branchTarget s offset) s

/-- BLT (46_branch.md R168): signed. -/
def execBlt (rs1 rs2 : Reg) (offset : BitVec 13) (s : State) : Host.Outcome State Fault Refusal :=
  branchIf (lessSigned (s.readReg rs1) (s.readReg rs2)) (branchTarget s offset) s

/-- BGE (46_branch.md R169): signed. -/
def execBge (rs1 rs2 : Reg) (offset : BitVec 13) (s : State) : Host.Outcome State Fault Refusal :=
  branchIf (!lessSigned (s.readReg rs1) (s.readReg rs2)) (branchTarget s offset) s

/-- BLTU (46_branch.md R170): unsigned. -/
def execBltu (rs1 rs2 : Reg) (offset : BitVec 13) (s : State) : Host.Outcome State Fault Refusal :=
  branchIf (lessUnsigned (s.readReg rs1) (s.readReg rs2)) (branchTarget s offset) s

/-- BGEU (46_branch.md R171): unsigned. -/
def execBgeu (rs1 rs2 : Reg) (offset : BitVec 13) (s : State) : Host.Outcome State Fault Refusal :=
  branchIf (!lessUnsigned (s.readReg rs1) (s.readReg rs2)) (branchTarget s offset) s

end Sys2Proof.Machine
end

