-- ==== Sys2Proof/Machine/Jump.lean ====
section
/-!
DEFINITION. JALR and JAL (47_jump.md R175 to R177): the target is computed from the old registers, then the link is written.
-/

namespace Sys2Proof.Machine

/-- JALR (47_jump.md R176): bit 0 of the target is cleared, bit 1 is kept. -/
def execJalr (rd rs1 : Reg) (imm : BitVec 12) (s : State) : Host.Outcome State Fault Refusal :=
  jumpAndLink rd (jalrTarget s rs1 imm) s

/-- JAL (47_jump.md R177). -/
def execJal (rd : Reg) (offset : BitVec 21) (s : State) : Host.Outcome State Fault Refusal :=
  jumpAndLink rd (jalTarget s offset) s

end Sys2Proof.Machine
end

