-- ==== Sys2Proof/Machine/Load.lean ====
section
/-!
DEFINITION. The LOAD group (41_load.md R110 to R115): the shared load at the instruction's width and extension. Which of
them sign-extend is general knowledge of the family (assumption log 12).
-/

namespace Sys2Proof.Machine

/-- LB (41_load.md R111). -/
def execLb (rd rs1 : Reg) (imm : BitVec 12) (s : State) : Host.Outcome State Fault Refusal :=
  loadInto 1 sext8 rd (effectiveAddr s rs1 imm) s

/-- LH (41_load.md R112). -/
def execLh (rd rs1 : Reg) (imm : BitVec 12) (s : State) : Host.Outcome State Fault Refusal :=
  loadInto 2 sext16 rd (effectiveAddr s rs1 imm) s

/-- LW (41_load.md R113). -/
def execLw (rd rs1 : Reg) (imm : BitVec 12) (s : State) : Host.Outcome State Fault Refusal :=
  loadInto 4 id rd (effectiveAddr s rs1 imm) s

/-- LBU (41_load.md R114). -/
def execLbu (rd rs1 : Reg) (imm : BitVec 12) (s : State) : Host.Outcome State Fault Refusal :=
  loadInto 1 zext8 rd (effectiveAddr s rs1 imm) s

/-- LHU (41_load.md R115). -/
def execLhu (rd rs1 : Reg) (imm : BitVec 12) (s : State) : Host.Outcome State Fault Refusal :=
  loadInto 2 zext16 rd (effectiveAddr s rs1 imm) s

end Sys2Proof.Machine
end

