-- ==== Sys2Proof/Machine/Op.lean ====
section
/-!
DEFINITION. The OP group (45_op.md R150 to R160, R162): both sources are read before rd is written. What each mnemonic
computes is general knowledge of the family (assumption log 12).
-/

namespace Sys2Proof.Machine

/-- ADD (45_op.md R151). -/
def execAdd (rd rs1 rs2 : Reg) (s : State) : Host.Outcome State Fault Refusal :=
  writeResult rd (s.readReg rs1 + s.readReg rs2) s

/-- SUB (45_op.md R152): rs1 minus rs2. -/
def execSub (rd rs1 rs2 : Reg) (s : State) : Host.Outcome State Fault Refusal :=
  writeResult rd (s.readReg rs1 - s.readReg rs2) s

/-- SLL (45_op.md R153). -/
def execSll (rd rs1 rs2 : Reg) (s : State) : Host.Outcome State Fault Refusal :=
  writeResult rd (s.readReg rs1 <<< shiftAmount (s.readReg rs2)) s

/-- SLT (45_op.md R154): signed. -/
def execSlt (rd rs1 rs2 : Reg) (s : State) : Host.Outcome State Fault Refusal :=
  writeResult rd (truthWord (lessSigned (s.readReg rs1) (s.readReg rs2))) s

/-- SLTU (45_op.md R155): unsigned. -/
def execSltu (rd rs1 rs2 : Reg) (s : State) : Host.Outcome State Fault Refusal :=
  writeResult rd (truthWord (lessUnsigned (s.readReg rs1) (s.readReg rs2))) s

/-- XOR (45_op.md R156). -/
def execXor (rd rs1 rs2 : Reg) (s : State) : Host.Outcome State Fault Refusal :=
  writeResult rd (s.readReg rs1 ^^^ s.readReg rs2) s

/-- SRL (45_op.md R157): zeros enter. -/
def execSrl (rd rs1 rs2 : Reg) (s : State) : Host.Outcome State Fault Refusal :=
  writeResult rd (s.readReg rs1 >>> shiftAmount (s.readReg rs2)) s

/-- SRA (45_op.md R158): copies of bit 31 enter. -/
def execSra (rd rs1 rs2 : Reg) (s : State) : Host.Outcome State Fault Refusal :=
  writeResult rd ((s.readReg rs1).sshiftRight (shiftAmount (s.readReg rs2))) s

/-- OR (45_op.md R159). -/
def execOr (rd rs1 rs2 : Reg) (s : State) : Host.Outcome State Fault Refusal :=
  writeResult rd (s.readReg rs1 ||| s.readReg rs2) s

/-- AND (45_op.md R160). -/
def execAnd (rd rs1 rs2 : Reg) (s : State) : Host.Outcome State Fault Refusal :=
  writeResult rd (s.readReg rs1 &&& s.readReg rs2) s

end Sys2Proof.Machine
end

