-- ==== Sys2Proof/Machine/OpImm.lean ====
section
/-!
DEFINITION. The OP-IMM group (42_op_imm.md R120 to R129): x[rs1] against the sign-extended immediate, or shifted by
shamt. What each mnemonic computes is general knowledge of the family (assumption log 12).
-/

namespace Sys2Proof.Machine

/-- ADDI (42_op_imm.md R121). -/
def execAddi (rd rs1 : Reg) (imm : BitVec 12) (s : State) : Host.Outcome State Fault Refusal :=
  writeResult rd (s.readReg rs1 + sext12 imm) s

/-- SLTI (42_op_imm.md R122): signed. -/
def execSlti (rd rs1 : Reg) (imm : BitVec 12) (s : State) : Host.Outcome State Fault Refusal :=
  writeResult rd (truthWord (lessSigned (s.readReg rs1) (sext12 imm))) s

/-- SLTIU (42_op_imm.md R123): the sign-extended immediate, compared as unsigned. -/
def execSltiu (rd rs1 : Reg) (imm : BitVec 12) (s : State) : Host.Outcome State Fault Refusal :=
  writeResult rd (truthWord (lessUnsigned (s.readReg rs1) (sext12 imm))) s

/-- XORI (42_op_imm.md R124). -/
def execXori (rd rs1 : Reg) (imm : BitVec 12) (s : State) : Host.Outcome State Fault Refusal :=
  writeResult rd (s.readReg rs1 ^^^ sext12 imm) s

/-- ORI (42_op_imm.md R125). -/
def execOri (rd rs1 : Reg) (imm : BitVec 12) (s : State) : Host.Outcome State Fault Refusal :=
  writeResult rd (s.readReg rs1 ||| sext12 imm) s

/-- ANDI (42_op_imm.md R126). -/
def execAndi (rd rs1 : Reg) (imm : BitVec 12) (s : State) : Host.Outcome State Fault Refusal :=
  writeResult rd (s.readReg rs1 &&& sext12 imm) s

/-- SLLI (42_op_imm.md R127). -/
def execSlli (rd rs1 : Reg) (shamt : BitVec 5) (s : State) : Host.Outcome State Fault Refusal :=
  writeResult rd (s.readReg rs1 <<< shamt.toNat) s

/-- SRLI (42_op_imm.md R128): zeros enter. -/
def execSrli (rd rs1 : Reg) (shamt : BitVec 5) (s : State) : Host.Outcome State Fault Refusal :=
  writeResult rd (s.readReg rs1 >>> shamt.toNat) s

/-- SRAI (42_op_imm.md R129): copies of bit 31 enter. -/
def execSrai (rd rs1 : Reg) (shamt : BitVec 5) (s : State) : Host.Outcome State Fault Refusal :=
  writeResult rd ((s.readReg rs1).sshiftRight shamt.toNat) s

end Sys2Proof.Machine
end

