-- ==== Sys2Proof/Machine/Store.lean ====
section
/-!
DEFINITION. The STORE group (44_store.md R140 to R143): the low 1, 2 or 4 bytes of x[rs2] at x[rs1] + imm_S.
-/

namespace Sys2Proof.Machine

/-- SB (44_store.md R141). -/
def execSb (rs1 rs2 : Reg) (imm : BitVec 12) (s : State) : Host.Outcome State Fault Refusal :=
  storeFrom 1 (s.readReg rs2) (effectiveAddr s rs1 imm) s

/-- SH (44_store.md R142). -/
def execSh (rs1 rs2 : Reg) (imm : BitVec 12) (s : State) : Host.Outcome State Fault Refusal :=
  storeFrom 2 (s.readReg rs2) (effectiveAddr s rs1 imm) s

/-- SW (44_store.md R143). -/
def execSw (rs1 rs2 : Reg) (imm : BitVec 12) (s : State) : Host.Outcome State Fault Refusal :=
  storeFrom 4 (s.readReg rs2) (effectiveAddr s rs1 imm) s

end Sys2Proof.Machine
end

