-- ==== Sys2Proof/Machine/System.lean ====
section
/-!
DEFINITION. The SYSTEM group (48_system.md R180, R181): one no-op. ECALL, EBREAK, MRET, WFI and the CSR instructions are
not distinguished and have no effect of their own; no register is written (assumption log 17).
-/

namespace Sys2Proof.Machine

/-- SYSTEM (48_system.md R180): nothing; the cycle closes normally. -/
def execSystem (s : State) : Host.Outcome State Fault Refusal :=
  .next s.retire

end Sys2Proof.Machine
end

