-- ==== Sys2Proof/Machine/Upper.lean ====
section
/-!
DEFINITION. AUIPC and LUI (43_upper_immediate.md R135 to R137).
-/

namespace Sys2Proof.Machine

/-- AUIPC (43_upper_immediate.md R136): pc is the address of this AUIPC. -/
def execAuipc (rd : Reg) (field : BitVec 20) (s : State) : Host.Outcome State Fault Refusal :=
  writeResult rd (s.pc + upperImm field) s

/-- LUI (43_upper_immediate.md R137). -/
def execLui (rd : Reg) (field : BitVec 20) (s : State) : Host.Outcome State Fault Refusal :=
  writeResult rd (upperImm field) s

end Sys2Proof.Machine
end

