-- ==== Sys2Proof/Machine/Cycle.lean ====
section
/-!
DEFINITION. One cycle (40_cycle.md R90, R91): nothing when halted; otherwise one UART poll, then one core step: fetch
(R92, R93), length validation (R94), decode and dispatch (R95), execute and close (R96 to R98, in `exec`).
-/

namespace Sys2Proof.Machine

/-- Fetch (40_cycle.md R92): four byte loads from pc on, little-endian, through the dispatcher. -/
def fetch (s : State) : Option Word × State := memRead s.pc 4 s

/-- Validate, decode and dispatch a fetched word (40_cycle.md R94, R95; 30_encoding.md R77). -/
def runWord (w : Word) (s : State) : Host.Outcome State Fault Refusal :=
  match decodeWordWith s.params.decode w with
  | .error .invalidEncoding => .next s.halt
  | .error .unlistedGroup => .next (s.raiseTrap .illegalInstruction)
  | .error .unlistedFunction => .next (s.raiseTrap .illegalInstruction)
  | .error .tooShort => .next (s.raiseTrap .illegalInstruction)
  | .ok i => exec i s

/-- Fetch and run (40_cycle.md R91). -/
def fetchAndRun (s : State) : Host.Outcome State Fault Refusal :=
  match fetch s with
  | (some w, s1) => runWord w s1
  | (none, s1) => .next s1.fetchTrap

/-- One core step (40_cycle.md R91) under the configured policy for a misaligned pc (R93). -/
def coreStep (s : State) : Host.Outcome State Fault Refusal :=
  match s.params.misalignedPc with
  | .bytewise => fetchAndRun s
  | .fault => if aligned 4 s.pc then fetchAndRun s else .fault .misalignedPc

/-- One cycle (40_cycle.md R90): a halted machine has no further cycle (10_state.md R21; assumption log 7). -/
def cycle (s : State) : Host.Outcome State Fault Refusal :=
  if s.halted then .fault .halted else coreStep (poll s)

/-- Whether an address is a byte of ROM or RAM (20_memory.md R31). -/
def hasStorage (m : AddressMap) (a : Nat) : Bool :=
  (decide (m.romBase ≤ a) && decide (a ≤ m.romLast)) || (decide (m.ramBase ≤ a) && decide (a ≤ m.ramLast))

/-- Whether a placed word can be fetched from an address: aligned, and its four bytes in ROM or RAM (40_cycle.md R92, R93). -/
def fetchable (m : AddressMap) (a : Word) : Bool :=
  aligned 4 a && (hasStorage m a.toNat && hasStorage m (a.toNat + 1) && hasStorage m (a.toNat + 2)
    && hasStorage m (a.toNat + 3))

/-- Where a placed word goes: pc if a word can be fetched there, else RESET_PC. -/
def placePc (s : State) : Word := if fetchable s.params.map s.pc then s.pc else s.params.resetPc

/-- Place a word's bytes where the next cycle fetches, with pc there; a halted machine is started again. It stands for the
launch's load of a program (assumption log 23). -/
def placeWord (s : State) (w : Word) : State :=
  { s with
    pc     := placePc s
    mem    := Memory.writeList s.mem (placePc s).toNat (leBytes 4 w)
    halted := false }

end Sys2Proof.Machine
end

