-- ==== Sys2Proof/Machine/Csr.lean ====
section
/-!
DEFINITION. The CSR file (60_exceptions.md R204 to R207): a table keyed by a 12-bit address, with `get` and `set`. No
instruction calls either (48_system.md R181), so no step reads it; it holds no mutable state (10_state.md R20). What the
source does not specify of mstatus and misa is a free value (assumption log 20).
-/

namespace Sys2Proof.Machine

/-- The entry of an address, by keyed lookup (60_exceptions.md R204). -/
def csrEntry (table : List CsrEntry) (a : BitVec 12) : Option CsrEntry :=
  table.find? fun e => e.addr == a

/-- `get(a)` (60_exceptions.md R204, R206): unknown address or no get handler is InvalidRegister. -/
def csrGet (a : BitVec 12) (s : State) : Except ErrorKind Word :=
  match csrEntry s.csr a with
  | none => .error .invalidRegister
  | some e =>
    match e.get with
    | none => .error .invalidRegister
    | some (.constant v) => .ok v
    | some .unspecified =>
      match Config.csrOpenGet a with
      | some v => .ok v
      | none => .error .invalidRegister

/-- `set(a, v)` (60_exceptions.md R204, R206): unknown address or no set handler is InvalidRegister; an accepted write
to an identification register is ignored. -/
def csrSet (a : BitVec 12) (v : Word) (s : State) : Except ErrorKind State :=
  match csrEntry s.csr a with
  | none => .error .invalidRegister
  | some e =>
    match e.set with
    | none => .error .invalidRegister
    | some .ignore => .ok s
    | some .unspecified => if Config.csrOpenSet a v then .ok s else .error .invalidRegister

end Sys2Proof.Machine
end

