-- ==== Sys2Proof/Safety.lean ====
section
/-!
DEFINITION. What claims about this machine are stated in: the regions of the address map as predicates, bit ranges of a
word, the invariant every cycle keeps, which register an instruction may write, what a completed or trapped instruction
leaves unchanged, and runs.
-/

namespace Sys2Proof.Machine

/-! ### The address map as predicates (20_memory.md R31) -/

abbrev inRom (m : AddressMap) (a : Nat) : Prop := m.romBase ≤ a ∧ a ≤ m.romLast
abbrev inRam (m : AddressMap) (a : Nat) : Prop := m.ramBase ≤ a ∧ a ≤ m.ramLast
abbrev inUart (m : AddressMap) (a : Nat) : Prop := m.uartBase ≤ a ∧ a ≤ m.uartLast

/-- Addresses that have a byte of storage: ROM or RAM. -/
abbrev stored (m : AddressMap) (a : Nat) : Prop := inRom m a ∨ inRam m a

/-- Addresses a store may go to: RAM or the UART window. -/
abbrev storable (m : AddressMap) (a : Nat) : Prop := inRam m a ∨ inUart m a

/-- No region contains the address (20_memory.md R54). -/
abbrev unmapped (m : AddressMap) (a : Nat) : Prop := ¬ inRom m a ∧ ¬ inRam m a ∧ ¬ inUart m a

/-! ### Bit ranges of a word (00_scope.md R5) -/

/-- `w[hi:lo]` as a number. -/
def bitRange (w : Word) (hi lo : Nat) : Nat := w.toNat / 2 ^ lo % 2 ^ (hi - lo + 1)

/-- The words with the bits of a row of the opcode table all decode to one form, whatever the decode parameters. -/
def RowMeans (pattern mask : Word) (i : Word → Instr) : Prop :=
  ∀ (p : DecodeParams) (w : Word), w &&& mask = pattern → decodeWordWith p w = .ok (i w)

/-- The same for a row whose words also depend on a decode parameter: at the parameters' defaults. -/
def RowMeansByDefault (pattern mask : Word) (i : Word → Instr) : Prop :=
  ∀ w : Word, w &&& mask = pattern → decodeWord w = .ok (i w)

/-! ### The invariant of the machine -/

/-- Every cell lies in ROM or RAM: nothing else has storage (20_memory.md R54). -/
def cellsStored (m : AddressMap) (l : List Host.Cell) : Bool := l.all fun c => decide (stored m c.1)

/-- What every state a run passes through has. -/
structure State.Inv (s : State) : Prop where
  /-- The configuration is one the spec allows: the regions do not overlap, the UART window is two bytes at an even base
  (20_memory.md R31), RESET_PC is a multiple of 4 (70_reset_and_hazards.md R241), the masks are allowed. -/
  params : s.params.wf = true
  /-- The CSR table is one the spec allows (60_exceptions.md R205, R206). -/
  csr    : Config.csrTableWf s.csr = true
  /-- x[0] reads 0 at the start of every cycle (10_state.md R11). -/
  zero   : s.readReg 0 = 0#32
  /-- The memory is in canonical form. -/
  canon  : Memory.wf s.mem = true
  /-- Only ROM and RAM hold bytes. -/
  cells  : cellsStored s.params.map s.mem = true
  /-- The machine is halted exactly when the fatal kind was its last report (60_exceptions.md R195). -/
  fatal  : s.halted = true ↔ s.report = some .invalidInstructionEncoding

/-! ### Frames -/

/-- `t` is `s` with its cycle closed: x[0] forced, the next pc and the report set, everything else as in `s`
(40_cycle.md R97, R98). -/
structure Closes (s t : State) (nextPc : Word) (report : Option ErrorKind) : Prop where
  zero   : t.readReg 0 = 0#32
  regs   : ∀ r : Reg, r ≠ 0 → t.readReg r = s.readReg r
  pc     : t.pc = nextPc
  report : t.report = report
  mem    : ∀ a : Nat, Memory.read t.mem a = Memory.read s.mem a
  uart   : t.uart = s.uart
  csr    : t.csr = s.csr
  halted : t.halted = s.halted
  host   : t.host = s.host
  params : t.params = s.params

/-- `t` is `s` after an instruction that completed with `x[rd] <- v`: nothing written when rd is x0, every other
register as in `s`, the next pc set, no trap, everything else as in `s`. -/
structure RegResult (s t : State) (rd : Reg) (v nextPc : Word) : Prop where
  zero   : t.readReg 0 = 0#32
  result : rd ≠ 0 → t.readReg rd = v
  regs   : ∀ r : Reg, r ≠ 0 → r ≠ rd → t.readReg r = s.readReg r
  pc     : t.pc = nextPc
  report : t.report = none
  mem    : ∀ a : Nat, Memory.read t.mem a = Memory.read s.mem a
  uart   : t.uart = s.uart
  csr    : t.csr = s.csr
  halted : t.halted = s.halted
  host   : t.host = s.host
  params : t.params = s.params

/-- `t` is `s` after a store at `a` whose bytes `bs` were accepted, and then a trap if `report` says so: each of them that
lies in RAM stands there, one that went to UART DATA is queued, every other byte reads as before, no register but x[0]
(forced to 0) changes, pc + 4, everything else as in `s`. -/
structure StoreResult (s t : State) (a : Nat) (bs : List Byte) (report : Option ErrorKind) : Prop where
  bytes   : ∀ k : Nat, k < bs.length → inRam s.params.map (a + k) → bs[k]? = some (Memory.read t.mem (a + k))
  outside : ∀ x : Nat, x < a ∨ a + bs.length ≤ x ∨ ¬ inRam s.params.map x → Memory.read t.mem x = Memory.read s.mem x
  data    : ∀ k b, bs[k]? = some b → a + k = s.params.map.uartBase + 1 →
    t.uart = { s.uart with dataOut := b, txdone := false }
  uart    : (∀ k, k < bs.length → a + k ≠ s.params.map.uartBase + 1) → t.uart = s.uart
  zero    : t.readReg 0 = 0#32
  regs    : ∀ r : Reg, r ≠ 0 → t.readReg r = s.readReg r
  pc      : t.pc = s.pc + 4#32
  report  : t.report = report
  csr     : t.csr = s.csr
  halted  : t.halted = s.halted
  host    : t.host = s.host
  params  : t.params = s.params

/-- The register an instruction names as its destination (10_state.md R12, the table of accesses). -/
def destination : Instr → Option Reg
  | .lb rd _ _ | .lh rd _ _ | .lw rd _ _ | .lbu rd _ _ | .lhu rd _ _ => some rd
  | .addi rd _ _ | .slti rd _ _ | .sltiu rd _ _ | .xori rd _ _ | .ori rd _ _ | .andi rd _ _ => some rd
  | .slli rd _ _ | .srli rd _ _ | .srai rd _ _ => some rd
  | .auipc rd _ | .lui rd _ => some rd
  | .add rd _ _ | .sub rd _ _ | .sll rd _ _ | .slt rd _ _ | .sltu rd _ _ | .xor rd _ _
  | .srl rd _ _ | .sra rd _ _ | .or rd _ _ | .and rd _ _ => some rd
  | .jalr rd _ _ | .jal rd _ => some rd
  | .sb _ _ _ | .sh _ _ _ | .sw _ _ _ => none
  | .beq _ _ _ | .bne _ _ _ | .blt _ _ _ | .bge _ _ _ | .bltu _ _ _ | .bgeu _ _ _ => none
  | .system => none

/-- Store instructions: their base, offset and width in bytes (44_store.md R140). -/
def storeForm : Instr → Option (Reg × BitVec 12 × Nat)
  | .sb rs1 _ imm => some (rs1, imm, 1)
  | .sh rs1 _ imm => some (rs1, imm, 2)
  | .sw rs1 _ imm => some (rs1, imm, 4)
  | .lb _ _ _ | .lh _ _ _ | .lw _ _ _ | .lbu _ _ _ | .lhu _ _ _
  | .addi _ _ _ | .slti _ _ _ | .sltiu _ _ _ | .xori _ _ _ | .ori _ _ _ | .andi _ _ _
  | .slli _ _ _ | .srli _ _ _ | .srai _ _ _ | .auipc _ _ | .lui _ _
  | .add _ _ _ | .sub _ _ _ | .sll _ _ _ | .slt _ _ _ | .sltu _ _ _ | .xor _ _ _
  | .srl _ _ _ | .sra _ _ _ | .or _ _ _ | .and _ _ _
  | .beq _ _ _ | .bne _ _ _ | .blt _ _ _ | .bge _ _ _ | .bltu _ _ _ | .bgeu _ _ _
  | .jalr _ _ _ | .jal _ _ | .system => none

/-- The instructions that may set pc otherwise than to pc + 4 (46_branch.md R173). -/
def transfersControl : Instr → Bool
  | .beq _ _ _ | .bne _ _ _ | .blt _ _ _ | .bge _ _ _ | .bltu _ _ _ | .bgeu _ _ _ => true
  | .jalr _ _ _ | .jal _ _ => true
  | .lb _ _ _ | .lh _ _ _ | .lw _ _ _ | .lbu _ _ _ | .lhu _ _ _
  | .addi _ _ _ | .slti _ _ _ | .sltiu _ _ _ | .xori _ _ _ | .ori _ _ _ | .andi _ _ _
  | .slli _ _ _ | .srli _ _ _ | .srai _ _ _ | .auipc _ _ | .lui _ _
  | .sb _ _ _ | .sh _ _ _ | .sw _ _ _
  | .add _ _ _ | .sub _ _ _ | .sll _ _ _ | .slt _ _ _ | .sltu _ _ _ | .xor _ _ _
  | .srl _ _ _ | .sra _ _ _ | .or _ _ _ | .and _ _ _ | .system => false

/-! ### The forms the instruction rules take -/

/-- An instruction whose effect is `x[rd] <- f (x[rs1]) imm` and pc + 4, in every state (42_op_imm.md R120). -/
def ImmResult (mk : Reg → Reg → BitVec 12 → Instr) (f : Word → BitVec 12 → Word) : Prop :=
  ∀ (rd rs1 : Reg) (imm : BitVec 12) (s : State),
    ∃ t, exec (mk rd rs1 imm) s = .next t ∧ RegResult s t rd (f (s.readReg rs1) imm) (s.pc + 4#32)

/-- An instruction whose effect is `x[rd] <- f (x[rs1]) (x[rs2])` and pc + 4, in every state (45_op.md R150). -/
def RegRegResult (mk : Reg → Reg → Reg → Instr) (f : Word → Word → Word) : Prop :=
  ∀ (rd rs1 rs2 : Reg) (s : State),
    ∃ t, exec (mk rd rs1 rs2) s = .next t ∧
      RegResult s t rd (f (s.readReg rs1) (s.readReg rs2)) (s.pc + 4#32)

/-- Bit `i` of `v <<< n`, `v >>u n` and `v >>s n` (00_scope.md R5). -/
def leftShiftBit (v : Word) (n i : Nat) : Bool := if i < n then false else v.getLsbD (i - n)
def rightShiftBit (v : Word) (n i : Nat) : Bool := if i + n < 32 then v.getLsbD (i + n) else false
def arithShiftBit (v : Word) (n i : Nat) : Bool := if i + n < 32 then v.getLsbD (i + n) else v.getLsbD 31

/-- An instruction whose result is `x[rs1]` shifted by an amount, given bit by bit, and pc + 4, in every state. -/
def ShiftResult (i : Reg → Reg → Instr) (amount : State → Nat) (bit : Word → Nat → Nat → Bool) : Prop :=
  ∀ (rd rs1 : Reg) (s : State),
    ∃ t v, exec (i rd rs1) s = .next t ∧ RegResult s t rd v (s.pc + 4#32) ∧
      ∀ k, k < 32 → v.getLsbD k = bit (s.readReg rs1) (amount s) k

/-- A branch on a condition of x[rs1] and x[rs2], in every state (46_branch.md R165). -/
def BranchMeaning (mk : Reg → Reg → BitVec 13 → Instr) (cond : Word → Word → Prop) : Prop :=
  ∀ (rs1 rs2 : Reg) (o : BitVec 13) (s : State),
    ∃ t, exec (mk rs1 rs2 o) s = .next t ∧
      (cond (s.readReg rs1) (s.readReg rs2) → Closes s t (s.pc + o.signExtend 32) none) ∧
      (¬ cond (s.readReg rs1) (s.readReg rs2) → Closes s t (s.pc + 4#32) none)

/-! ### What loads and stores do at an address -/

/-- The number of a list of bytes, the first in bits 7:0 (20_memory.md R38). -/
def leNat : List Byte → Nat
  | [] => 0
  | b :: bs => b.toNat + 2 ^ 8 * leNat bs

/-- What one byte load sees at an address: the byte of ROM or RAM, STATUS, DATA, or nothing where no region is
(20_memory.md R33 to R37). -/
def seenByte (s : State) (a : Nat) : Option Byte :=
  if stored s.params.map a then some (Memory.read s.mem a)
  else if a = s.params.map.uartBase then some (statusByte s.params s.uart)
  else if a = s.params.map.uartBase + 1 then some s.uart.dataIn
  else none

/-- The address of byte `k` of an access at `a`: addresses are modulo 2^32 (20_memory.md R40, R43). -/
def byteAddr (a : Word) (k : Nat) : Nat := (a.toNat + k) % 2 ^ 32

/-- What the byte loads of `n` bytes from `a` on leave behind: NEWDAT cleared if DATA is among them, that is, if its distance
upwards from `a`, modulo 2^32, is less than `n`; else nothing (20_memory.md R45). -/
def afterLoads (s : State) (a : Word) (n : Nat) : State :=
  if (s.params.map.uartBase + 1 + (2 ^ 32 - a.toNat)) % 2 ^ 32 < n then
    { s with uart := { s.uart with newdat := false } }
  else s

/-- The low `n` bytes of a word, least significant first (20_memory.md R41). -/
def bytesOf (n : Nat) (v : Word) : List Byte := (List.range n).map fun k => v.extractLsb' (8 * k) 8

/-- A byte load at every address (41_load.md R110, R111, R114): ROM or RAM, STATUS, DATA, unmapped. -/
def ByteLoadMeaning (mk : Reg → Reg → BitVec 12 → Instr) (ext : Byte → Word) : Prop :=
  ∀ (rd rs1 : Reg) (imm : BitVec 12) (s : State) (a : Word), a = effectiveAddr s rs1 imm → s.params.map.wf = true →
    (stored s.params.map a.toNat → ∃ t, exec (mk rd rs1 imm) s = .next t ∧
      RegResult s t rd (ext (Memory.read s.mem a.toNat)) (s.pc + 4#32)) ∧
    (a.toNat = s.params.map.uartBase → ∃ t, exec (mk rd rs1 imm) s = .next t ∧
      RegResult s t rd (ext (statusByte s.params s.uart)) (s.pc + 4#32)) ∧
    (a.toNat = s.params.map.uartBase + 1 → ∃ t, exec (mk rd rs1 imm) s = .next t ∧
      RegResult { s with uart := { s.uart with newdat := false } } t rd (ext s.uart.dataIn) (s.pc + 4#32)) ∧
    (unmapped s.params.map a.toNat → ∃ t, exec (mk rd rs1 imm) s = .next t ∧
      Closes s t (s.pc + 4#32) (some .inaccessibleMemory))

/-- A load of `n` bytes at every address of every map (41_load.md R110, R112, R113, R115; 20_memory.md R39, R40):
MisalignedAccess off a multiple of `n` with no access made; the value of the bytes seen, lowest address in bits 7:0, where
every byte is seen; and InaccessibleMemory at the first byte not seen, rd unchanged, with what the bytes before it did. -/
def LoadMeaning (n : Nat) (mk : Reg → Reg → BitVec 12 → Instr) (ext : Nat → Word) : Prop :=
  ∀ (rd rs1 : Reg) (imm : BitVec 12) (s : State) (a : Word), a = effectiveAddr s rs1 imm → s.params.map.wf = true →
    (a.toNat % n ≠ 0 → ∃ t, exec (mk rd rs1 imm) s = .next t ∧
      Closes s t (s.pc + 4#32) (some .misalignedAccess)) ∧
    (∀ bs : List Byte, a.toNat % n = 0 → bs.length = n → (∀ k, k < n → seenByte s (a.toNat + k) = bs[k]?) →
      ∃ t, exec (mk rd rs1 imm) s = .next t ∧
        RegResult (afterLoads s a n) t rd (ext (leNat bs)) (s.pc + 4#32)) ∧
    (∀ k, a.toNat % n = 0 → k < n → (∀ j, j < k → seenByte s (a.toNat + j) ≠ none) → seenByte s (a.toNat + k) = none →
      ∃ t, exec (mk rd rs1 imm) s = .next t ∧
        Closes (afterLoads s a k) t (s.pc + 4#32) (some .inaccessibleMemory))

/-- A store of `n` bytes at every address of every map (44_store.md R140 to R143; 20_memory.md R39, R41): MisalignedAccess
off a multiple of `n` with nothing stored; every byte stored where each may be; and InaccessibleMemory at the first byte
that may not, the bytes before it stored. -/
def StoreMeaning (n : Nat) (mk : Reg → Reg → BitVec 12 → Instr) : Prop :=
  ∀ (rs1 rs2 : Reg) (imm : BitVec 12) (s : State) (a : Word), a = effectiveAddr s rs1 imm → s.params.map.wf = true →
    Memory.wf s.mem = true →
    (a.toNat % n ≠ 0 → ∃ t, exec (mk rs1 rs2 imm) s = .next t ∧
      Closes s t (s.pc + 4#32) (some .misalignedAccess)) ∧
    (a.toNat % n = 0 → (∀ k, k < n → storable s.params.map (a.toNat + k)) → ∃ t, exec (mk rs1 rs2 imm) s = .next t ∧
      StoreResult s t a.toNat (bytesOf n (s.readReg rs2)) none) ∧
    (∀ k, a.toNat % n = 0 → k < n → (∀ j, j < k → storable s.params.map (a.toNat + j)) →
      ¬ storable s.params.map (a.toNat + k) → ∃ t, exec (mk rs1 rs2 imm) s = .next t ∧
        StoreResult s t a.toNat (bytesOf k (s.readReg rs2)) (some .inaccessibleMemory))

/-! ### Words that are no instruction (30_encoding.md R60, R71, R72), by bit ranges -/

/-- The fatal words: w[1:0] is not 0b11, or w[4:2] is 0b111. -/
def FatalWord (w : Word) : Prop := bitRange w 1 0 ≠ 3 ∨ bitRange w 4 2 = 7

/-- The accepted words of the 18 groups the dispatch table does not list. -/
def UnlistedGroupWord (w : Word) : Prop :=
  ¬ FatalWord w ∧ bitRange w 6 2 ∈ [0x01, 0x02, 0x03, 0x06, 0x09, 0x0A, 0x0B, 0x0E, 0x10, 0x11, 0x12, 0x13, 0x14, 0x15,
    0x16, 0x1A, 0x1D, 0x1E]

/-- The accepted words of a listed group whose funct3 and funct7 are not listed. -/
def UnlistedFunctionWord (w : Word) : Prop :=
  ¬ FatalWord w ∧
    ((bitRange w 6 2 = 0x00 ∧ bitRange w 14 12 ∈ [3, 6, 7]) ∨
     (bitRange w 6 2 = 0x04 ∧ bitRange w 14 12 = 1 ∧ bitRange w 31 25 ≠ 0x00) ∨
     (bitRange w 6 2 = 0x04 ∧ bitRange w 14 12 = 5 ∧ bitRange w 31 25 ∉ [0x00, 0x20]) ∨
     (bitRange w 6 2 = 0x08 ∧ bitRange w 14 12 ∈ [3, 4, 5, 6, 7]) ∨
     (bitRange w 6 2 = 0x0C ∧ bitRange w 14 12 ∈ [0, 5] ∧ bitRange w 31 25 ∉ [0x00, 0x20]) ∨
     (bitRange w 6 2 = 0x18 ∧ bitRange w 14 12 ∈ [2, 3]))

/-- The accepted words that are no instruction under a strict decode parameter only (45_op.md R150, 47_jump.md R175). -/
def StrictlyIllegalWord (p : DecodeParams) (w : Word) : Prop :=
  ¬ FatalWord w ∧
    ((p.opFunct7Strict = true ∧ bitRange w 6 2 = 0x0C ∧ bitRange w 14 12 ∉ [0, 5] ∧ bitRange w 31 25 ≠ 0x00) ∨
     (p.jalrFunct3Strict = true ∧ bitRange w 6 2 = 0x19 ∧ bitRange w 14 12 ≠ 0))

/-- The kinds of trap an instruction can report (60_exceptions.md R193). -/
def mayReport : Instr → List ErrorKind
  | .lb _ _ _ | .lbu _ _ _ | .sb _ _ _ => [.inaccessibleMemory]
  | .lh _ _ _ | .lhu _ _ _ | .lw _ _ _ | .sh _ _ _ | .sw _ _ _ => [.misalignedAccess, .inaccessibleMemory]
  | .addi _ _ _ | .slti _ _ _ | .sltiu _ _ _ | .xori _ _ _ | .ori _ _ _ | .andi _ _ _
  | .slli _ _ _ | .srli _ _ _ | .srai _ _ _ | .auipc _ _ | .lui _ _
  | .add _ _ _ | .sub _ _ _ | .sll _ _ _ | .slt _ _ _ | .sltu _ _ _ | .xor _ _ _
  | .srl _ _ _ | .sra _ _ _ | .or _ _ _ | .and _ _ _
  | .beq _ _ _ | .bne _ _ _ | .blt _ _ _ | .bge _ _ _ | .bltu _ _ _ | .bgeu _ _ _
  | .jalr _ _ _ | .jal _ _ | .system => []

/-- The instructions that load from memory: the LOAD group (41_load.md). -/
def isLoad : Instr → Bool
  | .lb _ _ _ | .lh _ _ _ | .lw _ _ _ | .lbu _ _ _ | .lhu _ _ _ => true
  | .sb _ _ _ | .sh _ _ _ | .sw _ _ _
  | .addi _ _ _ | .slti _ _ _ | .sltiu _ _ _ | .xori _ _ _ | .ori _ _ _ | .andi _ _ _
  | .slli _ _ _ | .srli _ _ _ | .srai _ _ _ | .auipc _ _ | .lui _ _
  | .add _ _ _ | .sub _ _ _ | .sll _ _ _ | .slt _ _ _ | .sltu _ _ _ | .xor _ _ _
  | .srl _ _ _ | .sra _ _ _ | .or _ _ _ | .and _ _ _
  | .beq _ _ _ | .bne _ _ _ | .blt _ _ _ | .bge _ _ _ | .bltu _ _ _ | .bgeu _ _ _
  | .jalr _ _ _ | .jal _ _ | .system => false

/-! ### What the host does (60_exceptions.md R214, 70_reset_and_hazards.md R262) -/

/-- The channel after `n` polls, but for the queue and what was sent to it. -/
def HostChannel.afterPolls (h : HostChannel) : Nat → HostChannel
  | 0 => h
  | n + 1 => (h.afterPolls n).advance

/-- What the host sends before poll `n` from now, the next poll being number 0. -/
def HostChannel.sentAt (h : HostChannel) (n : Nat) : List Byte := (h.afterPolls n).sends

/-! ### Which machines fetch -/

/-- A cycle fetches at pc: it is a multiple of 4, or the policy for one that is not is `bytewise` (40_cycle.md R92, R93). -/
abbrev State.mayFetch (s : State) : Prop := s.pc.toNat % 4 = 0 ∨ s.params.misalignedPc = .bytewise

/-- All four bytes of a fetch lie in ROM or RAM. -/
abbrev State.pcStored (s : State) : Prop := ∀ k, k < 4 → stored s.params.map (byteAddr s.pc k)

/-- The four bytes of memory from pc on, the first at pc. -/
def State.bytesAtPc (s : State) : List Byte := (List.range 4).map fun k => Memory.read s.mem (byteAddr s.pc k)

/-! ### Runs -/

/-- `t` is reached from `s` by cycles that all answer a next state. -/
inductive Reaches : State → State → Prop where
  | refl (s : State) : Reaches s s
  | tail (s t u : State) : Reaches s t → step t = .next u → Reaches s u

/-- A run of `n` cycles from `s` that stops at no fault and reports no trap: a safe run in the claims' sense. A trap is no
stop of the hardware, but a program cannot see it (70_reset_and_hazards.md R255). -/
def runsClean : Nat → State → Bool
  | 0, _ => true
  | n + 1, s =>
    match step s with
    | .next t => t.report == none && runsClean n t
    | .fault _ => false
    | .refused _ => false

end Sys2Proof.Machine
end

