-- ==== Sys2Proof/Certificates/Slice0/Obligations.lean ====
section
/-!
DEFINITION. The statements for the provers. Each docstring names the rules of spec/ the statement formalises, and, where
it rests on a choice, the decision or the assumption log entry.
-/

open Sys2Proof
open Sys2Proof.Machine

/-! ## Encoding -/

/-- Decoding the word of a well-formed instruction gives the instruction back, with every operand at every value the
encoding admits, at every setting of the decode parameters; and decoding its bytes at the head of a list gives the
instruction and the rest (30_encoding.md R62 to R70). The encoder writes 0 in ignored fields (assumption log 24). -/
def Obligations.DecodeOfEncodeIsTheInstruction : Prop :=
  ∀ (p : DecodeParams) (i : Instr) (rest : List Byte), i.wellFormed = true →
    decodeWordWith p (encode i) = .ok i ∧ decodeBytesWith p (leBytes 4 (encode i) ++ rest) = .ok (i, rest)

/-- The decode procedure of 30_encoding.md R70 and the masks of spec/opcode_table.json are the same decoder: a word
decodes to an instruction exactly when a row matches it, and then to that row's instruction. -/
def Obligations.DecoderAgreesWithTheOpcodeTable : Prop :=
  (∀ (w : Word) (i : Instr), decodeWord w = .ok i →
    ∃ r ∈ opcodeRows, r.mnemonic = i.mnemonic ∧ w &&& r.mask = r.pattern) ∧
  (∀ (w : Word), ∀ r ∈ opcodeRows, w &&& r.mask = r.pattern → ∃ i, decodeWord w = .ok i ∧ i.mnemonic = r.mnemonic)

/-- The six fields are the bit ranges the rule lists, and an accepted word ends in 0b11 (30_encoding.md R61). -/
def Obligations.FieldsAreTheListedBitRanges : Prop :=
  ∀ w : Word,
    (opcodeGroup w).toNat = bitRange w 6 2 ∧ (rdField w).val = bitRange w 11 7 ∧
    (funct3 w).toNat = bitRange w 14 12 ∧ (rs1Field w).val = bitRange w 19 15 ∧
    (rs2Field w).val = bitRange w 24 20 ∧ (funct7 w).toNat = bitRange w 31 25 ∧
    (accepted w = true → bitRange w 1 0 = 3)

/-- The five immediates and the shift amount are assembled from the bit ranges the rules give, and their ranges are the
rules' ranges (30_encoding.md R63 to R68). -/
def Obligations.ImmediatesAreAssembledAsListed : Prop :=
  ∀ w : Word,
    sext12 (immI w) = (BitVec.ofNat 12 (bitRange w 31 20)).signExtend 32 ∧
    (-2048 ≤ (sext12 (immI w)).toInt ∧ (sext12 (immI w)).toInt ≤ 2047) ∧
    sext12 (immS w) = (BitVec.ofNat 12 (bitRange w 31 25 <<< 5 ||| bitRange w 11 7)).signExtend 32 ∧
    (-2048 ≤ (sext12 (immS w)).toInt ∧ (sext12 (immS w)).toInt ≤ 2047) ∧
    sext13 (immB w) = (BitVec.ofNat 13 (bitRange w 31 31 <<< 12 ||| bitRange w 7 7 <<< 11 ||| bitRange w 30 25 <<< 5
      ||| bitRange w 11 8 <<< 1)).signExtend 32 ∧
    ((sext13 (immB w)).toInt % 2 = 0 ∧ -4096 ≤ (sext13 (immB w)).toInt ∧ (sext13 (immB w)).toInt ≤ 4094) ∧
    ((fieldU w).toNat = bitRange w 31 12 ∧ upperImm (fieldU w) = w &&& 0xFFFFF000#32) ∧
    sext21 (immJ w) = (BitVec.ofNat 21 (bitRange w 31 31 <<< 20 ||| bitRange w 19 12 <<< 12 ||| bitRange w 20 20 <<< 11
      ||| bitRange w 30 21 <<< 1)).signExtend 32 ∧
    ((sext21 (immJ w)).toInt % 2 = 0 ∧ -1048576 ≤ (sext21 (immJ w)).toInt ∧ (sext21 (immJ w)).toInt ≤ 1048574) ∧
    (shamtField w).toNat = bitRange w 24 20

/-- Every 32-bit word is fatal, of an unlisted group, of an unlisted function, or an instruction, by its bits alone, at
every setting of the decode parameters, and no accepted word is fatal (30_encoding.md R60, R71 to R73, R77). That OP words
with funct7 not 0, under OP_FUNCT7_STRICT, and JALR words with funct3 not 0, under JALR_FUNCT3_STRICT, are unlisted functions
is 45_op.md R150 and 47_jump.md R175 (decisions D2 and D3, assumption log 14). That unlisted groups are IllegalInstruction is
the spec's decision D1 (assumption log 13). -/
def Obligations.EveryWordHasItsOutcome : Prop :=
  ∀ (p : DecodeParams) (w : Word),
    (accepted w = true ↔ w &&& 0x00000003#32 = 0x00000003#32 ∧ w &&& 0x0000001C#32 ≠ 0x0000001C#32) ∧
    (decodeWordWith p w = .error .invalidEncoding ↔ FatalWord w) ∧
    (decodeWordWith p w = .error .unlistedGroup ↔ UnlistedGroupWord w) ∧
    (decodeWordWith p w = .error .unlistedFunction ↔ UnlistedFunctionWord w ∨ StrictlyIllegalWord p w) ∧
    ((∃ i, decodeWordWith p w = .ok i) ↔
      ¬ FatalWord w ∧ ¬ UnlistedGroupWord w ∧ ¬ UnlistedFunctionWord w ∧ ¬ StrictlyIllegalWord p w)

/-- What the decoder gives is well-formed (30_encoding.md R65, R67: bit 0 of an offset is always 0). -/
def Obligations.DecodedInstructionsAreWellFormed : Prop :=
  ∀ (p : DecodeParams) (w : Word) (i : Instr), decodeWordWith p w = .ok i → i.wellFormed = true

/-- The two decode parameters (45_op.md R150, 47_jump.md R175; decisions D2, D3, assumption log 14). Each acts on its own
words only: settings that agree on one parameter agree on every word outside the other parameter's group; every setting
agrees with the default outside the OP and JALR groups, on OP words whose funct7 is 0 or whose funct3 is 0 or 5 (whatever
their funct7: SUB, SRA and the illegal ones), and on JALR words whose funct3 is 0 (whatever their immediate). The strict
settings make the other words illegal. And at the default the ignored fields change nothing. -/
def Obligations.DecodeParametersAsTheRulesSay : Prop :=
  (∀ (p q : DecodeParams) (w : Word), opcodeGroup w ≠ groupJalr → p.opFunct7Strict = q.opFunct7Strict →
    decodeWordWith p w = decodeWordWith q w) ∧
  (∀ (p q : DecodeParams) (w : Word), opcodeGroup w ≠ groupOp → p.jalrFunct3Strict = q.jalrFunct3Strict →
    decodeWordWith p w = decodeWordWith q w) ∧
  (∀ (p : DecodeParams) (w : Word), opcodeGroup w ≠ groupOp → opcodeGroup w ≠ groupJalr →
    decodeWordWith p w = decodeWord w) ∧
  (∀ (p : DecodeParams) (w : Word), opcodeGroup w = groupOp → funct7 w = 0x00#7 →
    decodeWordWith p w = decodeWord w) ∧
  (∀ (p : DecodeParams) (w : Word), opcodeGroup w = groupOp → funct3 w = 0#3 ∨ funct3 w = 5#3 →
    decodeWordWith p w = decodeWord w) ∧
  (∀ (p : DecodeParams) (w : Word), opcodeGroup w = groupOp → p.opFunct7Strict = false →
    decodeWordWith p w = decodeWord w) ∧
  (∀ (p : DecodeParams) (w : Word), opcodeGroup w = groupJalr → funct3 w = 0#3 →
    decodeWordWith p w = decodeWord w) ∧
  (∀ (p : DecodeParams) (w : Word), opcodeGroup w = groupJalr → p.jalrFunct3Strict = false →
    decodeWordWith p w = decodeWord w) ∧
  (∀ (p : DecodeParams) (w : Word), accepted w = true → opcodeGroup w = groupOp → p.opFunct7Strict = true →
    funct3 w ≠ 0#3 → funct3 w ≠ 5#3 → funct7 w ≠ 0x00#7 → decodeWordWith p w = .error .unlistedFunction) ∧
  (∀ (p : DecodeParams) (w : Word), accepted w = true → opcodeGroup w = groupJalr → p.jalrFunct3Strict = true →
    funct3 w ≠ 0#3 → decodeWordWith p w = .error .unlistedFunction) ∧
  (∀ w : Word, opcodeGroup w = groupOp → funct3 w ≠ 0#3 → funct3 w ≠ 5#3 →
    decodeWord w = decodeWord (w &&& 0x01FFFFFF#32)) ∧
  (∀ w : Word, opcodeGroup w = groupJalr → decodeWord w = decodeWord (w &&& 0xFFFF8FFF#32))

/-- A few of the spec's own words decode to the instructions it writes beside them (95_test_vectors.md Part 1 and Part 2;
the numerals are 30_encoding.md R69's, assumption log 11). -/
def Obligations.SpecWordsDecodeAsWritten : Prop :=
  decodeWord 0xFFD08113#32 = .ok (.addi 2 1 0xFFD#12) ∧
  decodeWord 0x00000463#32 = .ok (.beq 0 0 8#13) ∧
  decodeWord 0x00112023#32 = .ok (.sw 2 1 0#12) ∧
  decodeWord 0x00012183#32 = .ok (.lw 3 2 0#12) ∧
  decodeWord 0x4040D113#32 = .ok (.srai 2 1 4#5) ∧
  decodeWord 0x402081B3#32 = .ok (.sub 3 1 2) ∧
  decodeWord 0x123452B7#32 = .ok (.lui 5 0x12345#20) ∧
  decodeWord 0x7FFFF0EF#32 = .ok (.jal 1 0xFFFFE#21) ∧
  decodeWord 0xFFC280E7#32 = .ok (.jalr 1 5 0xFFC#12) ∧
  decodeWord 0x30200073#32 = .ok .system

/-! ## The cycle -/

/-- A running machine whose pc is a multiple of 4, or any pc where the policy is `bytewise` (R93, decision D4, assumption log
8), polls the UART and then executes the instruction its fetch decodes to: in particular the one the four bytes at pc, at
addresses modulo 2^32 (decision D20, assumption log 19), decode to, where they lie in ROM or RAM. `exec` closes the cycle
(40_cycle.md R90, R91, R92, R95). -/
def Obligations.StepRunsTheDecodedInstruction : Prop :=
  ∀ (s : State) (i : Instr), s.params.map.wf = true → s.halted = false → s.mayFetch →
    (s.pcStored → decodeBytesWith s.params.decode s.bytesAtPc = .ok (i, []) → step s = exec i (poll s)) ∧
    (∀ (w : Word) (s1 : State), fetch (poll s) = (some w, s1) → decodeWordWith s.params.decode w = .ok i →
      step s = exec i s1)

/-- Placing a word makes the very next step run its instruction (assumption log 23), in every state with canonical memory
and allowed parameters whose pc, or else whose RESET_PC, has a word of ROM or RAM at it; placing changes no register, UART,
CSR, host, report or parameter, and no byte outside the word's four. The table's decoder is the one of the default decode
parameters. -/
def Obligations.PlacedWordRunsNext : Prop :=
  ∀ (s : State) (w : Nat), s.params.wf = true → Memory.wf s.mem = true →
    ((∀ k, k < 4 → stored s.params.map (s.params.resetPc.toNat + k)) ∨
      (s.pc.toNat % 4 = 0 ∧ ∀ k, k < 4 → stored s.params.map (s.pc.toNat + k))) →
    (∀ i, decodeWordWith s.params.decode (BitVec.ofNat 32 w) = .ok i →
      step (s.withFetchWord 32 w) = exec i (poll (s.withFetchWord 32 w))) ∧
    (∀ i, s.params.decode = Config.decodeParams → decodeTableWord 32 w = some i →
      step (s.withFetchWord 32 w) = exec i (poll (s.withFetchWord 32 w))) ∧
    (s.withFetchWord 32 w).regs = s.regs ∧ (s.withFetchWord 32 w).uart = s.uart ∧
    (s.withFetchWord 32 w).csr = s.csr ∧ (s.withFetchWord 32 w).host = s.host ∧
    (s.withFetchWord 32 w).report = s.report ∧ (s.withFetchWord 32 w).params = s.params ∧
    (s.pc.toNat % 4 = 0 → (∀ k, k < 4 → stored s.params.map (s.pc.toNat + k)) → (s.withFetchWord 32 w).pc = s.pc) ∧
    (∀ x : Nat, x < (s.withFetchWord 32 w).pc.toNat ∨ (s.withFetchWord 32 w).pc.toNat + 4 ≤ x →
      Memory.read (s.withFetchWord 32 w).mem x = Memory.read s.mem x)

/-- A fetch that fails reports InaccessibleMemory, keeps pc, and changes no register and no memory: at an unmapped pc
nothing more, and at the first of its four bytes that no region holds, with what the bytes before did: from UART_BASE, or at
an unaligned pc from the address of DATA itself, it has consumed the received byte (40_cycle.md R92, R93, 20_memory.md R45,
R55). At any pc a fetch is made at (decision D4, assumption log 8), byte addresses modulo 2^32 (decision D20, assumption log
19), in ascending order (decision D15, assumption log 18). -/
def Obligations.FailedFetchKeepsPc : Prop :=
  ∀ s : State, s.params.map.wf = true → s.halted = false → s.mayFetch →
    (unmapped s.params.map s.pc.toNat → ∃ t, step s = .next t ∧ Closes (poll s) t s.pc (some .inaccessibleMemory)) ∧
    (s.pc.toNat = s.params.map.uartBase → unmapped s.params.map (byteAddr s.pc 2) → ∃ t, step s = .next t ∧
      Closes { poll s with uart := { (poll s).uart with newdat := false } } t s.pc (some .inaccessibleMemory)) ∧
    (s.pc.toNat = s.params.map.uartBase + 1 → unmapped s.params.map (byteAddr s.pc 1) → ∃ t, step s = .next t ∧
      Closes { poll s with uart := { (poll s).uart with newdat := false } } t s.pc (some .inaccessibleMemory)) ∧
    (∀ k, k < 4 → (∀ j, j < k → ¬ unmapped s.params.map (byteAddr s.pc j)) → unmapped s.params.map (byteAddr s.pc k) →
      ∃ t, step s = .next t ∧ Closes (afterLoads (poll s) s.pc k) t s.pc (some .inaccessibleMemory))

/-- A failed fetch repeats for ever: every state reached from it is still at the same pc, has the same registers and
memory, and fails again (60_exceptions.md R196). At any pc a fetch is made at (40_cycle.md R93, decision D4, assumption log
8), byte addresses modulo 2^32 (decision D20, assumption log 19). -/
def Obligations.FailedFetchRepeatsForEver : Prop :=
  ∀ (s t : State) (k : Nat), s.params.map.wf = true → s.halted = false → s.mayFetch → k < 4 →
    unmapped s.params.map (byteAddr s.pc k) → Reaches s t →
    t.pc = s.pc ∧ t.halted = false ∧ (∀ r : Reg, r ≠ 0 → t.readReg r = s.readReg r) ∧ t.mem = s.mem ∧
    ∃ u, step t = .next u ∧ u.pc = s.pc ∧ u.report = some .inaccessibleMemory

/-- A fetched word that fails length validation halts the machine with everything as the fetch left it, and from then on
no step happens (40_cycle.md R94, 60_exceptions.md R195, 10_state.md R21). That a halted machine's cycle is a fault is the
spec's decision D9 (assumption log 7). The word may be fetched at any pc a fetch is made at (R93, decision D4, assumption log
8). -/
def Obligations.FatalWordHaltsForGood : Prop :=
  (∀ (s s1 : State) (w : Word), s.halted = false → s.mayFetch → fetch (poll s) = (some w, s1) → FatalWord w →
    ∃ t, step s = .next t ∧ t = { s1 with halted := true, report := some .invalidInstructionEncoding } ∧
      step t = .fault .halted) ∧
  (∀ s : State, s.halted = true → step s = .fault .halted) ∧
  (∀ s t : State, step s = .next t → s.halted = false)

/-- A fetched word that is accepted but is no instruction is skipped: IllegalInstruction is reported, pc + 4, nothing else
changes, whatever any address in it would be (30_encoding.md R71, R72; 41_load.md R116, 42_op_imm.md R130, 44_store.md R144,
45_op.md R161, 46_branch.md R172, 48_system.md R183, R184); and so are the words that a strict decode parameter makes
illegal where it is set: OP words under OP_FUNCT7_STRICT (45_op.md R150, decision D2) and JALR words under JALR_FUNCT3_STRICT
(47_jump.md R175, decision D3; assumption log 14). Unlisted groups: decision D1 (assumption log 13). The word may be fetched
at any pc a fetch is made at (40_cycle.md R93, decision D4, assumption log 8). -/
def Obligations.IllegalWordsAreSkipped : Prop :=
  ∀ (s s1 : State) (w : Word), s.halted = false → s.mayFetch → fetch (poll s) = (some w, s1) →
    (UnlistedGroupWord w ∨ UnlistedFunctionWord w ∨ StrictlyIllegalWord s.params.decode w) →
    ∃ t, step s = .next t ∧ Closes s1 t (s.pc + 4#32) (some .illegalInstruction)

/-- A pc that is not a multiple of 4 (40_cycle.md R93, decision D4, assumption log 8): under the policy `fault`, the default,
a cycle stops with the model's own fault; under `bytewise` the fetch is made at the unaligned pc and execution goes on, in
particular with the instruction its four bytes, at addresses modulo 2^32 (decision D20, assumption log 19), decode to where
they lie in ROM or RAM. What such a fetch gives is FetchedWordIsTheFourBytesAtPc; where it fails, and what a fatal or an
illegal word does, is in the four statements above. -/
def Obligations.MisalignedPcFollowsThePolicy : Prop :=
  Config.params.misalignedPc = .fault ∧
  ∀ s : State, s.params.map.wf = true → s.halted = false → s.pc.toNat % 4 ≠ 0 →
    (s.params.misalignedPc = .fault → step s = .fault .misalignedPc) ∧
    (∀ i : Instr, s.params.misalignedPc = .bytewise → s.pcStored →
      decodeBytesWith s.params.decode s.bytesAtPc = .ok (i, []) → step s = exec i (poll s)) ∧
    (∀ (i : Instr) (w : Word) (s1 : State), s.params.misalignedPc = .bytewise → fetch (poll s) = (some w, s1) →
      decodeWordWith s.params.decode w = .ok i → step s = exec i s1) ∧
    (∀ s1 : State, s.params.misalignedPc = .bytewise → fetch (poll s) = (none, s1) →
      ∃ t, step s = .next t ∧ Closes s1 t s.pc (some .inaccessibleMemory))

/-- At any pc, aligned or not, a fetched word is the four bytes seen at pc, pc + 1, pc + 2 and pc + 3 modulo 2^32,
little-endian, a fetch fails exactly where one of them is unmapped, and where they lie in ROM or RAM it changes nothing and
the word is theirs (40_cycle.md R92, 20_memory.md R38, R45). The wrap is decision D20 (assumption log 19); that an unaligned
fetch is made is decision D4's `bytewise` (R93, assumption log 8). -/
def Obligations.FetchedWordIsTheFourBytesAtPc : Prop :=
  (∀ (s s1 : State) (w : Word), s.params.map.wf = true → fetch s = (some w, s1) →
    (∃ b0 b1 b2 b3, seenByte s (byteAddr s.pc 0) = some b0 ∧ seenByte s (byteAddr s.pc 1) = some b1 ∧
      seenByte s (byteAddr s.pc 2) = some b2 ∧ seenByte s (byteAddr s.pc 3) = some b3 ∧
      w.toNat = b0.toNat + 2 ^ 8 * b1.toNat + 2 ^ 16 * b2.toNat + 2 ^ 24 * b3.toNat) ∧
    s1 = afterLoads s s.pc 4) ∧
  ∀ s : State, s.params.map.wf = true →
    (s.pcStored → ∃ w, fetch s = (some w, s) ∧ w.toNat = leNat s.bytesAtPc) ∧
    ((fetch s).1 = none ↔ ∃ k, k < 4 ∧ unmapped s.params.map (byteAddr s.pc k))

/-! ## OP-IMM and OP -/

/-- ADDI, SLTI, SLTIU, XORI, ORI, ANDI: the row's words, the result and pc + 4 in every state, no trap, and everything
else unchanged (42_op_imm.md R121 to R126). -/
def Obligations.OpImmResults : Prop :=
  RowMeans 0x00000013#32 0x0000707F#32 (fun w => .addi (rdField w) (rs1Field w) (immI w)) ∧
  RowMeans 0x00002013#32 0x0000707F#32 (fun w => .slti (rdField w) (rs1Field w) (immI w)) ∧
  RowMeans 0x00003013#32 0x0000707F#32 (fun w => .sltiu (rdField w) (rs1Field w) (immI w)) ∧
  RowMeans 0x00004013#32 0x0000707F#32 (fun w => .xori (rdField w) (rs1Field w) (immI w)) ∧
  RowMeans 0x00006013#32 0x0000707F#32 (fun w => .ori (rdField w) (rs1Field w) (immI w)) ∧
  RowMeans 0x00007013#32 0x0000707F#32 (fun w => .andi (rdField w) (rs1Field w) (immI w)) ∧
  ImmResult .addi (fun x imm => BitVec.ofInt 32 ((x.toNat : Int) + imm.toInt)) ∧
  ImmResult .slti (fun x imm => if x.toInt < imm.toInt then 1#32 else 0#32) ∧
  ImmResult .sltiu (fun x imm => if x.toNat < (imm.signExtend 32).toNat then 1#32 else 0#32) ∧
  ImmResult .xori (fun x imm => x ^^^ imm.signExtend 32) ∧
  ImmResult .ori (fun x imm => x ||| imm.signExtend 32) ∧
  ImmResult .andi (fun x imm => x &&& imm.signExtend 32)

/-- SLLI, SRLI, SRAI: the row's words, the result bit by bit and pc + 4 in every state, no trap, and everything else
unchanged; and with any other funct7 the word raises IllegalInstruction and is skipped (42_op_imm.md R127 to R130). -/
def Obligations.ImmediateShiftResults : Prop :=
  RowMeans 0x00001013#32 0xFE00707F#32 (fun w => .slli (rdField w) (rs1Field w) (shamtField w)) ∧
  RowMeans 0x00005013#32 0xFE00707F#32 (fun w => .srli (rdField w) (rs1Field w) (shamtField w)) ∧
  RowMeans 0x40005013#32 0xFE00707F#32 (fun w => .srai (rdField w) (rs1Field w) (shamtField w)) ∧
  (∀ (w : Word) (s : State), w &&& 0x0000707F#32 = 0x00001013#32 → funct7 w ≠ 0x00#7 →
    ∃ t, runWord w s = .next t ∧ Closes s t (s.pc + 4#32) (some .illegalInstruction)) ∧
  (∀ (w : Word) (s : State), w &&& 0x0000707F#32 = 0x00005013#32 → funct7 w ≠ 0x00#7 → funct7 w ≠ 0x20#7 →
    ∃ t, runWord w s = .next t ∧ Closes s t (s.pc + 4#32) (some .illegalInstruction)) ∧
  ∀ sh : BitVec 5,
    ShiftResult (fun rd rs1 => .slli rd rs1 sh) (fun _ => sh.toNat) leftShiftBit ∧
    ShiftResult (fun rd rs1 => .srli rd rs1 sh) (fun _ => sh.toNat) rightShiftBit ∧
    ShiftResult (fun rd rs1 => .srai rd rs1 sh) (fun _ => sh.toNat) arithShiftBit

/-- ADD and SUB: the row's words, the low 32 bits of the exact sum and difference, in the unsigned and in the signed
reading, pc + 4, no trap, and everything else unchanged (45_op.md R151, R152, and R162's law of addition). -/
def Obligations.AddAndSubAreModulo : Prop :=
  RowMeans 0x00000033#32 0xFE00707F#32 (fun w => .add (rdField w) (rs1Field w) (rs2Field w)) ∧
  RowMeans 0x40000033#32 0xFE00707F#32 (fun w => .sub (rdField w) (rs1Field w) (rs2Field w)) ∧
  RegRegResult .add (fun x y => BitVec.ofNat 32 (x.toNat + y.toNat)) ∧
  RegRegResult .add (fun x y => BitVec.ofInt 32 (x.toInt + y.toInt)) ∧
  RegRegResult .sub (fun x y => BitVec.ofInt 32 ((x.toNat : Int) - (y.toNat : Int))) ∧
  RegRegResult .sub (fun x y => BitVec.ofInt 32 (x.toInt - y.toInt))

/-- SRL and SRA: the row's words, the result bit by bit, shifted by the low 5 bits of x[rs2], pc + 4, no trap, and
everything else unchanged (45_op.md R157, R158). -/
def Obligations.RightShiftResults : Prop :=
  RowMeans 0x00005033#32 0xFE00707F#32 (fun w => .srl (rdField w) (rs1Field w) (rs2Field w)) ∧
  RowMeans 0x40005033#32 0xFE00707F#32 (fun w => .sra (rdField w) (rs1Field w) (rs2Field w)) ∧
  ∀ rs2 : Reg,
    ShiftResult (fun rd rs1 => .srl rd rs1 rs2) (fun s => (s.readReg rs2).toNat % 32) rightShiftBit ∧
    ShiftResult (fun rd rs1 => .sra rd rs1 rs2) (fun s => (s.readReg rs2).toNat % 32) arithShiftBit

/-- SLL, SLT, SLTU, XOR, OR, AND: the row's words, whatever their funct7 (decision D2, assumption log 14), the result,
pc + 4, no trap, and everything else unchanged (45_op.md R150, R153 to R156, R159, R160). -/
def Obligations.OpResultsWhereFunct7IsIgnored : Prop :=
  RowMeansByDefault 0x00001033#32 0x0000707F#32 (fun w => .sll (rdField w) (rs1Field w) (rs2Field w)) ∧
  RowMeansByDefault 0x00002033#32 0x0000707F#32 (fun w => .slt (rdField w) (rs1Field w) (rs2Field w)) ∧
  RowMeansByDefault 0x00003033#32 0x0000707F#32 (fun w => .sltu (rdField w) (rs1Field w) (rs2Field w)) ∧
  RowMeansByDefault 0x00004033#32 0x0000707F#32 (fun w => .xor (rdField w) (rs1Field w) (rs2Field w)) ∧
  RowMeansByDefault 0x00006033#32 0x0000707F#32 (fun w => .or (rdField w) (rs1Field w) (rs2Field w)) ∧
  RowMeansByDefault 0x00007033#32 0x0000707F#32 (fun w => .and (rdField w) (rs1Field w) (rs2Field w)) ∧
  (∀ rs2 : Reg, ShiftResult (fun rd rs1 => .sll rd rs1 rs2) (fun s => (s.readReg rs2).toNat % 32) leftShiftBit) ∧
  RegRegResult .slt (fun x y => if x.toInt < y.toInt then 1#32 else 0#32) ∧
  RegRegResult .sltu (fun x y => if x.toNat < y.toNat then 1#32 else 0#32) ∧
  RegRegResult .xor (fun x y => x ^^^ y) ∧
  RegRegResult .or (fun x y => x ||| y) ∧
  RegRegResult .and (fun x y => x &&& y)

/-! ## Upper immediates, branches, jumps, SYSTEM -/

/-- AUIPC and LUI: the row's words, the result and pc + 4 in every state, no trap, and everything else unchanged
(43_upper_immediate.md R135 to R137). -/
def Obligations.UpperImmediateResults : Prop :=
  RowMeans 0x00000017#32 0x0000007F#32 (fun w => .auipc (rdField w) (fieldU w)) ∧
  RowMeans 0x00000037#32 0x0000007F#32 (fun w => .lui (rdField w) (fieldU w)) ∧
  (∀ w : Word, upperImm (fieldU w) = w &&& 0xFFFFF000#32) ∧
  ∀ (rd : Reg) (f : BitVec 20) (s : State),
    (∃ t, exec (.auipc rd f) s = .next t ∧
      RegResult s t rd (BitVec.ofNat 32 (s.pc.toNat + f.toNat * 2 ^ 12)) (s.pc + 4#32)) ∧
    (∃ t, exec (.lui rd f) s = .next t ∧ RegResult s t rd (BitVec.ofNat 32 (f.toNat * 2 ^ 12)) (s.pc + 4#32))

/-- The six branches: the row's words, the target when the condition holds and pc + 4 when it does not, in every state; no
register, no memory and nothing else changes and no trap is raised (46_branch.md R166 to R171). -/
def Obligations.BranchesFollowTheirConditions : Prop :=
  RowMeans 0x00000063#32 0x0000707F#32 (fun w => .beq (rs1Field w) (rs2Field w) (immB w)) ∧
  RowMeans 0x00001063#32 0x0000707F#32 (fun w => .bne (rs1Field w) (rs2Field w) (immB w)) ∧
  RowMeans 0x00004063#32 0x0000707F#32 (fun w => .blt (rs1Field w) (rs2Field w) (immB w)) ∧
  RowMeans 0x00005063#32 0x0000707F#32 (fun w => .bge (rs1Field w) (rs2Field w) (immB w)) ∧
  RowMeans 0x00006063#32 0x0000707F#32 (fun w => .bltu (rs1Field w) (rs2Field w) (immB w)) ∧
  RowMeans 0x00007063#32 0x0000707F#32 (fun w => .bgeu (rs1Field w) (rs2Field w) (immB w)) ∧
  BranchMeaning .beq (fun x y => x = y) ∧
  BranchMeaning .bne (fun x y => x ≠ y) ∧
  BranchMeaning .blt (fun x y => x.toInt < y.toInt) ∧
  BranchMeaning .bge (fun x y => y.toInt ≤ x.toInt) ∧
  BranchMeaning .bltu (fun x y => x.toNat < y.toNat) ∧
  BranchMeaning .bgeu (fun x y => y.toNat ≤ x.toNat)

/-- JAL: the row's words, the link pc + 4 into rd and pc + imm_J as the next pc, in every state; no trap, and everything
else unchanged (47_jump.md R177). -/
def Obligations.JalLinksAndJumps : Prop :=
  RowMeans 0x0000006F#32 0x0000007F#32 (fun w => .jal (rdField w) (immJ w)) ∧
  ∀ (rd : Reg) (o : BitVec 21) (s : State),
    ∃ t, exec (.jal rd o) s = .next t ∧
      RegResult s t rd (s.pc + 4#32) (BitVec.ofInt 32 ((s.pc.toNat : Int) + o.toInt))

/-- JALR: the row's words, whatever their funct3 (decision D3, assumption log 14), the link pc + 4 into rd, and as the next
pc the sum of the OLD x[rs1] and imm_I with bit 0 cleared, in every state; no trap, and everything else unchanged
(47_jump.md R175, R176). -/
def Obligations.JalrLinksAndJumps : Prop :=
  RowMeansByDefault 0x00000067#32 0x0000007F#32 (fun w => .jalr (rdField w) (rs1Field w) (immI w)) ∧
  ∀ (rd rs1 : Reg) (imm : BitVec 12) (s : State),
    ∃ t, exec (.jalr rd rs1 imm) s = .next t ∧
      RegResult s t rd (s.pc + 4#32) (BitVec.ofInt 32 (2 * (((s.readReg rs1).toNat + imm.toInt) / 2)))

/-- SYSTEM: every word of the group is one instruction, and it changes nothing: no register (decision D17, assumption log
17), no memory, no CSR, no mode, no trap; pc + 4 (48_system.md R180, R181). -/
def Obligations.SystemIsANoOp : Prop :=
  RowMeans 0x00000073#32 0x0000007F#32 (fun _ => .system) ∧
  ∀ s : State, ∃ t, exec .system s = .next t ∧ Closes s t (s.pc + 4#32) none

/-- Effective addresses and targets are the exact sums modulo 2^32, and JALR clears bit 0 of its target and no other
(20_memory.md R43, 46_branch.md R165, 47_jump.md R176, R177; the wrap is decision D20, assumption log 19). -/
def Obligations.AddressesWrapModulo : Prop :=
  ∀ (s : State) (rs1 : Reg) (imm : BitVec 12) (o : BitVec 13) (oj : BitVec 21),
    ((effectiveAddr s rs1 imm).toNat : Int) = ((s.readReg rs1).toNat + imm.toInt) % 2 ^ 32 ∧
    ((branchTarget s o).toNat : Int) = (s.pc.toNat + o.toInt) % 2 ^ 32 ∧
    ((jalTarget s oj).toNat : Int) = (s.pc.toNat + oj.toInt) % 2 ^ 32 ∧
    (∀ k, k < 32 → (jalrTarget s rs1 imm).getLsbD k = (decide (k ≠ 0) && (effectiveAddr s rs1 imm).getLsbD k))

/-! ## Loads -/

/-- LB and LBU: the row's words, and what the load does at every address: the sign- or zero-extended byte of ROM or RAM,
the status byte, data_in with NEWDAT cleared, or InaccessibleMemory with rd unchanged; pc + 4; never MisalignedAccess;
everything else unchanged (41_load.md R111, R114). -/
def Obligations.ByteLoadsAtEveryAddress : Prop :=
  RowMeans 0x00000003#32 0x0000707F#32 (fun w => .lb (rdField w) (rs1Field w) (immI w)) ∧
  RowMeans 0x00004003#32 0x0000707F#32 (fun w => .lbu (rdField w) (rs1Field w) (immI w)) ∧
  ByteLoadMeaning .lb (fun b => b.signExtend 32) ∧
  ByteLoadMeaning .lbu (fun b => b.setWidth 32)

/-- LH and LHU: the row's words, and what the load does at every address of every map: MisalignedAccess at an odd one, the
sign- or zero-extended halfword of the bytes seen, or InaccessibleMemory (`LoadMeaning`); and at UART_BASE DATA above STATUS
with NEWDAT cleared (20_memory.md R55; the order of the two byte loads is decision D15, assumption log 18); pc + 4;
everything else unchanged (41_load.md R112, R115). -/
def Obligations.HalfwordLoadsAtEveryAddress : Prop :=
  RowMeans 0x00001003#32 0x0000707F#32 (fun w => .lh (rdField w) (rs1Field w) (immI w)) ∧
  RowMeans 0x00005003#32 0x0000707F#32 (fun w => .lhu (rdField w) (rs1Field w) (immI w)) ∧
  LoadMeaning 2 .lh (fun n => (BitVec.ofNat 16 n).signExtend 32) ∧
  LoadMeaning 2 .lhu (fun n => (BitVec.ofNat 16 n).setWidth 32) ∧
  ∀ (rd rs1 : Reg) (imm : BitVec 12) (s : State), s.params.map.wf = true →
    (effectiveAddr s rs1 imm).toNat = s.params.map.uartBase →
    (∃ t, exec (.lh rd rs1 imm) s = .next t ∧ RegResult { s with uart := { s.uart with newdat := false } } t rd
      ((s.uart.dataIn ++ statusByte s.params s.uart).signExtend 32) (s.pc + 4#32)) ∧
    (∃ t, exec (.lhu rd rs1 imm) s = .next t ∧ RegResult { s with uart := { s.uart with newdat := false } } t rd
      ((s.uart.dataIn ++ statusByte s.params s.uart).setWidth 32) (s.pc + 4#32))

/-- LW: the row's words, and what the load does at every address of every map: MisalignedAccess off a multiple of 4, the
word of the bytes seen, or InaccessibleMemory (`LoadMeaning`); and at UART_BASE, where the byte behind the window is
unmapped, the received byte consumed and then InaccessibleMemory (20_memory.md R55; decision D15, assumption log 18);
pc + 4; everything else unchanged (41_load.md R113). -/
def Obligations.WordLoadAtEveryAddress : Prop :=
  RowMeans 0x00002003#32 0x0000707F#32 (fun w => .lw (rdField w) (rs1Field w) (immI w)) ∧
  LoadMeaning 4 .lw (fun n => BitVec.ofNat 32 n) ∧
  ∀ (rd rs1 : Reg) (imm : BitVec 12) (s : State) (a : Word), a = effectiveAddr s rs1 imm → s.params.map.wf = true →
    a.toNat % 4 = 0 → a.toNat = s.params.map.uartBase → unmapped s.params.map (a.toNat + 2) →
    ∃ t, exec (.lw rd rs1 imm) s = .next t ∧
      Closes { s with uart := { s.uart with newdat := false } } t (s.pc + 4#32) (some .inaccessibleMemory)

/-! ## Stores -/

/-- SB: the row's words, and what the store does at every address of every map: one RAM byte and no other, nothing at
STATUS, data_out and TXDONE at DATA, or InaccessibleMemory at ROM and unmapped addresses; pc + 4; never MisalignedAccess;
everything else unchanged (44_store.md R141). Reading back a written byte needs the memory in canonical form. -/
def Obligations.ByteStoreAtEveryAddress : Prop :=
  RowMeans 0x00000023#32 0x0000707F#32 (fun w => .sb (rs1Field w) (rs2Field w) (immS w)) ∧
  ∀ (rs1 rs2 : Reg) (imm : BitVec 12) (s : State) (a : Word), a = effectiveAddr s rs1 imm → s.params.map.wf = true →
    Memory.wf s.mem = true →
    (inRam s.params.map a.toNat → ∃ t, exec (.sb rs1 rs2 imm) s = .next t ∧
      StoreResult s t a.toNat [(s.readReg rs2).extractLsb' 0 8] none) ∧
    (a.toNat = s.params.map.uartBase → ∃ t, exec (.sb rs1 rs2 imm) s = .next t ∧ Closes s t (s.pc + 4#32) none) ∧
    (a.toNat = s.params.map.uartBase + 1 → ∃ t, exec (.sb rs1 rs2 imm) s = .next t ∧
      Closes { s with uart := { s.uart with dataOut := (s.readReg rs2).extractLsb' 0 8, txdone := false } } t
        (s.pc + 4#32) none) ∧
    (inRom s.params.map a.toNat ∨ unmapped s.params.map a.toNat → ∃ t, exec (.sb rs1 rs2 imm) s = .next t ∧
      Closes s t (s.pc + 4#32) (some .inaccessibleMemory))

/-- SH: the row's words, and what the store does at every address of every map: MisalignedAccess at an odd one, its two
bytes where both may be stored and no other, or InaccessibleMemory at the first that may not (`StoreMeaning`); and at
UART_BASE bits 15:8 to DATA (20_memory.md R55); pc + 4; everything else unchanged (44_store.md R142). -/
def Obligations.HalfwordStoreAtEveryAddress : Prop :=
  RowMeans 0x00001023#32 0x0000707F#32 (fun w => .sh (rs1Field w) (rs2Field w) (immS w)) ∧
  StoreMeaning 2 .sh ∧
  ∀ (rs1 rs2 : Reg) (imm : BitVec 12) (s : State) (a : Word), a = effectiveAddr s rs1 imm → s.params.map.wf = true →
    a.toNat = s.params.map.uartBase → ∃ t, exec (.sh rs1 rs2 imm) s = .next t ∧
      Closes { s with uart := { s.uart with dataOut := (s.readReg rs2).extractLsb' 8 8, txdone := false } } t
        (s.pc + 4#32) none

/-- SW: the row's words, and what the store does at every address of every map: MisalignedAccess off a multiple of 4, its
four bytes where all may be stored and no other, or InaccessibleMemory at the first that may not, the bytes before it stored
(`StoreMeaning`); and at UART_BASE, where the byte behind the window may not be stored, bits 15:8 to DATA and then
InaccessibleMemory (20_memory.md R41, R55; decision D15, assumption log 18); pc + 4; everything else unchanged (44_store.md
R143). -/
def Obligations.WordStoreAtEveryAddress : Prop :=
  RowMeans 0x00002023#32 0x0000707F#32 (fun w => .sw (rs1Field w) (rs2Field w) (immS w)) ∧
  StoreMeaning 4 .sw ∧
  ∀ (rs1 rs2 : Reg) (imm : BitVec 12) (s : State) (a : Word), a = effectiveAddr s rs1 imm → s.params.map.wf = true →
    a.toNat % 4 = 0 → a.toNat = s.params.map.uartBase → ¬ storable s.params.map (a.toNat + 2) →
    ∃ t, exec (.sw rs1 rs2 imm) s = .next t ∧
      Closes { s with uart := { s.uart with dataOut := (s.readReg rs2).extractLsb' 8 8, txdone := false } } t
        (s.pc + 4#32) (some .inaccessibleMemory)

/-- A word stored in RAM is loaded back, "for any 32-bit value" (41_load.md R113, 95_test_vectors.md E-6): from a state
with canonical memory and x[0] = 0, SW and then LW through the same base and offset. -/
def Obligations.StoredWordIsLoadedBack : Prop :=
  ∀ (rs1 rs2 rd : Reg) (imm : BitVec 12) (s : State), s.params.map.wf = true →
    Memory.wf s.mem = true → s.readReg 0 = 0#32 → (effectiveAddr s rs1 imm).toNat % 4 = 0 →
    (∀ k, k < 4 → inRam s.params.map ((effectiveAddr s rs1 imm).toNat + k)) → rd ≠ 0 →
    ∃ t u, exec (.sw rs1 rs2 imm) s = .next t ∧ exec (.lw rd rs1 imm) t = .next u ∧ u.readReg rd = s.readReg rs2

/-- Byte order (20_memory.md R38): after a word store at a, a byte load at a + k sees byte k of the word and a halfword
load at a + 2·j sees its halfword j, through any base register and offset. -/
def Obligations.StoredWordIsLittleEndian : Prop :=
  ∀ (rs1 rs2 : Reg) (imm : BitVec 12) (s : State), s.params.map.wf = true →
    Memory.wf s.mem = true → (effectiveAddr s rs1 imm).toNat % 4 = 0 →
    (∀ k, k < 4 → inRam s.params.map ((effectiveAddr s rs1 imm).toNat + k)) →
    ∃ t, exec (.sw rs1 rs2 imm) s = .next t ∧
      ∀ (rd r : Reg) (imm' : BitVec 12), rd ≠ 0 →
        (∀ k, k < 4 → (effectiveAddr t r imm').toNat = (effectiveAddr s rs1 imm).toNat + k →
          ∃ u, exec (.lbu rd r imm') t = .next u ∧
            u.readReg rd = ((s.readReg rs2).extractLsb' (8 * k) 8).setWidth 32) ∧
        (∀ j, j < 2 → (effectiveAddr t r imm').toNat = (effectiveAddr s rs1 imm).toNat + 2 * j →
          ∃ u, exec (.lhu rd r imm') t = .next u ∧
            u.readReg rd = ((s.readReg rs2).extractLsb' (16 * j) 16).setWidth 32)

/-- Code in RAM (20_memory.md R51, 70_reset_and_hazards.md R251): a word stored in RAM is the word the next fetch from
that address gets. -/
def Obligations.StoredWordIsFetchedNext : Prop :=
  ∀ (rs1 rs2 : Reg) (imm : BitVec 12) (s : State), s.params.map.wf = true →
    Memory.wf s.mem = true → (effectiveAddr s rs1 imm).toNat % 4 = 0 →
    (∀ k, k < 4 → inRam s.params.map ((effectiveAddr s rs1 imm).toNat + k)) →
    ∃ t, exec (.sw rs1 rs2 imm) s = .next t ∧
      ∀ u : State, u.params = s.params → u.mem = t.mem → u.pc = effectiveAddr s rs1 imm →
        fetch u = (some (s.readReg rs2), u)

/-! ## The dispatcher and the UART -/

/-- LoadByte and StoreByte at every address of every allowed map: which region answers, with what, and which of the two
errors (20_memory.md R33, R34, R35, R37; 60_exceptions.md R209, R210, R212, R213). -/
def Obligations.DispatcherOutcomes : Prop :=
  ∀ (a : Word) (b : Byte) (s : State), s.params.map.wf = true →
    (stored s.params.map a.toNat → loadByte a s = .ok (Memory.read s.mem a.toNat, s)) ∧
    (a.toNat = s.params.map.uartBase → loadByte a s = .ok (statusByte s.params s.uart, s)) ∧
    (a.toNat = s.params.map.uartBase + 1 →
      loadByte a s = .ok (s.uart.dataIn, { s with uart := { s.uart with newdat := false } })) ∧
    (unmapped s.params.map a.toNat → loadByte a s = .error .unmapped) ∧
    (inRom s.params.map a.toNat → storeByte a b s = .error .denied) ∧
    (inRam s.params.map a.toNat → ∃ t, storeByte a b s = .ok t ∧ t = { s with mem := t.mem } ∧
      (Memory.wf s.mem = true → Memory.read t.mem a.toNat = b) ∧
      ∀ x, x ≠ a.toNat → Memory.read t.mem x = Memory.read s.mem x) ∧
    (a.toNat = s.params.map.uartBase → storeByte a b s = .ok s) ∧
    (a.toNat = s.params.map.uartBase + 1 →
      storeByte a b s = .ok { s with uart := { s.uart with dataOut := b, txdone := false } }) ∧
    (unmapped s.params.map a.toNat → storeByte a b s = .error .unmapped)

/-- The address map (20_memory.md R31, R32, R54; the reference numbers are decision D10, assumption log 15): the reference
map is an allowed one with the protocol's layout, its three rows are the rule's, with no store handler for ROM; and in every
allowed map at most one region contains an address, so that lookup gives the same region in every order of the table. -/
def Obligations.RegionLookupIsUnambiguous : Prop :=
  (Config.params.map.wf = true ∧ Config.params.map.protocolLayout = true ∧ Config.params.wf = true ∧
    regionsOf Config.params.map =
      [⟨.rom, 0x00000000, 0x0000FFFF, true, false⟩, ⟨.ram, 0x00010000, 0x0001FFFF, true, true⟩,
       ⟨.uart, 0x80000000, 0x80000001, true, true⟩]) ∧
  ∀ (m : AddressMap) (a : Word), m.wf = true →
    (∀ r ∈ regionsOf m, r.first ≤ a.toNat → a.toNat ≤ r.last → regionAt m a = some r) ∧
    (∀ table : List Region, table.Perm (regionsOf m) → regionIn table a = regionAt m a) ∧
    (regionAt m a = none ↔ unmapped m a.toNat)

/-- The status byte (60_exceptions.md R211; the bit positions are decisions D7 and D18, assumption log 16): at the default
masks NEWDAT is bit 0, TXDONE bit 1 and the rest 0; at every allowed pair of masks bits 7:2 are 0 and each mask's bit is its
flag. -/
def Obligations.StatusByteLayout : Prop :=
  (∀ u : Uart, (statusByte Config.params u).toNat = (if u.newdat then 1 else 0) + (if u.txdone then 2 else 0)) ∧
  ∀ (p : Params) (u : Uart), p.wf = true →
    statusByte p u &&& 0xFC#8 = 0x00#8 ∧ (statusByte p u &&& p.newdatMask ≠ 0x00#8 ↔ u.newdat = true) ∧
    (statusByte p u &&& p.txdoneMask ≠ 0x00#8 ↔ u.txdone = true)

/-- The receive part of a poll (60_exceptions.md R216; the drain only after a successful read is decision D13, assumption
log 6), with what the host sent before it appended to what waited (assumption log 5). -/
def Obligations.PollReceivesTheOldestByte : Prop :=
  ∀ (s : State) (q : List Byte), q = s.host.rxq ++ s.host.sends →
    (s.uart.newdat = true →
      (poll s).uart.dataIn = s.uart.dataIn ∧ (poll s).uart.newdat = true ∧ (poll s).host.rxq = q) ∧
    (s.uart.newdat = false → q = [] →
      (poll s).uart.dataIn = s.uart.dataIn ∧ (poll s).uart.newdat = false ∧ (poll s).host.rxq = []) ∧
    (∀ b rest, s.uart.newdat = false → q = b :: rest →
      (poll s).uart.dataIn = b ∧ (poll s).uart.newdat = true ∧ (poll s).host.rxq = []) ∧
    (poll s).host.arrivals = s.host.advance.arrivals ∧ (poll s).host.later = s.host.advance.later

/-- The host is unconstrained (60_exceptions.md R214; how it is held as data is assumption log 5): any finite beginning is
what the list gives; after it either any lists repeated for ever, or a free value at every poll, and neither comes to an
end. One cycle, whatever it runs, is one poll of it. -/
def Obligations.HostBehavioursAreUnconstrained : Prop :=
  (∀ (h : HostChannel) (n : Nat), n < h.arrivals.length → h.sentAt n = h.arrivals.getD n []) ∧
  (∀ (h : HostChannel) (l : List (List Byte)) (n : Nat), h.later = .repeats l →
    h.sentAt (h.arrivals.length + n) = l.getD (n % l.length) []) ∧
  (∀ (h : HostChannel) (k n : Nat), h.later = .free k → h.sentAt (h.arrivals.length + n) = Config.hostSends (k + n)) ∧
  ∀ s t : State, step s = .next t → ∀ n, t.host.sentAt n = s.host.sentAt (n + 1)

/-- "must not assume that a program that polls for input ever terminates" (70_reset_and_hazards.md R262): there is an
endless sender, and whatever the program does, one that sends before every poll keeps NEWDAT set for every instruction, so
a loop that reads input until NEWDAT is 0 goes on for ever; and one that never sends to a machine with nothing received
or waiting keeps it clear, so a loop that waits for input does. -/
def Obligations.NoPollingLoopIsSureToEnd : Prop :=
  (∃ h : HostChannel, ∀ n, h.sentAt n ≠ []) ∧
  (∀ s t : State, (∀ n, s.host.sentAt n ≠ []) → Reaches s t →
    (poll t).uart.newdat = true ∧ ∀ n, t.host.sentAt n ≠ []) ∧
  (∃ h : HostChannel, ∀ n, h.sentAt n = []) ∧
  (∀ s t : State, (∀ n, s.host.sentAt n = []) → s.host.rxq = [] → s.uart.newdat = false → Reaches s t →
    (poll t).uart.newdat = false ∧ t.host.rxq = [])

/-- The transmit part of a poll, and that a poll touches nothing but the UART and the host channel (60_exceptions.md R217,
10_state.md R10: "neither the UART poll nor the host can read or change a register"). -/
def Obligations.PollTransmitsThePendingByte : Prop :=
  ∀ s : State,
    (s.uart.txdone = false → (poll s).host.txlog = s.host.txlog ++ [s.uart.dataOut]) ∧
    (s.uart.txdone = true → (poll s).host.txlog = s.host.txlog) ∧
    (poll s).uart.txdone = true ∧ (poll s).uart.dataOut = s.uart.dataOut ∧
    (poll s).regs = s.regs ∧ (poll s).pc = s.pc ∧ (poll s).mem = s.mem ∧ (poll s).csr = s.csr ∧
    (poll s).halted = s.halted ∧ (poll s).params = s.params

/-- Every byte stored to DATA is sent exactly once, by the poll of the following cycle, in program order; and every
instruction runs with TXDONE set (60_exceptions.md R219 (a), (b); 70_reset_and_hazards.md R261). -/
def Obligations.QueuedByteIsSentByTheNextCycle : Prop :=
  ∀ s t : State, step s = .next t →
    t.host.txlog = s.host.txlog ++ (if s.uart.txdone then [] else [s.uart.dataOut]) ∧
    (fetch (poll s)).2.uart.txdone = true ∧
    (t.uart.txdone = false → ∀ u, step t = .next u → u.host.txlog = t.host.txlog ++ [t.uart.dataOut])

/-! ## The whole machine -/

/-- No instruction stops the machine: each answers a next state in every state (60_exceptions.md R190, R191, R200: traps
are recoverable and no instruction is privileged). -/
def Obligations.NoInstructionStops : Prop :=
  ∀ (i : Instr) (s : State), ∃ t, exec i s = .next t

/-- Which instruction can report which kind (60_exceptions.md R193). -/
def Obligations.OnlyListedTrapsAreReported : Prop :=
  ∀ (i : Instr) (s t : State) (k : ErrorKind), exec i s = .next t → t.report = some k → k ∈ mayReport i

/-- Only the destination register of an instruction changes (10_state.md R10 to R12), and no instruction changes the CSR
table, the halted mark, the host channel or the configuration (10_state.md R20, R21, R22). -/
def Obligations.OnlyTheDestinationChanges : Prop :=
  ∀ (i : Instr) (s t : State), exec i s = .next t →
    (∀ r : Reg, r ≠ 0 → destination i ≠ some r → t.readReg r = s.readReg r) ∧
    t.readReg 0 = 0#32 ∧ t.csr = s.csr ∧ t.halted = s.halted ∧ t.host = s.host ∧ t.params = s.params

/-- "Only store instructions change" RAM (10_state.md R17), and a store changes no byte outside the width it stores at its
effective address. -/
def Obligations.OnlyStoresChangeMemory : Prop :=
  ∀ (i : Instr) (s t : State), exec i s = .next t →
    (storeForm i = none → ∀ x, Memory.read t.mem x = Memory.read s.mem x) ∧
    (∀ rs1 imm n, storeForm i = some (rs1, imm, n) →
      ∀ x, x < (effectiveAddr s rs1 imm).toNat ∨ (effectiveAddr s rs1 imm).toNat + n ≤ x →
        Memory.read t.mem x = Memory.read s.mem x)

/-- The UART's registers change by memory accesses alone, each in its own direction (10_state.md R18, R19): an instruction
that is no load and no store leaves the UART; a load at most clears NEWDAT; a store at most sets data_out and clears
TXDONE. -/
def Obligations.OnlyMemoryAccessesChangeTheUart : Prop :=
  ∀ (i : Instr) (s t : State), exec i s = .next t →
    (isLoad i = false → storeForm i = none → t.uart = s.uart) ∧
    (isLoad i = true → t.uart = s.uart ∨ t.uart = { s.uart with newdat := false }) ∧
    (storeForm i ≠ none → t.uart = s.uart ∨ ∃ b, t.uart = { s.uart with dataOut := b, txdone := false })

/-- The only instructions that change pc otherwise than by + 4 are the six branches, JAL and JALR, and none of them raises
a trap (46_branch.md R173). -/
def Obligations.OnlyBranchesAndJumpsMovePc : Prop :=
  ∀ (i : Instr) (s t : State), exec i s = .next t →
    (transfersControl i = false → t.pc = s.pc + 4#32) ∧ (transfersControl i = true → t.report = none)

/-- Register 0 reads 0 immediately after any step that did not halt, "regardless of what the executed instruction wrote to
it" (10_state.md R11, 40_cycle.md R97). -/
def Obligations.ZeroRegisterReadsZeroAfterAnyStep : Prop :=
  ∀ s t : State, step s = .next t → t.halted = false → t.readReg 0 = 0#32

/-- No step changes a byte of ROM (20_memory.md R35, R51: "ROM cannot be modified"). -/
def Obligations.NoStepChangesRom : Prop :=
  ∀ s t : State, s.params.map.wf = true → step s = .next t →
    ∀ x, inRom s.params.map x → Memory.read t.mem x = Memory.read s.mem x

/-- The state after reset, and after every launch at allowed parameters and with an allowed CSR table, has the
invariant, whatever the ROM image, the initial registers and the host (10_state.md R11, R16; 70_reset_and_hazards.md
R242, R243, R245). -/
def Obligations.LaunchHasTheInvariant : Prop :=
  State.reset.Inv ∧
    ∀ l : Launch, l.params.wf = true → Config.csrTableWf l.csrTable = true → (State.launch l).Inv

/-- Every step keeps the invariant: the configuration and the CSR table are allowed, x[0] reads 0, the memory is
canonical and holds nothing outside ROM and RAM, and the machine is halted exactly when its last report was the fatal
kind; and no step changes the configuration (10_state.md R22: "immutable after initialization") or the CSR table (R20:
"immutable, built once at startup"). -/
def Obligations.EveryStepKeepsTheInvariant : Prop :=
  ∀ s t : State, s.Inv → step s = .next t → t.Inv ∧ t.params = s.params ∧ t.csr = s.csr

/-- The state after launch (70_reset_and_hazards.md R240 to R245): pc at RESET_PC, the image at ROM_BASE, RAM zero, x[0]
= 0 and the other registers as given, the UART idle, not halted, the CSR table as given, `txlog` empty, the host's
waiting bytes as given; and `State.reset` is the launch at the reference parameters, with the table of R205. The UART's
values, the bytes beyond the image and the reference RESET_PC are decisions D8, D11 and D5, and `State.reset`'s
registers and silent host are the model's own choices (assumption logs 1 to 5). -/
def Obligations.StateAfterLaunch : Prop :=
  (∀ l : Launch, l.params.wf = true →
    (State.launch l).params = l.params ∧
    (State.launch l).pc = l.params.resetPc ∧ (State.launch l).readReg 0 = 0#32 ∧
    (∀ r : Reg, r ≠ 0 → (State.launch l).readReg r = l.initRegs[r]) ∧
    (∀ k, inRom l.params.map (l.params.map.romBase + k) →
      Memory.read (State.launch l).mem (l.params.map.romBase + k) = l.romImage.getD k 0x00#8) ∧
    (∀ x, inRam l.params.map x → Memory.read (State.launch l).mem x = 0x00#8) ∧
    (State.launch l).uart = { dataIn := 0x00#8, dataOut := 0x00#8, newdat := false, txdone := true } ∧
    (State.launch l).halted = false ∧ (State.launch l).csr = l.csrTable ∧
    (State.launch l).host.rxq = l.waiting ∧ (State.launch l).host.txlog = [] ∧
    (State.launch l).host.arrivals = l.arrivals ∧ (State.launch l).host.later = l.later) ∧
  State.reset = State.launch
    { params := Config.params, csrTable := Config.csrTable, romImage := [], initRegs := Vector.replicate 32 0#32,
      waiting := [], arrivals := [], later := .repeats [] } ∧
  State.reset.pc = 0x00000000#32

/-! ## The CSR file and the trap report -/

/-- The CSR file's contract (60_exceptions.md R204, R206, R207): keyed lookup, InvalidRegister for an unknown address and
for a missing handler, and the identification registers read 0 and ignore writes in every table CSR_TABLE may be. The
failure of unknown addresses is decision D14 (assumption log 20). -/
def Obligations.CsrFileContract : Prop :=
  (∀ (s : State) (a : BitVec 12) (v : Word), (∀ e ∈ s.csr, e.addr ≠ a) →
    csrGet a s = .error .invalidRegister ∧ csrSet a v s = .error .invalidRegister) ∧
  (∀ (s : State) (e : CsrEntry) (v : Word), e ∈ s.csr → (∀ e' ∈ s.csr, e'.addr = e.addr → e' = e) →
    (e.get = none → csrGet e.addr s = .error .invalidRegister) ∧
    (∀ c, e.get = some (.constant c) → csrGet e.addr s = .ok c) ∧
    (e.set = none → csrSet e.addr v s = .error .invalidRegister) ∧
    (e.set = some .ignore → csrSet e.addr v s = .ok s)) ∧
  Config.csrTableWf Config.csrTable = true ∧
  (∀ (s : State) (a : BitVec 12) (v : Word), Config.csrTableWf s.csr = true →
    a ∈ [0xF11#12, 0xF12#12, 0xF13#12, 0xF14#12] → csrGet a s = .ok 0#32 ∧ csrSet a v s = .ok s)

/-- No program can reach the CSR file (10_state.md R20, 48_system.md R181): two machines that differ in the CSR table alone
take the same step, and it stays as it was. -/
def Obligations.CsrFileIsUnreachable : Prop :=
  ∀ (s : State) (c : List CsrEntry),
    (∀ t, step s = .next t → step { s with csr := c } = .next { t with csr := c } ∧ t.csr = s.csr) ∧
    (∀ f, step s = .fault f → step { s with csr := c } = .fault f)

/-- The trap report is an output only (60_exceptions.md R192): no step depends on it, and a later cycle's report replaces
it. -/
def Obligations.TrapReportIsNeverRead : Prop :=
  ∀ (s : State) (o : Option ErrorKind), step { s with report := o } = step s
end

