-- ==== Sys2Proof/Laws/Decode.lean ====
section
/-!
SUPPORT. Decoding: register fields, what a mask fixes of a word's fields, the fields of each encoded format, and the byte
order both ways.
-/

namespace Sys2Proof

@[simp] theorem regOfBits_bitsOfReg (r : Reg) : regOfBits (bitsOfReg r) = r := rfl

@[simp] theorem bitsOfReg_regOfBits (b : BitVec 5) : bitsOfReg (regOfBits b) = b := rfl

/-! ### Byte order -/

/-- A word is the value of its four bytes, and the bytes of a value are the bytes. -/
theorem leWord_leBytes (w : Word) : leWord (leBytes 4 w) = w := by
  simp only [leBytes, leWord]
  apply BitVec.eq_of_getLsbD_eq
  intro i hi
  simp only [BitVec.getLsbD_or, BitVec.getLsbD_shiftLeft, BitVec.getLsbD_setWidth, BitVec.getLsbD_ushiftRight]
  interval_cases i <;> simp

theorem leBytes_length (n : Nat) (v : Word) : (leBytes n v).length = n := by
  induction n generalizing v with
  | zero => rfl
  | succ n ih => simp [leBytes, ih]

/-- The first word of a list is decoded and the rest is given back. -/
theorem decodeBytesWith_leBytes (p : DecodeParams) (w : Word) (rest : List Byte) :
    decodeBytesWith p (leBytes 4 w ++ rest) =
      match decodeWordWith p w with
      | .ok i => .ok (i, rest)
      | .error e => .error e := by
  have h : decodeBytesWith p (leBytes 4 w ++ rest) =
      match decodeWordWith p (leWord (leBytes 4 w)) with
      | .ok i => .ok (i, rest)
      | .error e => .error e := rfl
  rw [h, leWord_leBytes]

/-! ### What a mask fixes -/

/-- A row's pattern fixes the bits its mask covers. -/
theorem extract_of_mask {w p m : Word} (h : w &&& m = p) (lo len : Nat) (hm : m.extractLsb' lo len = BitVec.allOnes len) :
    w.extractLsb' lo len = p.extractLsb' lo len := by
  rw [← h, BitVec.extractLsb'_and, hm, BitVec.and_allOnes]

/-- `accepted` in terms of the two fields (30_encoding.md R60). -/
theorem accepted_iff (w : Word) : accepted w = true ↔ w.extractLsb' 0 2 = 0b11#2 ∧ w.extractLsb' 2 3 ≠ 0b111#3 := by
  simp [accepted]

/-- The low three bits of the opcode group are w[4:2]. -/
theorem extract_opcodeGroup (w : Word) : (opcodeGroup w).extractLsb' 0 3 = w.extractLsb' 2 3 := by
  apply BitVec.eq_of_getLsbD_eq
  intro i hi
  simp only [opcodeGroup, BitVec.getLsbD_extractLsb']
  interval_cases i <;> simp

/-- A word whose low two bits are 11 and whose group is a listed one is accepted. -/
theorem accepted_of_group {w : Word} (h0 : w.extractLsb' 0 2 = 0b11#2) {g : BitVec 5} (hg : opcodeGroup w = g)
    (hne : g.extractLsb' 0 3 ≠ 0b111#3) : accepted w = true := by
  rw [accepted_iff]
  refine ⟨h0, ?_⟩
  rw [← extract_opcodeGroup, hg]
  exact hne

/-! ### What each group's decoder can answer -/

theorem decodeLoad_cases (w : Word) : (∃ i, decodeLoad w = .ok i) ∨ decodeLoad w = .error .unlistedFunction := by
  unfold decodeLoad; split_ifs <;> simp

theorem decodeOpImm_cases (w : Word) : (∃ i, decodeOpImm w = .ok i) ∨ decodeOpImm w = .error .unlistedFunction := by
  unfold decodeOpImm; split_ifs <;> simp

theorem decodeStore_cases (w : Word) : (∃ i, decodeStore w = .ok i) ∨ decodeStore w = .error .unlistedFunction := by
  unfold decodeStore; split_ifs <;> simp

theorem decodeOp_cases (b : Bool) (w : Word) :
    (∃ i, decodeOp b w = .ok i) ∨ decodeOp b w = .error .unlistedFunction := by
  unfold decodeOp; split_ifs <;> simp

theorem decodeBranch_cases (w : Word) : (∃ i, decodeBranch w = .ok i) ∨ decodeBranch w = .error .unlistedFunction := by
  unfold decodeBranch; split_ifs <;> simp

theorem decodeJalr_cases (b : Bool) (w : Word) :
    (∃ i, decodeJalr b w = .ok i) ∨ decodeJalr b w = .error .unlistedFunction := by
  unfold decodeJalr; split_ifs <;> simp

/-- The decoder's four answers (30_encoding.md R77): there are always enough bytes in a word. -/
theorem decodeWordWith_cases (p : DecodeParams) (w : Word) :
    (accepted w = false ∧ decodeWordWith p w = .error .invalidEncoding) ∨
    (accepted w = true ∧ ((∃ i, decodeWordWith p w = .ok i) ∨ decodeWordWith p w = .error .unlistedGroup ∨
      decodeWordWith p w = .error .unlistedFunction)) := by
  have lift : ∀ {x : Except DecodeError Instr}, (∃ i, x = .ok i) ∨ x = .error .unlistedFunction →
      (∃ i, x = .ok i) ∨ x = .error .unlistedGroup ∨ x = .error .unlistedFunction := fun h => h.imp_right .inr
  cases ha : accepted w with
  | false => exact .inl ⟨rfl, by simp [decodeWordWith, ha]⟩
  | true =>
    refine .inr ⟨rfl, ?_⟩
    unfold decodeWordWith
    rw [if_neg (by simp [ha])]
    repeat' split
    · exact lift (decodeLoad_cases w)
    · exact lift (decodeOpImm_cases w)
    · exact .inl ⟨_, rfl⟩
    · exact lift (decodeStore_cases w)
    · exact lift (decodeOp_cases _ w)
    · exact .inl ⟨_, rfl⟩
    · exact lift (decodeBranch_cases w)
    · exact lift (decodeJalr_cases _ w)
    · exact .inl ⟨_, rfl⟩
    · exact .inl ⟨_, rfl⟩
    · exact .inr (.inl rfl)

/-! ### The decode procedure, group by group (30_encoding.md R70) -/

section Groups

variable {w : Word} (p : DecodeParams) (h0 : w.extractLsb' 0 2 = 0b11#2)

include h0

theorem decode_load (h : opcodeGroup w = groupLoad) : decodeWordWith p w = decodeLoad w := by
  simp [decodeWordWith, accepted_of_group h0 h (by decide), h]

theorem decode_opImm (h : opcodeGroup w = groupOpImm) : decodeWordWith p w = decodeOpImm w := by
  simp [decodeWordWith, accepted_of_group h0 h (by decide), h, show groupOpImm ≠ groupLoad by decide]

theorem decode_auipc (h : opcodeGroup w = groupAuipc) :
    decodeWordWith p w = .ok (.auipc (rdField w) (fieldU w)) := by
  simp [decodeWordWith, accepted_of_group h0 h (by decide), h, groupAuipc, groupLoad, groupOpImm]

theorem decode_store (h : opcodeGroup w = groupStore) : decodeWordWith p w = decodeStore w := by
  simp [decodeWordWith, accepted_of_group h0 h (by decide), h, groupAuipc, groupLoad, groupOpImm, groupStore]

theorem decode_op (h : opcodeGroup w = groupOp) : decodeWordWith p w = decodeOp p.opFunct7Strict w := by
  simp [decodeWordWith, accepted_of_group h0 h (by decide), h, groupAuipc, groupLoad, groupOpImm, groupStore, groupOp]

theorem decode_lui (h : opcodeGroup w = groupLui) : decodeWordWith p w = .ok (.lui (rdField w) (fieldU w)) := by
  simp [decodeWordWith, accepted_of_group h0 h (by decide), h, groupAuipc, groupLoad, groupOpImm, groupStore, groupOp,
    groupLui]

theorem decode_branch (h : opcodeGroup w = groupBranch) : decodeWordWith p w = decodeBranch w := by
  simp [decodeWordWith, accepted_of_group h0 h (by decide), h, groupAuipc, groupLoad, groupOpImm, groupStore, groupOp,
    groupLui, groupBranch]

theorem decode_jalr (h : opcodeGroup w = groupJalr) : decodeWordWith p w = decodeJalr p.jalrFunct3Strict w := by
  simp [decodeWordWith, accepted_of_group h0 h (by decide), h, groupAuipc, groupLoad, groupOpImm, groupStore, groupOp,
    groupLui, groupBranch, groupJalr]

theorem decode_jal (h : opcodeGroup w = groupJal) : decodeWordWith p w = .ok (.jal (rdField w) (immJ w)) := by
  simp [decodeWordWith, accepted_of_group h0 h (by decide), h, groupAuipc, groupLoad, groupOpImm, groupStore, groupOp,
    groupLui, groupBranch, groupJalr, groupJal]

theorem decode_system (h : opcodeGroup w = groupSystem) : decodeWordWith p w = .ok .system := by
  simp [decodeWordWith, accepted_of_group h0 h (by decide), h, groupAuipc, groupLoad, groupOpImm, groupStore, groupOp,
    groupLui, groupBranch, groupJalr, groupJal, groupSystem]

end Groups

/-! ### The fields of each encoded format (30_encoding.md R62) -/

section Formats

variable (f7 : BitVec 7) (imm : BitVec 12) (sh : BitVec 5) (o : BitVec 13) (oj : BitVec 21) (f : BitVec 20)
variable (rd rs1 rs2 : Reg) (f3 : BitVec 3) (g : BitVec 5)

theorem encodeR_fields :
    (encodeR f7 rs2 rs1 f3 rd g).extractLsb' 0 2 = 0b11#2 ∧ opcodeGroup (encodeR f7 rs2 rs1 f3 rd g) = g ∧
    funct3 (encodeR f7 rs2 rs1 f3 rd g) = f3 ∧ funct7 (encodeR f7 rs2 rs1 f3 rd g) = f7 ∧
    rdField (encodeR f7 rs2 rs1 f3 rd g) = rd ∧ rs1Field (encodeR f7 rs2 rs1 f3 rd g) = rs1 ∧
    rs2Field (encodeR f7 rs2 rs1 f3 rd g) = rs2 := by
  simp (disch := omega) only [encodeR, opcodeGroup, funct3, funct7, rdField, rs1Field, rs2Field,
    BitVec.extractLsb'_append_eq_of_le, BitVec.extractLsb'_append_eq_of_add_le, Nat.reduceSub,
    BitVec.extractLsb'_eq_self, regOfBits_bitsOfReg, and_self]

theorem encodeI_fields :
    (encodeI imm rs1 f3 rd g).extractLsb' 0 2 = 0b11#2 ∧ opcodeGroup (encodeI imm rs1 f3 rd g) = g ∧
    funct3 (encodeI imm rs1 f3 rd g) = f3 ∧ rdField (encodeI imm rs1 f3 rd g) = rd ∧
    rs1Field (encodeI imm rs1 f3 rd g) = rs1 ∧ immI (encodeI imm rs1 f3 rd g) = imm := by
  simp (disch := omega) only [encodeI, opcodeGroup, funct3, rdField, rs1Field, immI,
    BitVec.extractLsb'_append_eq_of_le, BitVec.extractLsb'_append_eq_of_add_le, Nat.reduceSub,
    BitVec.extractLsb'_eq_self, regOfBits_bitsOfReg, and_self]

theorem encodeShift_fields :
    (encodeShift f7 sh rs1 f3 rd).extractLsb' 0 2 = 0b11#2 ∧ opcodeGroup (encodeShift f7 sh rs1 f3 rd) = groupOpImm ∧
    funct3 (encodeShift f7 sh rs1 f3 rd) = f3 ∧ funct7 (encodeShift f7 sh rs1 f3 rd) = f7 ∧
    rdField (encodeShift f7 sh rs1 f3 rd) = rd ∧ rs1Field (encodeShift f7 sh rs1 f3 rd) = rs1 ∧
    shamtField (encodeShift f7 sh rs1 f3 rd) = sh := by
  simp (disch := omega) only [encodeShift, opcodeGroup, funct3, funct7, rdField, rs1Field, shamtField,
    BitVec.extractLsb'_append_eq_of_le, BitVec.extractLsb'_append_eq_of_add_le, Nat.reduceSub,
    BitVec.extractLsb'_eq_self, regOfBits_bitsOfReg, and_self]

theorem encodeU_fields :
    (encodeU f rd g).extractLsb' 0 2 = 0b11#2 ∧ opcodeGroup (encodeU f rd g) = g ∧
    rdField (encodeU f rd g) = rd ∧ fieldU (encodeU f rd g) = f := by
  simp (disch := omega) only [encodeU, opcodeGroup, rdField, fieldU,
    BitVec.extractLsb'_append_eq_of_le, BitVec.extractLsb'_append_eq_of_add_le, Nat.reduceSub,
    BitVec.extractLsb'_eq_self, regOfBits_bitsOfReg, and_self]

/-- The two parts of an S immediate are the immediate. -/
theorem immS_parts : imm.extractLsb' 5 7 ++ imm.extractLsb' 0 5 = imm := by
  apply BitVec.eq_of_getLsbD_eq
  intro i hi
  simp only [BitVec.getLsbD_append, BitVec.getLsbD_extractLsb']
  interval_cases i <;> simp

theorem encodeS_fields :
    (encodeS imm rs2 rs1 f3).extractLsb' 0 2 = 0b11#2 ∧ opcodeGroup (encodeS imm rs2 rs1 f3) = groupStore ∧
    funct3 (encodeS imm rs2 rs1 f3) = f3 ∧ rs1Field (encodeS imm rs2 rs1 f3) = rs1 ∧
    rs2Field (encodeS imm rs2 rs1 f3) = rs2 ∧ immS (encodeS imm rs2 rs1 f3) = imm := by
  simp (disch := omega) only [encodeS, opcodeGroup, funct3, rs1Field, rs2Field, immS,
    BitVec.extractLsb'_append_eq_of_le, BitVec.extractLsb'_append_eq_of_add_le, Nat.reduceSub,
    BitVec.extractLsb'_eq_self, regOfBits_bitsOfReg, immS_parts, and_self]

/-- The parts of an even B offset are the offset. -/
theorem immB_parts (h : o.getLsbD 0 = false) :
    o.extractLsb' 12 1 ++ o.extractLsb' 11 1 ++ o.extractLsb' 5 6 ++ o.extractLsb' 1 4 ++ 0#1 = o := by
  have h0 : o[0] = false := by rwa [BitVec.getLsbD_eq_getElem (by decide)] at h
  apply BitVec.eq_of_getLsbD_eq
  intro i hi
  simp only [BitVec.getLsbD_append, BitVec.getLsbD_extractLsb']
  interval_cases i <;> simp [h0]

theorem encodeB_fields (h : o.getLsbD 0 = false) :
    (encodeB o rs2 rs1 f3).extractLsb' 0 2 = 0b11#2 ∧ opcodeGroup (encodeB o rs2 rs1 f3) = groupBranch ∧
    funct3 (encodeB o rs2 rs1 f3) = f3 ∧ rs1Field (encodeB o rs2 rs1 f3) = rs1 ∧
    rs2Field (encodeB o rs2 rs1 f3) = rs2 ∧ immB (encodeB o rs2 rs1 f3) = o := by
  simp (disch := omega) only [encodeB, opcodeGroup, funct3, rs1Field, rs2Field, immB,
    BitVec.extractLsb'_append_eq_of_le, BitVec.extractLsb'_append_eq_of_add_le, Nat.reduceSub,
    BitVec.extractLsb'_eq_self, regOfBits_bitsOfReg, immB_parts o h, and_self]

/-- The parts of an even J offset are the offset. -/
theorem immJ_parts (h : oj.getLsbD 0 = false) :
    oj.extractLsb' 20 1 ++ oj.extractLsb' 12 8 ++ oj.extractLsb' 11 1 ++ oj.extractLsb' 1 10 ++ 0#1 = oj := by
  have h0 : oj[0] = false := by rwa [BitVec.getLsbD_eq_getElem (by decide)] at h
  apply BitVec.eq_of_getLsbD_eq
  intro i hi
  simp only [BitVec.getLsbD_append, BitVec.getLsbD_extractLsb']
  interval_cases i <;> simp [h0]

theorem encodeJ_fields (h : oj.getLsbD 0 = false) :
    (encodeJ oj rd).extractLsb' 0 2 = 0b11#2 ∧ opcodeGroup (encodeJ oj rd) = groupJal ∧
    rdField (encodeJ oj rd) = rd ∧ immJ (encodeJ oj rd) = oj := by
  simp (disch := omega) only [encodeJ, opcodeGroup, rdField, immJ,
    BitVec.extractLsb'_append_eq_of_le, BitVec.extractLsb'_append_eq_of_add_le, Nat.reduceSub,
    BitVec.extractLsb'_eq_self, regOfBits_bitsOfReg, immJ_parts oj h, and_self]

end Formats

/-! ### Masks of the opcode table -/

/-- The mask of a row with opcode and funct3. -/
theorem and_mask_opcode_funct3 (w : Word) : w &&& 0x0000707F#32 =
    (w.extractLsb' 12 3).setWidth 32 <<< 12 ||| (w.extractLsb' 2 5).setWidth 32 <<< 2 |||
      (w.extractLsb' 0 2).setWidth 32 := by
  apply BitVec.eq_of_getLsbD_eq
  intro i hi
  simp only [BitVec.getLsbD_and, BitVec.getLsbD_or, BitVec.getLsbD_shiftLeft, BitVec.getLsbD_setWidth,
    BitVec.getLsbD_extractLsb']
  interval_cases i <;> simp

/-- The mask of a row with opcode, funct3 and funct7. -/
theorem and_mask_opcode_funct3_funct7 (w : Word) : w &&& 0xFE00707F#32 =
    (w.extractLsb' 25 7).setWidth 32 <<< 25 ||| (w.extractLsb' 12 3).setWidth 32 <<< 12 |||
      (w.extractLsb' 2 5).setWidth 32 <<< 2 ||| (w.extractLsb' 0 2).setWidth 32 := by
  apply BitVec.eq_of_getLsbD_eq
  intro i hi
  simp only [BitVec.getLsbD_and, BitVec.getLsbD_or, BitVec.getLsbD_shiftLeft, BitVec.getLsbD_setWidth,
    BitVec.getLsbD_extractLsb']
  interval_cases i <;> simp

/-- The mask of a row with the opcode alone. -/
theorem and_mask_opcode (w : Word) : w &&& 0x0000007F#32 =
    (w.extractLsb' 2 5).setWidth 32 <<< 2 ||| (w.extractLsb' 0 2).setWidth 32 := by
  apply BitVec.eq_of_getLsbD_eq
  intro i hi
  simp only [BitVec.getLsbD_and, BitVec.getLsbD_or, BitVec.getLsbD_shiftLeft, BitVec.getLsbD_setWidth,
    BitVec.getLsbD_extractLsb']
  interval_cases i <;> simp

end Sys2Proof
end

