-- ==== Sys2Proof/Laws/Memory.lean ====
section
/-!
SUPPORT. Memory: a read after a write, and that every memory operation keeps the canonical form.
-/

namespace Sys2Proof.Machine

@[simp] theorem Memory.unlisted_eq (a : Nat) : Memory.unlisted a = 0x00#8 := rfl

@[simp] theorem Memory.read_nil (a : Nat) : Memory.read [] a = 0x00#8 := rfl

/-- The tail of a canonical memory is canonical. -/
theorem Memory.wf_tail {c : Host.Cell} {m : List Host.Cell} (h : Memory.wf (c :: m) = true) : Memory.wf m = true := by
  obtain ⟨a, b⟩ := c
  cases m with
  | nil => rfl
  | cons d m =>
    obtain ⟨k, e⟩ := d
    simp only [Memory.wf, Bool.and_eq_true] at h
    exact h.2

/-- Every later address of a canonical memory is greater than the first. -/
theorem Memory.wf_head_lt {a : Nat} {b : Byte} {m : List Host.Cell} (h : Memory.wf ((a, b) :: m) = true) :
    ∀ c ∈ m, a < c.1 := by
  induction m generalizing a b with
  | nil => simp
  | cons d m ih =>
    obtain ⟨k, e⟩ := d
    simp only [Memory.wf, Bool.and_eq_true, decide_eq_true_eq] at h
    intro c hc
    rcases List.mem_cons.mp hc with rfl | hc
    · exact h.1.2
    · exact Nat.lt_trans h.1.2 (ih h.2 c hc)

/-- The first cell of a canonical memory does not hold what its address reads as unlisted. -/
theorem Memory.wf_head_ne {a : Nat} {b : Byte} {m : List Host.Cell} (h : Memory.wf ((a, b) :: m) = true) :
    b ≠ Memory.unlisted a := by
  cases m with
  | nil => simpa [Memory.wf] using h
  | cons d m =>
    obtain ⟨k, e⟩ := d
    simp only [Memory.wf, Bool.and_eq_true, bne_iff_ne] at h
    exact h.1.1

/-- Putting a cell in front keeps the form when its address is below all others. -/
theorem Memory.wf_cons {a : Nat} {b : Byte} {m : List Host.Cell} (hb : b ≠ Memory.unlisted a)
    (hlt : ∀ c ∈ m, a < c.1) (hm : Memory.wf m = true) : Memory.wf ((a, b) :: m) = true := by
  cases m with
  | nil => simpa [Memory.wf] using hb
  | cons d m =>
    obtain ⟨k, e⟩ := d
    simp only [Memory.wf, Bool.and_eq_true, bne_iff_ne, decide_eq_true_eq]
    exact ⟨⟨hb, hlt (k, e) (by simp)⟩, hm⟩

theorem Memory.wf_consCell {a : Nat} {b : Byte} {m : List Host.Cell} (hlt : ∀ c ∈ m, a < c.1)
    (hm : Memory.wf m = true) : Memory.wf (Memory.consCell a b m) = true := by
  unfold Memory.consCell
  split
  · exact hm
  · exact Memory.wf_cons ‹_› hlt hm

theorem Memory.mem_consCell {a : Nat} {b : Byte} {m : List Host.Cell} {c : Host.Cell}
    (h : c ∈ Memory.consCell a b m) : c = (a, b) ∨ c ∈ m := by
  unfold Memory.consCell at h
  split at h
  · exact .inr h
  · exact List.mem_cons.mp h

/-- A cell after a write is the written one or an old one. -/
theorem Memory.mem_write {m : List Host.Cell} {a : Nat} {b : Byte} {c : Host.Cell}
    (h : c ∈ Memory.write m a b) : c = (a, b) ∨ c ∈ m := by
  induction m with
  | nil => exact Memory.mem_consCell h
  | cons d m ih =>
    obtain ⟨k, e⟩ := d
    simp only [Memory.write] at h
    split at h
    · exact Memory.mem_consCell h
    · split at h
      · exact (Memory.mem_consCell h).imp_right (List.mem_cons_of_mem _)
      · rcases List.mem_cons.mp h with rfl | h
        · exact .inr (by simp)
        · exact (ih h).imp_right (List.mem_cons_of_mem _)

/-- A write keeps the canonical form. -/
theorem Memory.wf_write {m : List Host.Cell} (a : Nat) (b : Byte) (h : Memory.wf m = true) :
    Memory.wf (Memory.write m a b) = true := by
  induction m with
  | nil => exact Memory.wf_consCell (by simp) rfl
  | cons d m ih =>
    obtain ⟨k, e⟩ := d
    simp only [Memory.write]
    have hlt := Memory.wf_head_lt h
    split
    · rename_i hak
      refine Memory.wf_consCell ?_ h
      intro c hc
      rcases List.mem_cons.mp hc with rfl | hc
      · exact hak
      · exact Nat.lt_trans hak (hlt c hc)
    · split
      · rename_i _ hak
        subst hak
        exact Memory.wf_consCell hlt (Memory.wf_tail h)
      · rename_i h1 h2
        refine Memory.wf_cons (Memory.wf_head_ne h) ?_ (ih (Memory.wf_tail h))
        intro c hc
        rcases Memory.mem_write hc with rfl | hc
        · simp only; omega
        · exact hlt c hc

/-- Writing a list of bytes keeps the canonical form. -/
theorem Memory.wf_writeList {m : List Host.Cell} (a : Nat) (bs : List Byte) (h : Memory.wf m = true) :
    Memory.wf (Memory.writeList m a bs) = true := by
  induction bs generalizing m a with
  | nil => exact h
  | cons b bs ih => exact ih (a + 1) (Memory.wf_write a b h)

/-- An address that no cell lists reads as unlisted. -/
theorem Memory.read_of_not_listed {m : List Host.Cell} {a : Nat} (h : ∀ c ∈ m, c.1 ≠ a) :
    Memory.read m a = Memory.unlisted a := by
  induction m with
  | nil => rfl
  | cons d m ih =>
    obtain ⟨k, e⟩ := d
    have hk : k ≠ a := h (k, e) (by simp)
    simp only [Memory.read, if_neg hk]
    exact ih fun c hc => h c (List.mem_cons_of_mem _ hc)

theorem Memory.read_consCell {m : List Host.Cell} {a : Nat} {b : Byte} (h : ∀ c ∈ m, a < c.1) (x : Nat) :
    Memory.read (Memory.consCell a b m) x = if a = x then b else Memory.read m x := by
  unfold Memory.consCell
  split
  · rename_i hb
    split
    · rename_i hx
      subst hx
      rw [hb]
      exact Memory.read_of_not_listed fun c hc => (Nat.ne_of_lt (h c hc)).symm
    · rfl
  · rfl

/-- Read after write: the written byte at its address, every other byte as before. -/
theorem Memory.read_write {m : List Host.Cell} (h : Memory.wf m = true) (a : Nat) (b : Byte) (x : Nat) :
    Memory.read (Memory.write m a b) x = if a = x then b else Memory.read m x := by
  induction m with
  | nil => exact Memory.read_consCell (by simp) x
  | cons d m ih =>
    obtain ⟨k, e⟩ := d
    have hlt := Memory.wf_head_lt h
    simp only [Memory.write]
    split
    · rename_i hak
      refine Memory.read_consCell ?_ x
      intro c hc
      rcases List.mem_cons.mp hc with rfl | hc
      · exact hak
      · exact Nat.lt_trans hak (hlt c hc)
    · split
      · rename_i _ hak
        subst hak
        rw [Memory.read_consCell hlt]
        simp only [Memory.read]
        split <;> rfl
      · rename_i h1 h2
        simp only [Memory.read, ih (Memory.wf_tail h)]
        split
        · rename_i hkx
          subst hkx
          rw [if_neg h2]
        · rfl

/-- A write leaves every other address alone, whatever the form of the memory. -/
theorem Memory.read_write_ne (m : List Host.Cell) (a : Nat) (b : Byte) (x : Nat) (h : x ≠ a) :
    Memory.read (Memory.write m a b) x = Memory.read m x := by
  have hc : ∀ m, Memory.read (Memory.consCell a b m) x = Memory.read m x := by
    intro m
    unfold Memory.consCell
    split
    · rfl
    · simp [Memory.read, h.symm]
  induction m with
  | nil => exact hc []
  | cons d m ih =>
    obtain ⟨k, e⟩ := d
    simp only [Memory.write]
    split
    · exact hc _
    · split
      · rename_i _ hak
        subst hak
        rw [hc]
        simp [Memory.read, h.symm]
      · simp only [Memory.read, ih]

/-- Writing a list of bytes leaves every address outside it alone, whatever the form of the memory. -/
theorem Memory.read_writeList_ne (m : List Host.Cell) (a : Nat) (bs : List Byte) (x : Nat)
    (h : x < a ∨ a + bs.length ≤ x) : Memory.read (Memory.writeList m a bs) x = Memory.read m x := by
  induction bs generalizing m a with
  | nil => rfl
  | cons b bs ih =>
    simp only [List.length_cons] at h
    rw [Memory.writeList, ih _ _ (by omega), Memory.read_write_ne _ _ _ _ (by omega)]

/-- Read after writing a list of bytes: the bytes on their addresses, every other byte as before. -/
theorem Memory.read_writeList {m : List Host.Cell} (h : Memory.wf m = true) (a : Nat) (bs : List Byte) (x : Nat) :
    Memory.read (Memory.writeList m a bs) x =
      if a ≤ x ∧ x < a + bs.length then bs.getD (x - a) 0x00#8 else Memory.read m x := by
  induction bs generalizing m a with
  | nil =>
    have : ¬ (a ≤ x ∧ x < a + ([] : List Byte).length) := by simp
    rw [if_neg this]; rfl
  | cons b bs ih =>
    simp only [Memory.writeList]
    rw [ih (Memory.wf_write a b h) (a + 1), Memory.read_write h]
    by_cases hx : a = x
    · subst hx
      simp
    · by_cases h1 : a + 1 ≤ x ∧ x < a + 1 + bs.length
      · have h2 : a ≤ x ∧ x < a + (b :: bs).length := by simp; omega
        rw [if_pos h1, if_pos h2]
        have : x - a = (x - (a + 1)) + 1 := by omega
        rw [this, List.getD_cons_succ]
      · have h2 : ¬ (a ≤ x ∧ x < a + (b :: bs).length) := by simp; omega
        rw [if_neg h1, if_neg h2, if_neg hx]

/-- Two canonical memories that read alike everywhere are the same list. -/
theorem Memory.ext_of_read {m n : List Host.Cell} (hm : Memory.wf m = true) (hn : Memory.wf n = true)
    (h : ∀ a, Memory.read m a = Memory.read n a) : m = n := by
  induction m generalizing n with
  | nil =>
    cases n with
    | nil => rfl
    | cons d n =>
      obtain ⟨k, e⟩ := d
      have := h k
      simp only [Memory.read, if_true] at this
      exact absurd this.symm (Memory.wf_head_ne hn)
  | cons d m ih =>
    obtain ⟨k, e⟩ := d
    cases n with
    | nil =>
      have := h k
      simp only [Memory.read, if_true] at this
      exact absurd this (Memory.wf_head_ne hm)
    | cons d' n =>
      obtain ⟨k', e'⟩ := d'
      have hltm := Memory.wf_head_lt hm
      have hltn := Memory.wf_head_lt hn
      have hk : k = k' := by
        rcases Nat.lt_trichotomy k k' with hlt | heq | hgt
        · have h1 := h k
          have h2 : Memory.read ((k', e') :: n) k = Memory.unlisted k := by
            refine Memory.read_of_not_listed fun c hc => ?_
            rcases List.mem_cons.mp hc with rfl | hc
            · exact (Nat.ne_of_lt hlt).symm
            · exact (Nat.ne_of_lt (Nat.lt_trans hlt (hltn c hc))).symm
          rw [h2] at h1
          simp only [Memory.read, if_true] at h1
          exact absurd h1 (Memory.wf_head_ne hm)
        · exact heq
        · have h1 := h k'
          have h2 : Memory.read ((k, e) :: m) k' = Memory.unlisted k' := by
            refine Memory.read_of_not_listed fun c hc => ?_
            rcases List.mem_cons.mp hc with rfl | hc
            · exact (Nat.ne_of_lt hgt).symm
            · exact (Nat.ne_of_lt (Nat.lt_trans hgt (hltm c hc))).symm
          rw [h2] at h1
          simp only [Memory.read, if_true] at h1
          exact absurd h1.symm (Memory.wf_head_ne hn)
      subst hk
      have he : e = e' := by simpa [Memory.read] using h k
      subst he
      have htail : ∀ a, Memory.read m a = Memory.read n a := by
        intro a
        by_cases ha : k = a
        · subst ha
          rw [Memory.read_of_not_listed fun c hc => (Nat.ne_of_lt (hltm c hc)).symm,
            Memory.read_of_not_listed fun c hc => (Nat.ne_of_lt (hltn c hc)).symm]
        · simpa [Memory.read, ha] using h a
      rw [ih (Memory.wf_tail hm) (Memory.wf_tail hn) htail]

end Sys2Proof.Machine
end

