-- ==== Sys2Proof/Laws/State.lean ====
section
/-!
SUPPORT. What each named update of the state does to each field: one lemma per field and update, tagged for simp, so that
no later proof unfolds a record update.
-/

namespace Sys2Proof.Machine

variable (s : State) (r r' : Reg) (v p : Word) (k : ErrorKind) (o : Option ErrorKind)

/-! ### Registers -/

@[simp] theorem readReg_writeReg : (s.writeReg r v).readReg r' = if r = r' then v else s.readReg r' := by
  unfold State.readReg State.writeReg
  by_cases h : r = r'
  · subst h
    simp
  · have h' : (r : Nat) ≠ (r' : Nat) := fun e => h (Fin.ext e)
    simp [h, h']

theorem readReg_writeReg_same : (s.writeReg r v).readReg r = v := by simp

@[simp] theorem readReg_forceZero : s.forceZero.readReg r = if r = 0 then 0#32 else s.readReg r := by
  have h : s.forceZero = s.writeReg 0 0#32 := rfl
  rw [h, readReg_writeReg]
  by_cases h : r = 0
  · simp [h]
  · simp [h, Ne.symm h]

@[simp] theorem readReg_close : (s.close p o).readReg r = if r = 0 then 0#32 else s.readReg r :=
  readReg_forceZero s r

@[simp] theorem readReg_retire : s.retire.readReg r = if r = 0 then 0#32 else s.readReg r :=
  readReg_forceZero s r

@[simp] theorem readReg_retireAt : (s.retireAt p).readReg r = if r = 0 then 0#32 else s.readReg r :=
  readReg_forceZero s r

@[simp] theorem readReg_raiseTrap : (s.raiseTrap k).readReg r = if r = 0 then 0#32 else s.readReg r :=
  readReg_forceZero s r

@[simp] theorem readReg_fetchTrap : s.fetchTrap.readReg r = if r = 0 then 0#32 else s.readReg r :=
  readReg_forceZero s r

@[simp] theorem readReg_halt : s.halt.readReg r = s.readReg r := rfl
@[simp] theorem readReg_withMem (m : List Host.Cell) : State.readReg { s with mem := m } r = s.readReg r := rfl
@[simp] theorem readReg_withUart (u : Uart) : State.readReg { s with uart := u } r = s.readReg r := rfl
@[simp] theorem readReg_withHost (h : HostChannel) : State.readReg { s with host := h } r = s.readReg r := rfl

/-! ### pc -/

@[simp] theorem pc_writeReg : (s.writeReg r v).pc = s.pc := rfl
@[simp] theorem pc_forceZero : s.forceZero.pc = s.pc := rfl
@[simp] theorem pc_close : (s.close p o).pc = p := rfl
@[simp] theorem pc_retire : s.retire.pc = s.pc + 4#32 := rfl
@[simp] theorem pc_retireAt : (s.retireAt p).pc = p := rfl
@[simp] theorem pc_raiseTrap : (s.raiseTrap k).pc = s.pc + 4#32 := rfl
@[simp] theorem pc_fetchTrap : s.fetchTrap.pc = s.pc := rfl
@[simp] theorem pc_halt : s.halt.pc = s.pc := rfl

/-! ### mem -/

@[simp] theorem mem_writeReg : (s.writeReg r v).mem = s.mem := rfl
@[simp] theorem mem_forceZero : s.forceZero.mem = s.mem := rfl
@[simp] theorem mem_close : (s.close p o).mem = s.mem := rfl
@[simp] theorem mem_retire : s.retire.mem = s.mem := rfl
@[simp] theorem mem_retireAt : (s.retireAt p).mem = s.mem := rfl
@[simp] theorem mem_raiseTrap : (s.raiseTrap k).mem = s.mem := rfl
@[simp] theorem mem_fetchTrap : s.fetchTrap.mem = s.mem := rfl
@[simp] theorem mem_halt : s.halt.mem = s.mem := rfl

/-! ### uart -/

@[simp] theorem uart_writeReg : (s.writeReg r v).uart = s.uart := rfl
@[simp] theorem uart_forceZero : s.forceZero.uart = s.uart := rfl
@[simp] theorem uart_close : (s.close p o).uart = s.uart := rfl
@[simp] theorem uart_retire : s.retire.uart = s.uart := rfl
@[simp] theorem uart_retireAt : (s.retireAt p).uart = s.uart := rfl
@[simp] theorem uart_raiseTrap : (s.raiseTrap k).uart = s.uart := rfl
@[simp] theorem uart_fetchTrap : s.fetchTrap.uart = s.uart := rfl
@[simp] theorem uart_halt : s.halt.uart = s.uart := rfl

/-! ### csr -/

@[simp] theorem csr_writeReg : (s.writeReg r v).csr = s.csr := rfl
@[simp] theorem csr_forceZero : s.forceZero.csr = s.csr := rfl
@[simp] theorem csr_close : (s.close p o).csr = s.csr := rfl
@[simp] theorem csr_retire : s.retire.csr = s.csr := rfl
@[simp] theorem csr_retireAt : (s.retireAt p).csr = s.csr := rfl
@[simp] theorem csr_raiseTrap : (s.raiseTrap k).csr = s.csr := rfl
@[simp] theorem csr_fetchTrap : s.fetchTrap.csr = s.csr := rfl
@[simp] theorem csr_halt : s.halt.csr = s.csr := rfl

/-! ### halted -/

@[simp] theorem halted_writeReg : (s.writeReg r v).halted = s.halted := rfl
@[simp] theorem halted_forceZero : s.forceZero.halted = s.halted := rfl
@[simp] theorem halted_close : (s.close p o).halted = s.halted := rfl
@[simp] theorem halted_retire : s.retire.halted = s.halted := rfl
@[simp] theorem halted_retireAt : (s.retireAt p).halted = s.halted := rfl
@[simp] theorem halted_raiseTrap : (s.raiseTrap k).halted = s.halted := rfl
@[simp] theorem halted_fetchTrap : s.fetchTrap.halted = s.halted := rfl
@[simp] theorem halted_halt : s.halt.halted = true := rfl

/-! ### host -/

@[simp] theorem host_writeReg : (s.writeReg r v).host = s.host := rfl
@[simp] theorem host_forceZero : s.forceZero.host = s.host := rfl
@[simp] theorem host_close : (s.close p o).host = s.host := rfl
@[simp] theorem host_retire : s.retire.host = s.host := rfl
@[simp] theorem host_retireAt : (s.retireAt p).host = s.host := rfl
@[simp] theorem host_raiseTrap : (s.raiseTrap k).host = s.host := rfl
@[simp] theorem host_fetchTrap : s.fetchTrap.host = s.host := rfl
@[simp] theorem host_halt : s.halt.host = s.host := rfl

/-! ### params -/

@[simp] theorem params_writeReg : (s.writeReg r v).params = s.params := rfl
@[simp] theorem params_forceZero : s.forceZero.params = s.params := rfl
@[simp] theorem params_close : (s.close p o).params = s.params := rfl
@[simp] theorem params_retire : s.retire.params = s.params := rfl
@[simp] theorem params_retireAt : (s.retireAt p).params = s.params := rfl
@[simp] theorem params_raiseTrap : (s.raiseTrap k).params = s.params := rfl
@[simp] theorem params_fetchTrap : s.fetchTrap.params = s.params := rfl
@[simp] theorem params_halt : s.halt.params = s.params := rfl

/-! ### report -/

@[simp] theorem report_writeReg : (s.writeReg r v).report = s.report := rfl
@[simp] theorem report_forceZero : s.forceZero.report = s.report := rfl
@[simp] theorem report_close : (s.close p o).report = o := rfl
@[simp] theorem report_retire : s.retire.report = none := rfl
@[simp] theorem report_retireAt : (s.retireAt p).report = none := rfl
@[simp] theorem report_raiseTrap : (s.raiseTrap k).report = some k := rfl
@[simp] theorem report_fetchTrap : s.fetchTrap.report = some .inaccessibleMemory := rfl
@[simp] theorem report_halt : s.halt.report = some .invalidInstructionEncoding := rfl

@[simp] theorem nextPc_eq : s.nextPc = s.pc + 4#32 := rfl

/-! ### The host channel -/

section Host

variable (h : HostChannel) (q x bs : List Byte) (a l : List (List Byte)) (n : Nat)

@[simp] theorem sends_nil (u : HostLater) : HostChannel.sends ⟨q, x, [], u⟩ = u.sends := rfl
@[simp] theorem sends_cons (u : HostLater) : HostChannel.sends ⟨q, x, bs :: a, u⟩ = bs := rfl
@[simp] theorem sends_repeats : (HostLater.repeats l).sends = l.headD [] := rfl
@[simp] theorem sends_free : (HostLater.free n).sends = Config.hostSends n := rfl
@[simp] theorem advance_nil (u : HostLater) : HostChannel.advance ⟨q, x, [], u⟩ = ⟨q, x, [], u.advance⟩ := rfl
@[simp] theorem advance_cons (u : HostLater) : HostChannel.advance ⟨q, x, bs :: a, u⟩ = ⟨q, x, a, u⟩ := rfl
@[simp] theorem advance_repeats : (HostLater.repeats l).advance = .repeats (l.tail ++ l.take 1) := rfl
@[simp] theorem advance_free : (HostLater.free n).advance = .free (n + 1) := rfl
@[simp] theorem rxq_hostArrive : (hostArrive h).rxq = h.rxq ++ h.sends := rfl
@[simp] theorem arrivals_hostArrive : (hostArrive h).arrivals = h.advance.arrivals := rfl
@[simp] theorem later_hostArrive : (hostArrive h).later = h.advance.later := rfl
@[simp] theorem txlog_advance : h.advance.txlog = h.txlog := by
  unfold HostChannel.advance; split <;> rfl
@[simp] theorem txlog_hostArrive : (hostArrive h).txlog = h.txlog := txlog_advance h

end Host

end Sys2Proof.Machine
end

