-- ==== Sys2Proof/Laws/Dispatcher.lean ====
section
/-!
SUPPORT. The address-space dispatcher: which region an address lies in, and everything one byte load, one byte store and
a multi-byte access can do.
-/

namespace Sys2Proof.Machine

/-! ### The address map -/

/-- The map's constraints as one conjunction (20_memory.md R31). -/
theorem AddressMap_wf_iff (m : AddressMap) : m.wf = true ↔ m.Ranged ∧ m.Disjoint ∧ m.UartWindow := by
  simp only [AddressMap.wf, decide_eq_true_eq]

/-- Allowed parameters have an allowed map. -/
theorem Params_wf_map {p : Params} (h : p.wf = true) : p.map.wf = true := by
  simp only [Params.wf, Bool.and_eq_true] at h
  exact h.1

/-- The reference configuration is allowed (20_memory.md R31). -/
theorem reference_wf : Config.params.wf = true := by decide

/-- Region lookup by ranges, in table order (20_memory.md R31, R32). -/
theorem regionAt_eq (m : AddressMap) (a : Word) :
    regionAt m a =
      if inRom m a.toNat then some ⟨.rom, m.romBase, m.romLast, true, false⟩
      else if inRam m a.toNat then some ⟨.ram, m.ramBase, m.ramLast, true, true⟩
      else if inUart m a.toNat then some ⟨.uart, m.uartBase, m.uartLast, true, true⟩
      else none := by
  have step : ∀ (r : Region) (l : List Region), regionIn (r :: l) a =
      if r.first ≤ a.toNat ∧ a.toNat ≤ r.last then some r else regionIn l a := by
    intro r l
    simp only [regionIn, List.find?]
    by_cases h1 : r.first ≤ a.toNat <;> by_cases h2 : a.toNat ≤ r.last <;> simp [h1, h2]
  simp only [regionAt, regionsOf, step]
  rfl

section Map

variable {s : State} (hm : s.params.map.wf = true) {a : Word}

include hm

/-- Regions never overlap: an address is in one at most (20_memory.md R31). -/
theorem not_inRom_of_inRam {x : Nat} (h : inRam s.params.map x) : ¬ inRom s.params.map x := by
  obtain ⟨-, h2, -⟩ := (AddressMap_wf_iff _).mp hm
  omega

theorem not_stored_of_inUart {x : Nat} (h : inUart s.params.map x) : ¬ inRom s.params.map x ∧ ¬ inRam s.params.map x := by
  obtain ⟨-, h2, -⟩ := (AddressMap_wf_iff _).mp hm
  omega

omit hm in
/-- A load from ROM or RAM: the byte, and no side effect (20_memory.md R35, R36, R45). -/
theorem loadByte_stored (h : stored s.params.map a.toNat) : loadByte a s = .ok (Memory.read s.mem a.toNat, s) := by
  unfold loadByte
  rw [regionAt_eq]
  by_cases h1 : inRom s.params.map a.toNat
  · rw [if_pos h1]; rfl
  · rw [if_neg h1, if_pos (h.resolve_left h1)]; rfl

/-- A load from the UART window (20_memory.md R37). -/
theorem loadByte_uart (h : inUart s.params.map a.toNat) :
    loadByte a s = .ok ((uartLoad s.params a s.uart).1, { s with uart := (uartLoad s.params a s.uart).2 }) := by
  obtain ⟨h1, h2⟩ := not_stored_of_inUart hm h
  unfold loadByte
  rw [regionAt_eq, if_neg h1, if_neg h2, if_pos h]
  rfl

omit hm in
/-- A load from an unmapped address (20_memory.md R33, R54). -/
theorem loadByte_unmapped (h : unmapped s.params.map a.toNat) : loadByte a s = .error .unmapped := by
  unfold loadByte
  rw [regionAt_eq, if_neg h.1, if_neg h.2.1, if_neg h.2.2]

omit hm in
/-- A store to ROM is denied (20_memory.md R35). -/
theorem storeByte_rom (h : inRom s.params.map a.toNat) (b : Byte) : storeByte a b s = .error .denied := by
  unfold storeByte
  rw [regionAt_eq, if_pos h]
  rfl

/-- A store to RAM (20_memory.md R36). -/
theorem storeByte_ram (h : inRam s.params.map a.toNat) (b : Byte) :
    storeByte a b s = .ok { s with mem := Memory.write s.mem a.toNat b } := by
  unfold storeByte
  rw [regionAt_eq, if_neg (not_inRom_of_inRam hm h), if_pos h]
  rfl

/-- A store to the UART window (20_memory.md R37). -/
theorem storeByte_uart (h : inUart s.params.map a.toNat) (b : Byte) :
    storeByte a b s = .ok { s with uart := uartStore s.params.map a b s.uart } := by
  obtain ⟨h1, h2⟩ := not_stored_of_inUart hm h
  unfold storeByte
  rw [regionAt_eq, if_neg h1, if_neg h2, if_pos h]
  rfl

omit hm in
/-- A store to an unmapped address (20_memory.md R34, R54). -/
theorem storeByte_unmapped (h : unmapped s.params.map a.toNat) (b : Byte) : storeByte a b s = .error .unmapped := by
  unfold storeByte
  rw [regionAt_eq, if_neg h.1, if_neg h.2.1, if_neg h.2.2]

/-! ### The UART's two addresses (20_memory.md R37) -/

theorem inUart_iff (x : Nat) :
    inUart s.params.map x ↔ x = s.params.map.uartBase ∨ x = s.params.map.uartBase + 1 := by
  obtain ⟨-, -, h3⟩ := (AddressMap_wf_iff _).mp hm
  omega

omit hm in
theorem uartSelectsData_status (h : a.toNat = s.params.map.uartBase) : uartSelectsData s.params.map a = false := by
  simp [uartSelectsData, h]

omit hm in
theorem uartSelectsData_data (h : a.toNat = s.params.map.uartBase + 1) : uartSelectsData s.params.map a = true := by
  simp [uartSelectsData, h]

/-- A load of STATUS (60_exceptions.md R210). -/
theorem loadByte_status (h : a.toNat = s.params.map.uartBase) : loadByte a s = .ok (statusByte s.params s.uart, s) := by
  rw [loadByte_uart hm ((inUart_iff hm _).mpr (.inl h))]
  simp [uartLoad, uartSelectsData_status h]

/-- A load of DATA (60_exceptions.md R209). -/
theorem loadByte_data (h : a.toNat = s.params.map.uartBase + 1) :
    loadByte a s = .ok (s.uart.dataIn, { s with uart := { s.uart with newdat := false } }) := by
  rw [loadByte_uart hm ((inUart_iff hm _).mpr (.inr h))]
  simp [uartLoad, uartSelectsData_data h]

/-- A store to STATUS (60_exceptions.md R213). -/
theorem storeByte_status (h : a.toNat = s.params.map.uartBase) (b : Byte) : storeByte a b s = .ok s := by
  rw [storeByte_uart hm ((inUart_iff hm _).mpr (.inl h))]
  simp [uartStore, uartSelectsData_status h]

/-- A store to DATA (60_exceptions.md R212). -/
theorem storeByte_data (h : a.toNat = s.params.map.uartBase + 1) (b : Byte) :
    storeByte a b s = .ok { s with uart := { s.uart with dataOut := b, txdone := false } } := by
  rw [storeByte_uart hm ((inUart_iff hm _).mpr (.inr h))]
  simp [uartStore, uartSelectsData_data h]

/-! ### What a byte load sees -/

/-- A byte load in terms of `seenByte` and `afterLoads`: everything it can answer (20_memory.md R33). -/
theorem loadByte_seen :
    (∀ b, seenByte s a.toNat = some b → loadByte a s = .ok (b, afterLoads s a 1)) ∧
    (seenByte s a.toNat = none → loadByte a s = .error .unmapped) := by
  obtain ⟨m1, m2, m3⟩ := (AddressMap_wf_iff _).mp hm
  have ha := a.isLt
  unfold seenByte afterLoads
  by_cases h1 : stored s.params.map a.toNat
  · rw [if_pos h1]
    refine ⟨fun b hb => ?_, by simp⟩
    cases hb
    rw [loadByte_stored h1, if_neg (by omega)]
  · rw [if_neg h1]
    by_cases h2 : a.toNat = s.params.map.uartBase
    · rw [if_pos h2]
      refine ⟨fun b hb => ?_, by simp⟩
      cases hb
      rw [loadByte_status hm h2, if_neg (by omega)]
    · rw [if_neg h2]
      by_cases h3 : a.toNat = s.params.map.uartBase + 1
      · rw [if_pos h3]
        refine ⟨fun b hb => ?_, by simp⟩
        cases hb
        rw [loadByte_data hm h3, if_pos (by omega)]
      · rw [if_neg h3]
        refine ⟨by simp, fun _ => loadByte_unmapped ?_⟩
        have := (inUart_iff hm a.toNat).not.mpr (by omega)
        exact ⟨fun h => h1 (.inl h), fun h => h1 (.inr h), this⟩

/-- Where a byte is not seen is where no region is (20_memory.md R54). -/
theorem seenByte_none_iff (x : Nat) : seenByte s x = none ↔ unmapped s.params.map x := by
  have hu := inUart_iff hm x
  unfold seenByte
  by_cases h1 : stored s.params.map x
  · rw [if_pos h1]
    simp only [reduceCtorEq, false_iff]
    intro h
    rcases h1 with h1 | h1
    · exact h.1 h1
    · exact h.2.1 h1
  · rw [if_neg h1]
    by_cases h2 : x = s.params.map.uartBase
    · rw [if_pos h2]
      simp only [reduceCtorEq, false_iff]
      exact fun h => h.2.2 (hu.mpr (.inl h2))
    · rw [if_neg h2]
      by_cases h3 : x = s.params.map.uartBase + 1
      · rw [if_pos h3]
        simp only [reduceCtorEq, false_iff]
        exact fun h => h.2.2 (hu.mpr (.inr h3))
      · rw [if_neg h3]
        simp only [true_iff]
        exact ⟨fun h => h1 (.inl h), fun h => h1 (.inr h), fun h => (hu.mp h).elim h2 h3⟩

omit hm in
/-- A byte of ROM or RAM is seen. -/
theorem seenByte_stored {x : Nat} (h : stored s.params.map x) : seenByte s x = some (Memory.read s.mem x) := by
  unfold seenByte
  rw [if_pos h]

end Map

/-- Every address is stored, in the UART window, or unmapped (20_memory.md R54). -/
theorem address_cases (m : AddressMap) (a : Nat) : stored m a ∨ inUart m a ∨ unmapped m a := by
  by_cases h1 : stored m a
  · exact .inl h1
  · by_cases h2 : inUart m a
    · exact .inr (.inl h2)
    · exact .inr (.inr ⟨fun h => h1 (.inl h), fun h => h1 (.inr h), h2⟩)

/-- Everything a byte load can do to the state, whatever the map: at most the UART changes (20_memory.md R45). -/
theorem loadByte_state {a : Word} {s t : State} {b : Byte} (h : loadByte a s = .ok (b, t)) :
    ∃ u, t = { s with uart := u } ∧ (u = s.uart ∨ u = { s.uart with newdat := false }) := by
  unfold loadByte at h
  rw [regionAt_eq] at h
  have uart : ∀ {c : Byte} {t : State},
      (.ok ((uartLoad s.params a s.uart).1, { s with uart := (uartLoad s.params a s.uart).2 }) : Except AccessError _)
        = .ok (c, t) → ∃ u, t = { s with uart := u } ∧ (u = s.uart ∨ u = { s.uart with newdat := false }) := by
    intro c t h
    cases h
    refine ⟨_, rfl, ?_⟩
    unfold uartLoad
    split
    · exact .inr rfl
    · exact .inl rfl
  split at h
  · cases h
  · rename_i r hr
    split_ifs at hr <;> cases hr
    · cases h; exact ⟨s.uart, rfl, .inl rfl⟩
    · cases h; exact ⟨s.uart, rfl, .inl rfl⟩
    · exact uart h

/-- Everything a byte store can do to the state, whatever the map: one RAM byte outside ROM, or the UART's output side
(20_memory.md R45). -/
theorem storeByte_state {a : Word} {b : Byte} {s t : State} (h : storeByte a b s = .ok t) :
    (inRam s.params.map a.toNat ∧ ¬ inRom s.params.map a.toNat ∧
      t = { s with mem := Memory.write s.mem a.toNat b }) ∨
    (inUart s.params.map a.toNat ∧ t = { s with uart := uartStore s.params.map a b s.uart }) := by
  unfold storeByte at h
  rw [regionAt_eq] at h
  split at h
  · cases h
  · rename_i r hr
    split_ifs at hr <;> cases hr
    · cases h
    · cases h; exact .inl ⟨‹_›, ‹_›, rfl⟩
    · cases h; exact .inr ⟨‹_›, rfl⟩

/-- Everything the byte loads of an access can do to the state: at most the UART changes. -/
theorem loadBytes_state (n : Nat) (a : Word) (s : State) :
    ∃ u, (loadBytes n a s).2 = { s with uart := u } ∧ (u = s.uart ∨ u = { s.uart with newdat := false }) := by
  induction n generalizing a s with
  | zero => exact ⟨s.uart, rfl, .inl rfl⟩
  | succ n ih =>
    unfold loadBytes
    cases h : loadByte a s with
    | error e => exact ⟨s.uart, rfl, .inl rfl⟩
    | ok p =>
      obtain ⟨b, s1⟩ := p
      obtain ⟨u, rfl, hu⟩ := loadByte_state h
      obtain ⟨u', h', hu'⟩ := ih (a + 1) { s with uart := u }
      refine ⟨u', h', ?_⟩
      rcases hu with rfl | rfl <;> rcases hu' with rfl | rfl <;> simp

/-- A predicate of the state that single byte stores keep, the stores of an access keep. -/
theorem storeBytes_induction {P : State → Prop}
    (hram : ∀ s a b, inRam s.params.map a → ¬ inRom s.params.map a → P s → P { s with mem := Memory.write s.mem a b })
    (huart : ∀ s a b, P s → P { s with uart := uartStore s.params.map a b s.uart })
    (bs : List Byte) (a : Word) (s : State) (h : P s) : P (storeBytes bs a s).2 := by
  induction bs generalizing a s with
  | nil => exact h
  | cons b bs ih =>
    unfold storeBytes
    cases hb : storeByte a b s with
    | error e => exact h
    | ok s1 =>
      rcases storeByte_state hb with ⟨hr, hn, rfl⟩ | ⟨_, rfl⟩
      · exact ih _ _ (hram _ _ _ hr hn h)
      · exact ih _ _ (huart _ _ _ h)

/-- The stores of an access leave everything but memory and the UART as it was. -/
theorem storeBytes_frame (bs : List Byte) (a : Word) (s : State) :
    ∃ m u, (storeBytes bs a s).2 = { s with mem := m, uart := u } :=
  storeBytes_induction (P := fun t => ∃ m u, t = { s with mem := m, uart := u })
    (by rintro _ _ _ - - ⟨m, u, rfl⟩; exact ⟨_, _, rfl⟩) (by rintro _ _ _ ⟨m, u, rfl⟩; exact ⟨_, _, rfl⟩)
    bs a s ⟨s.mem, s.uart, rfl⟩

end Sys2Proof.Machine
end

