-- ==== Sys2Proof/Laws/Ops.lean ====
section
/-!
SUPPORT. One lemma per shared operation that says everything it can do: closing a cycle, writing a result, branching,
jumping, loading, storing; what the byte accesses of an access can answer, at any map; the poll.
-/

namespace Sys2Proof.Machine

/-! ### Closing a cycle -/

/-- Closing a cycle is what `Closes` says. -/
theorem closes_close (s : State) (p : Word) (o : Option ErrorKind) : Closes s (s.close p o) p o where
  zero   := by simp
  regs r hr := by simp [hr]
  pc     := rfl
  report := rfl
  mem _  := rfl
  uart   := rfl
  csr    := rfl
  halted := rfl
  host   := rfl
  params := rfl

theorem closes_retire (s : State) : Closes s s.retire (s.pc + 4#32) none := closes_close s _ _

theorem closes_retireAt (s : State) (t : Word) : Closes s (s.retireAt t) t none := closes_close s _ _

theorem closes_raiseTrap (s : State) (k : ErrorKind) : Closes s (s.raiseTrap k) (s.pc + 4#32) (some k) :=
  closes_close s _ _

theorem closes_fetchTrap (s : State) : Closes s s.fetchTrap s.pc (some .inaccessibleMemory) := closes_close s _ _

/-- Writing rd and closing the cycle is what `RegResult` says, for any rd, x0 included. -/
theorem regResult_close (s : State) (rd : Reg) (v p : Word) :
    RegResult s ((s.writeReg rd v).close p none) rd v p where
  zero   := by simp
  result h := by simp [h]
  regs r h0 hr := by simp [h0, Ne.symm hr]
  pc     := rfl
  report := rfl
  mem _  := rfl
  uart   := rfl
  csr    := rfl
  halted := rfl
  host   := rfl
  params := rfl

/-- Everything `writeResult` can do. -/
theorem writeResult_spec (rd : Reg) (v : Word) (s : State) :
    ∃ t, writeResult rd v s = .next t ∧ RegResult s t rd v (s.pc + 4#32) :=
  ⟨_, rfl, regResult_close s rd v _⟩

/-- Everything `jumpAndLink` can do. -/
theorem jumpAndLink_spec (rd : Reg) (p : Word) (s : State) :
    ∃ t, jumpAndLink rd p s = .next t ∧ RegResult s t rd (s.pc + 4#32) p :=
  ⟨_, rfl, regResult_close s rd _ p⟩

/-- Everything `branchIf` can do. -/
theorem branchIf_spec (c : Bool) (p : Word) (s : State) :
    ∃ t, branchIf c p s = .next t ∧ Closes s t (if c then p else s.pc + 4#32) none := by
  cases c
  · exact ⟨_, rfl, closes_retire s⟩
  · exact ⟨_, rfl, closes_retireAt s p⟩

/-! ### Addresses of an access -/

theorem toNat_add_one {a : Word} (h : a.toNat < 2 ^ 32 - 1) : (a + 1).toNat = a.toNat + 1 := by
  rw [BitVec.toNat_add]
  have : (1 : Word).toNat = 1 := rfl
  omega

theorem stored_lt {m : AddressMap} (hm : m.wf = true) {a : Nat} (h : stored m a) : a < 2 ^ 32 := by
  obtain ⟨h1, -, -⟩ := (AddressMap_wf_iff _).mp hm
  omega

/-- The last byte of an aligned access is in the address space: "An aligned halfword or word access never wraps inside
itself" (20_memory.md R43). -/
theorem aligned_bound {n : Nat} (hn : n ∣ 2 ^ 32) {a : Word} (ha : aligned n a = true) : a.toNat + n ≤ 2 ^ 32 := by
  simp only [aligned, beq_iff_eq] at ha
  obtain ⟨c, hc⟩ := hn
  obtain ⟨d, hd⟩ := Nat.dvd_of_mod_eq_zero ha
  have hlt := a.isLt
  rw [hd, hc] at hlt
  have : d + 1 ≤ c := Nat.lt_of_mul_lt_mul_left hlt
  calc a.toNat + n = n * (d + 1) := by rw [hd]; ring
    _ ≤ n * c := Nat.mul_le_mul_left n this
    _ = 2 ^ 32 := hc.symm

/-! ### The value of a list of bytes -/

/-- The word of a list of bytes is its number (20_memory.md R38). -/
theorem leWord_eq_leNat (bs : List Byte) : leWord bs = BitVec.ofNat 32 (leNat bs) := by
  induction bs with
  | nil => rfl
  | cons b bs ih =>
    rw [leWord, ih, leNat]
    apply BitVec.eq_of_toNat_eq
    have hb := b.isLt
    have e : (leNat bs % 2 ^ 32) <<< 8 % 2 ^ 32 = (leNat bs % 2 ^ 24) <<< 8 := by
      simp only [Nat.shiftLeft_eq]; omega
    rw [BitVec.toNat_or, BitVec.toNat_shiftLeft, BitVec.toNat_ofNat, BitVec.toNat_setWidth, BitVec.toNat_ofNat, e,
      Nat.mod_eq_of_lt (by omega), Nat.or_comm, ← Nat.shiftLeft_add_eq_or_of_lt hb]
    simp only [Nat.shiftLeft_eq]
    omega

/-- The bytes of a word, and any prefix of them (20_memory.md R41). -/
theorem leBytes_eq_bytesOf (n : Nat) (v : Word) : leBytes n v = bytesOf n v := by
  induction n generalizing v with
  | zero => rfl
  | succ n ih =>
    rw [leBytes, ih]
    simp only [bytesOf, List.range_succ_eq_map, List.map_cons, List.map_map]
    congr 1
    refine List.map_congr_left fun k _ => ?_
    apply BitVec.eq_of_getLsbD_eq
    intro i hi
    simp only [Function.comp_apply, BitVec.getLsbD_extractLsb', BitVec.getLsbD_ushiftRight]
    congr 2
    omega

@[simp] theorem bytesOf_length (n : Nat) (v : Word) : (bytesOf n v).length = n := by simp [bytesOf]

theorem bytesOf_take {k n : Nat} (h : k ≤ n) (v : Word) : (bytesOf n v).take k = bytesOf k v := by
  rw [bytesOf, ← List.map_take, List.take_range, Nat.min_eq_left h, bytesOf]

theorem bytesOf_getElem? {k n : Nat} (h : k < n) (v : Word) : (bytesOf n v)[k]? = some (v.extractLsb' (8 * k) 8) := by
  simp [bytesOf, h]

/-! ### Loads -/

theorem toNat_add_one_mod (a : Word) : (a + 1).toNat = (a.toNat + 1) % 2 ^ 32 := BitVec.toNat_add a 1

@[simp] theorem byteAddr_zero (a : Word) : byteAddr a 0 = a.toNat := Nat.mod_eq_of_lt a.isLt

/-- The bytes of an access after the first are those of an access one address higher. -/
theorem byteAddr_succ (a : Word) (k : Nat) : byteAddr (a + 1) k = byteAddr a (k + 1) := by
  unfold byteAddr
  rw [toNat_add_one_mod]
  omega

/-- In an access that does not wrap. -/
theorem byteAddr_eq {a : Word} {k : Nat} (h : a.toNat + k < 2 ^ 32) : byteAddr a k = a.toNat + k := Nat.mod_eq_of_lt h

@[simp] theorem params_afterLoads (s : State) (a : Word) (n : Nat) : (afterLoads s a n).params = s.params := by
  unfold afterLoads; split <;> rfl

@[simp] theorem pc_afterLoads (s : State) (a : Word) (n : Nat) : (afterLoads s a n).pc = s.pc := by
  unfold afterLoads; split <;> rfl

@[simp] theorem afterLoads_zero (s : State) (a : Word) : afterLoads s a 0 = s := by
  unfold afterLoads; rw [if_neg (by omega)]

/-- One load and then the rest. -/
theorem afterLoads_succ (s : State) (a : Word) (n : Nat) : afterLoads (afterLoads s a 1) (a + 1) n = afterLoads s a (n + 1) := by
  have ha := a.isLt
  have h1 := toNat_add_one_mod a
  have e : ∀ m, afterLoads s a m = if (s.params.map.uartBase + 1 + (2 ^ 32 - a.toNat)) % 2 ^ 32 < m then
      { s with uart := { s.uart with newdat := false } } else s := fun _ => rfl
  by_cases h0 : (s.params.map.uartBase + 1 + (2 ^ 32 - a.toNat)) % 2 ^ 32 < 1
  · rw [e, e, if_pos h0, if_pos (by omega)]
    unfold afterLoads
    split <;> rfl
  · rw [e, e, if_neg h0]
    unfold afterLoads
    by_cases h2 : (s.params.map.uartBase + 1 + (2 ^ 32 - (a + 1).toNat)) % 2 ^ 32 < n
    · rw [if_pos h2, if_pos (by omega)]
    · rw [if_neg h2, if_neg (by omega)]

/-- The load of an access's first byte does not change what its later bytes show. -/
theorem seenByte_afterLoads {s : State} (hm : s.params.map.wf = true) (a : Word) {k : Nat} (hk : k + 2 < 2 ^ 32) :
    seenByte (afterLoads s a 1) (byteAddr a (k + 1)) = seenByte s (byteAddr a (k + 1)) := by
  obtain ⟨h1, -, h3⟩ := (AddressMap_wf_iff _).mp hm
  have ha := a.isLt
  unfold afterLoads
  split
  · have hx : byteAddr a (k + 1) ≠ s.params.map.uartBase := by unfold byteAddr; omega
    unfold seenByte
    simp only [if_neg hx]
  · rfl

/-- Everything the byte loads of an access can answer, addresses modulo 2^32 (20_memory.md R40, R43). -/
theorem loadBytes_seen (n : Nat) (a : Word) (s : State) (hm : s.params.map.wf = true) (hn : n < 2 ^ 32) :
    (∀ bs : List Byte, bs.length = n → (∀ k, k < n → seenByte s (byteAddr a k) = bs[k]?) →
      loadBytes n a s = (some bs, afterLoads s a n)) ∧
    (∀ k, k < n → (∀ j, j < k → seenByte s (byteAddr a j) ≠ none) → seenByte s (byteAddr a k) = none →
      loadBytes n a s = (none, afterLoads s a k)) := by
  induction n generalizing a s with
  | zero =>
    refine ⟨fun bs hb _ => ?_, fun k hk => absurd hk (by omega)⟩
    rw [List.length_eq_zero_iff.mp hb, afterLoads_zero]
    rfl
  | succ n ih =>
    obtain ⟨hsome, hnone⟩ := loadByte_seen hm (a := a)
    have next : ∀ b, seenByte s a.toNat = some b → loadBytes (n + 1) a s =
        ((loadBytes n (a + 1) (afterLoads s a 1)).1.map (b :: ·), (loadBytes n (a + 1) (afterLoads s a 1)).2) := by
      intro b hb
      simp only [loadBytes, hsome b hb]
    have seen : ∀ k, k < n → seenByte (afterLoads s a 1) (byteAddr (a + 1) k) = seenByte s (byteAddr a (k + 1)) := by
      intro k hk
      rw [byteAddr_succ, seenByte_afterLoads hm a (by omega)]
    obtain ⟨ih1, ih2⟩ := ih (a + 1) (afterLoads s a 1) (by rwa [params_afterLoads]) (by omega)
    refine ⟨fun bs hb hs => ?_, fun k hk hs hk0 => ?_⟩
    · obtain ⟨b, bs, rfl⟩ : ∃ b l, bs = b :: l := by
        cases bs with
        | nil => simp at hb
        | cons b l => exact ⟨b, l, rfl⟩
      rw [next b (by simpa using hs 0 (by omega)), ih1 bs (by simpa using hb) (fun k hk => by
        rw [seen k hk, hs (k + 1) (by omega), List.getElem?_cons_succ]), afterLoads_succ]
      rfl
    · cases k with
      | zero =>
        rw [afterLoads_zero]
        simp only [loadBytes, hnone (by simpa using hk0)]
      | succ k =>
        obtain ⟨b, hb⟩ := Option.ne_none_iff_exists'.mp (hs 0 (by omega))
        rw [next b (by simpa using hb), ih2 k (by omega) (fun j hj => by rw [seen j (by omega)]; exact hs (j + 1) (by omega))
          (by rw [seen k (by omega)]; exact hk0), afterLoads_succ]
        rfl

/-- The value of an access all of whose bytes are seen. -/
theorem memRead_seen {n : Nat} {a : Word} {s : State} (hm : s.params.map.wf = true) (hn : n < 2 ^ 32)
    {bs : List Byte} (hb : bs.length = n) (hs : ∀ k, k < n → seenByte s (byteAddr a k) = bs[k]?) :
    memRead a n s = (some (BitVec.ofNat 32 (leNat bs)), afterLoads s a n) := by
  rw [memRead, (loadBytes_seen n a s hm hn).1 bs hb hs, ← leWord_eq_leNat]
  rfl

/-- An access that fails at its byte `k`. -/
theorem memRead_fails {n : Nat} {a : Word} {s : State} (hm : s.params.map.wf = true) (hn : n < 2 ^ 32)
    {k : Nat} (hk : k < n) (hs : ∀ j, j < k → seenByte s (byteAddr a j) ≠ none) (h0 : seenByte s (byteAddr a k) = none) :
    memRead a n s = (none, afterLoads s a k) := by
  rw [memRead, (loadBytes_seen n a s hm hn).2 k hk hs h0]
  rfl

/-- An access in ROM or RAM has no side effect (20_memory.md R45). -/
theorem afterLoads_stored {s : State} (hm : s.params.map.wf = true) {a : Word} {n : Nat}
    (h : ∀ k, k < n → stored s.params.map (byteAddr a k)) : afterLoads s a n = s := by
  obtain ⟨h1, -, h3⟩ := (AddressMap_wf_iff _).mp hm
  have ha := a.isLt
  unfold afterLoads
  rw [if_neg]
  intro hd
  have hs := h _ hd
  rw [show byteAddr a _ = s.params.map.uartBase + 1 by unfold byteAddr; omega] at hs
  have hu := not_stored_of_inUart hm ((inUart_iff hm _).mpr (.inr rfl))
  exact hs.elim hu.1 hu.2

/-- The value of an access in ROM or RAM, lowest address in bits 7:0, addresses modulo 2^32, and no side effect. -/
theorem memRead_stored_mod {n : Nat} {a : Word} {s : State} (hm : s.params.map.wf = true) (hn : n < 2 ^ 32)
    (h : ∀ k, k < n → stored s.params.map (byteAddr a k)) :
    memRead a n s = (some (BitVec.ofNat 32 (leNat ((List.range n).map fun k => Memory.read s.mem (byteAddr a k)))), s) := by
  rw [memRead_seen hm hn (bs := (List.range n).map fun k => Memory.read s.mem (byteAddr a k)) (by simp)
    (fun k hk => by rw [seenByte_stored (h k hk)]; simp [hk]), afterLoads_stored hm h]

/-- The same where no address wraps. -/
theorem memRead_stored {n : Nat} {a : Word} {s : State} (hm : s.params.map.wf = true) (hn : n < 2 ^ 32)
    (h : ∀ k, k < n → stored s.params.map (a.toNat + k)) :
    memRead a n s = (some (BitVec.ofNat 32 (leNat ((List.range n).map fun k => Memory.read s.mem (a.toNat + k)))), s) := by
  have e : ∀ k, k < n → byteAddr a k = a.toNat + k := fun k hk => byteAddr_eq (stored_lt hm (h k hk))
  rw [memRead_stored_mod hm hn (fun k hk => by rw [e k hk]; exact h k hk),
    List.map_congr_left fun k hk => by rw [e k (List.mem_range.mp hk)]]

/-- A byte of ROM or RAM. -/
theorem memRead_one {a : Word} {s : State} (hm : s.params.map.wf = true) (h : stored s.params.map a.toNat) :
    memRead a 1 s = (some ((Memory.read s.mem a.toNat).setWidth 32), s) := by
  rw [memRead_stored hm (by decide) (fun k hk => by obtain rfl : k = 0 := (by omega); exact h)]
  simp [leNat, List.range, List.range.loop, BitVec.ofNat_toNat]

/-- An access whose first byte is unmapped reads nothing and changes nothing, whatever the map. -/
theorem memRead_unmapped {a : Word} {s : State} (n : Nat) (h : unmapped s.params.map a.toNat) (hn : 0 < n) :
    memRead a n s = (none, s) := by
  obtain ⟨n, rfl⟩ := Nat.exists_eq_succ_of_ne_zero (Nat.ne_of_gt hn)
  simp [memRead, loadBytes, loadByte_unmapped h]

/-- Everything `loadInto` can do: it always answers a next state. -/
theorem loadInto_cases (n : Nat) (f : Word → Word) (rd : Reg) (a : Word) (s : State) :
    ∃ t, loadInto n f rd a s = .next t ∧
      ((aligned n a = false ∧ t = s.raiseTrap .misalignedAccess) ∨
       (aligned n a = true ∧ ∃ v, (memRead a n s).1 = some v ∧ t = ((memRead a n s).2.writeReg rd (f v)).retire) ∨
       (aligned n a = true ∧ (memRead a n s).1 = none ∧ t = (memRead a n s).2.raiseTrap .inaccessibleMemory)) := by
  unfold loadInto
  cases ha : aligned n a with
  | false => exact ⟨_, rfl, .inl ⟨rfl, rfl⟩⟩
  | true =>
    cases hm : memRead a n s with
    | mk o s1 =>
      cases o with
      | none => exact ⟨_, by simp, .inr (.inr ⟨rfl, rfl, rfl⟩)⟩
      | some v => exact ⟨_, by simp, .inr (.inl ⟨rfl, v, rfl, rfl⟩)⟩

/-! ### Stores -/

/-- What the accepted byte stores of an access leave: as `StoreResult`, before the cycle is closed. -/
structure Stored (s t : State) (a : Nat) (bs : List Byte) : Prop where
  bytes   : ∀ k : Nat, k < bs.length → inRam s.params.map (a + k) → bs[k]? = some (Memory.read t.mem (a + k))
  outside : ∀ x : Nat, x < a ∨ a + bs.length ≤ x ∨ ¬ inRam s.params.map x → Memory.read t.mem x = Memory.read s.mem x
  data    : ∀ k b, bs[k]? = some b → a + k = s.params.map.uartBase + 1 →
    t.uart = { s.uart with dataOut := b, txdone := false }
  uart    : (∀ k, k < bs.length → a + k ≠ s.params.map.uartBase + 1) → t.uart = s.uart
  frame   : ∃ m u, t = { s with mem := m, uart := u }

theorem stored_nil (s : State) (a : Nat) : Stored s s a [] where
  bytes k hk := absurd hk (by simp)
  outside _ _ := rfl
  data k b h := by simp at h
  uart _ := rfl
  frame := ⟨s.mem, s.uart, rfl⟩

/-- One accepted byte and then the rest. -/
theorem stored_cons {s s1 t : State} {a : Nat} {b : Byte} {bs : List Byte} (h0 : Stored s s1 a [b])
    (h : Stored s1 t (a + 1) bs) : Stored s t a (b :: bs) := by
  obtain ⟨m1, u1, rfl⟩ := h0.frame
  obtain ⟨m, u, rfl⟩ := h.frame
  have hb := h0.bytes
  have ho := h0.outside
  have hd := h0.data
  have hu := h0.uart
  have hb' := h.bytes
  have ho' := h.outside
  have hd' := h.data
  have hu' := h.uart
  dsimp only at hb ho hd hu hb' ho' hd' hu'
  refine ⟨fun k hk hr => ?_, fun x hx => ?_, fun k c hc hk => ?_, fun hk => ?_, m, u, rfl⟩ <;> dsimp only at *
  · cases k with
    | zero =>
      rw [Nat.add_zero, ho' a (.inl (by omega))]
      exact hb 0 (by simp) hr
    | succ k =>
      rw [show a + (k + 1) = a + 1 + k by omega] at hr ⊢
      exact hb' k (by simpa using hk) hr
  · simp only [List.length_cons] at hx
    rw [ho' x (by omega), ho x (by simp only [List.length_singleton]; omega)]
  · cases k with
    | zero =>
      simp only [List.getElem?_cons_zero, Option.some.injEq] at hc
      subst hc
      rw [hu' (fun k _ => by omega)]
      exact hd 0 b rfl hk
    | succ k =>
      have := hd' k c (by simpa using hc) (by omega)
      rw [this, hu (fun j hj => by simp only [List.length_singleton] at hj; omega)]
  · rw [hu' (fun k hk' => by have := hk (k + 1) (by simpa using hk'); omega),
      hu (fun k hk' => hk k (by simp only [List.length_singleton] at hk'; simp; omega))]

/-- One byte store to an address that takes stores. -/
theorem storeByte_stored {a : Word} {s : State} (hm : s.params.map.wf = true) (hw : Memory.wf s.mem = true) (b : Byte)
    (h : storable s.params.map a.toNat) :
    ∃ t, storeByte a b s = .ok t ∧ Stored s t a.toNat [b] ∧ Memory.wf t.mem = true ∧ t.params = s.params := by
  have hu := inUart_iff hm a.toNat
  have one : ∀ k : Nat, k < [b].length → k = 0 := fun k hk => by simp only [List.length_singleton] at hk; omega
  have get : ∀ (k : Nat) (c : Byte), [b][k]? = some c → k = 0 ∧ c = b := by
    intro k c h
    obtain rfl := one k (List.getElem?_eq_some_iff.mp h).1
    exact ⟨rfl, by simpa using h.symm⟩
  rcases h with h | h
  · refine ⟨_, storeByte_ram hm h b, ⟨fun k hk _ => ?_, fun x hx => ?_, fun k c hc hk => ?_, fun _ => rfl, _, _, rfl⟩,
      Memory.wf_write _ _ hw, rfl⟩
    · obtain rfl := one k hk
      simp [Memory.read_write hw]
    · refine Memory.read_write_ne _ _ _ _ ?_
      simp only [List.length_singleton] at hx
      rintro rfl
      omega
    · obtain ⟨rfl, -⟩ := get k c hc
      exact absurd h (not_stored_of_inUart hm (hu.mpr (.inr (by simpa using hk)))).2
  · have hn := (not_stored_of_inUart hm h).2
    rcases hu.mp h with h | h
    · refine ⟨s, storeByte_status hm h b, ⟨fun k hk hr => ?_, fun _ _ => rfl, fun k c hc hk => ?_, fun _ => rfl,
        s.mem, s.uart, rfl⟩, hw, rfl⟩
      · obtain rfl := one k hk
        exact absurd hr (by simpa using hn)
      · obtain ⟨rfl, -⟩ := get k c hc
        omega
    · refine ⟨_, storeByte_data hm h b, ⟨fun k hk hr => ?_, fun _ _ => rfl, fun k c hc _ => ?_, fun hk => ?_,
        s.mem, _, rfl⟩, hw, rfl⟩
      · obtain rfl := one k hk
        exact absurd hr (by simpa using hn)
      · rw [(get k c hc).2]
      · exact absurd h (hk 0 (by simp))

/-- Everything the byte stores of an access can do, in an access that does not wrap: the first `k` bytes are accepted, and
the next, if there is one, is not (20_memory.md R41). -/
theorem storeBytes_stored (bs : List Byte) (a : Word) (s : State) (hm : s.params.map.wf = true)
    (hw : Memory.wf s.mem = true) (hn : a.toNat + bs.length ≤ 2 ^ 32) (k : Nat) (hk : k ≤ bs.length)
    (hs : ∀ j, j < k → storable s.params.map (a.toNat + j))
    (h0 : k < bs.length → ¬ storable s.params.map (a.toNat + k)) :
    ∃ t, storeBytes bs a s = (decide (k = bs.length), t) ∧ Stored s t a.toNat (bs.take k) := by
  induction bs generalizing a s k with
  | nil =>
    obtain rfl : k = 0 := by simpa using hk
    exact ⟨s, rfl, stored_nil s _⟩
  | cons b bs ih =>
    cases k with
    | zero =>
      have h := h0 (by simp)
      refine ⟨s, ?_, stored_nil s _⟩
      simp only [Nat.add_zero] at h
      have : ∃ e, storeByte a b s = .error e := by
        rcases address_cases s.params.map a.toNat with (hr | hr) | hu | hu
        · exact ⟨_, storeByte_rom hr b⟩
        · exact absurd (.inl hr) h
        · exact absurd (.inr hu) h
        · exact ⟨_, storeByte_unmapped hu b⟩
      obtain ⟨e, he⟩ := this
      simp [storeBytes, he]
    | succ k =>
      obtain ⟨s1, h1, h2, h3, h4⟩ := storeByte_stored hm hw b (by simpa using hs 0 (by omega))
      simp only [List.length_cons] at hn hk h0
      by_cases hb : bs.length = 0
      · have hk' : k = 0 := by omega
        subst hk'
        rw [List.length_eq_zero_iff.mp hb]
        exact ⟨s1, by simp [storeBytes, h1], by simpa using h2⟩
      · have ha : (a + 1).toNat = a.toNat + 1 := toNat_add_one (by omega)
        obtain ⟨t, ht, hst⟩ := ih (a + 1) s1 (by rwa [h4]) h3 (by omega) k (by omega)
          (fun j hj => by rw [h4, ha, show a.toNat + 1 + j = a.toNat + (j + 1) by omega]; exact hs (j + 1) (by omega))
          (fun h => by rw [h4, ha, show a.toNat + 1 + k = a.toNat + (k + 1) by omega]; exact h0 (by omega))
        refine ⟨t, ?_, ?_⟩
        · simp only [storeBytes, h1, ht, List.length_cons, Nat.add_right_cancel_iff]
        · rw [ha] at hst
          exact stored_cons h2 hst

/-- The store of an access whose first `k` bytes are accepted. -/
theorem memWrite_stored {n : Nat} {a : Word} {s : State} (v : Word) (hm : s.params.map.wf = true)
    (hw : Memory.wf s.mem = true) (hn : a.toNat + n ≤ 2 ^ 32) {k : Nat} (hk : k ≤ n)
    (hs : ∀ j, j < k → storable s.params.map (a.toNat + j)) (h0 : k < n → ¬ storable s.params.map (a.toNat + k)) :
    ∃ t, memWrite a n v s = (decide (k = n), t) ∧ Stored s t a.toNat (bytesOf k v) := by
  obtain ⟨t, ht, hst⟩ := storeBytes_stored (leBytes n v) a s hm hw (by rwa [leBytes_length]) k (by rwa [leBytes_length])
    hs (by rwa [leBytes_length])
  rw [leBytes_length] at ht
  rw [leBytes_eq_bytesOf, bytesOf_take hk] at hst
  exact ⟨t, ht, hst⟩

/-- A store whose first byte is in ROM or unmapped stores nothing, whatever the map. -/
theorem memWrite_denied {n : Nat} {a : Word} {s : State} (v : Word)
    (h : inRom s.params.map a.toNat ∨ unmapped s.params.map a.toNat) (hn : 0 < n) : memWrite a n v s = (false, s) := by
  obtain ⟨n, rfl⟩ := Nat.exists_eq_succ_of_ne_zero (Nat.ne_of_gt hn)
  rcases h with h | h
  · simp [memWrite, leBytes, storeBytes, storeByte_rom h]
  · simp [memWrite, leBytes, storeBytes, storeByte_unmapped h]

/-- Everything `storeFrom` can do: it always answers a next state. -/
theorem storeFrom_cases (n : Nat) (v a : Word) (s : State) :
    ∃ t, storeFrom n v a s = .next t ∧
      ((aligned n a = false ∧ t = s.raiseTrap .misalignedAccess) ∨
       (aligned n a = true ∧ (memWrite a n v s).1 = true ∧ t = (memWrite a n v s).2.retire) ∨
       (aligned n a = true ∧ (memWrite a n v s).1 = false ∧ t = (memWrite a n v s).2.raiseTrap .inaccessibleMemory)) := by
  unfold storeFrom
  cases ha : aligned n a with
  | false => exact ⟨_, rfl, .inl ⟨rfl, rfl⟩⟩
  | true =>
    cases hm : memWrite a n v s with
    | mk o s1 =>
      cases o with
      | false => exact ⟨_, by simp, .inr (.inr ⟨rfl, rfl, rfl⟩)⟩
      | true => exact ⟨_, by simp, .inr (.inl ⟨rfl, rfl, rfl⟩)⟩

/-- Closing the cycle after the accepted bytes of a store is what `StoreResult` says. -/
theorem storeResult_close {s t : State} {a : Nat} {bs : List Byte} (h : Stored s t a bs) (o : Option ErrorKind) :
    StoreResult s (t.close (s.pc + 4#32) o) a bs o := by
  obtain ⟨m, u, rfl⟩ := h.frame
  exact {
    bytes := h.bytes, outside := h.outside, data := h.data, uart := h.uart
    zero := by simp, regs := fun r hr => by rw [readReg_close, if_neg hr]; rfl
    pc := rfl, report := rfl, csr := rfl, halted := rfl, host := rfl, params := rfl }

/-! ### Accesses at UART_BASE (20_memory.md R55) -/

section UartWindow

variable {s : State} (hm : s.params.map.wf = true) {a : Word}

include hm

/-- The window's two addresses follow each other. -/
theorem uart_add_one (h : a.toNat = s.params.map.uartBase) : (a + 1).toNat = s.params.map.uartBase + 1 := by
  obtain ⟨h1, -, h3⟩ := (AddressMap_wf_iff _).mp hm
  rw [toNat_add_one (by omega), h]

/-- A halfword load at UART_BASE: DATA above STATUS, the received byte consumed. -/
theorem memRead_uart_two (h : a.toNat = s.params.map.uartBase) :
    memRead a 2 s = (some ((s.uart.dataIn ++ statusByte s.params s.uart).setWidth 32),
      { s with uart := { s.uart with newdat := false } }) := by
  have h1 := uart_add_one hm h
  simp only [memRead, loadBytes, loadByte_status hm h, loadByte_data hm h1, Option.map_some, leWord]
  congr 2
  apply BitVec.eq_of_getLsbD_eq
  intro i hi
  simp only [BitVec.getLsbD_or, BitVec.getLsbD_shiftLeft, BitVec.getLsbD_setWidth, BitVec.getLsbD_append]
  interval_cases i <;> simp

/-- A byte store to STATUS does nothing. -/
theorem memWrite_status (h : a.toNat = s.params.map.uartBase) (v : Word) : memWrite a 1 v s = (true, s) := by
  simp [memWrite, leBytes, storeBytes, storeByte_status hm h]

/-- A byte store to DATA queues the byte. -/
theorem memWrite_data (h : a.toNat = s.params.map.uartBase + 1) (v : Word) :
    memWrite a 1 v s = (true, { s with uart := { s.uart with dataOut := v.setWidth 8, txdone := false } }) := by
  simp [memWrite, leBytes, storeBytes, storeByte_data hm h]

/-- A halfword store at UART_BASE queues bits 15:8. -/
theorem memWrite_uart_two (h : a.toNat = s.params.map.uartBase) (v : Word) :
    memWrite a 2 v s = (true, { s with uart := { s.uart with dataOut := (v >>> 8).setWidth 8, txdone := false } }) := by
  have h1 := uart_add_one hm h
  simp only [memWrite, leBytes, storeBytes, storeByte_status hm h, storeByte_data hm h1]

/-- A word store at UART_BASE, with an unmapped or read-only byte behind the window, queues bits 15:8 and fails there. -/
theorem memWrite_uart_four (h : a.toNat = s.params.map.uartBase) (h2 : ¬ storable s.params.map (a.toNat + 2))
    (ha : a.toNat % 4 = 0) (v : Word) :
    memWrite a 4 v s = (false, { s with uart := { s.uart with dataOut := (v >>> 8).setWidth 8, txdone := false } }) := by
  have h1 := uart_add_one hm h
  have h3 : (a + 1 + 1).toNat = a.toNat + 2 := by
    have := a.isLt
    rw [toNat_add_one (by omega), h1, h]
  have e : ∀ (b : Byte) (u : Uart), ∃ x, storeByte (a + 1 + 1) b { s with uart := u } = .error x := by
    intro b u
    rcases address_cases s.params.map (a + 1 + 1).toNat with (hr | hr) | hu | hu
    · exact ⟨_, storeByte_rom (s := { s with uart := u }) hr b⟩
    · exact absurd (.inl (h3 ▸ hr)) h2
    · exact absurd (.inr (h3 ▸ hu)) h2
    · exact ⟨_, storeByte_unmapped (s := { s with uart := u }) hu b⟩
  obtain ⟨x, hx⟩ := e ((v >>> 8 >>> 8).setWidth 8) { s.uart with dataOut := (v >>> 8).setWidth 8, txdone := false }
  simp only [memWrite, leBytes, storeBytes, storeByte_status hm h, storeByte_data hm h1, hx]

end UartWindow

/-! ### The poll -/

/-- Everything the receive part can do. -/
theorem pollReceive_frame (s : State) : ∃ u h, pollReceive s = { s with uart := u, host := h } := by
  unfold pollReceive
  split
  · exact ⟨s.uart, s.host, rfl⟩
  · split
    · exact ⟨s.uart, s.host, rfl⟩
    · exact ⟨_, _, rfl⟩

/-- Everything the transmit part can do. -/
theorem pollTransmit_frame (s : State) : ∃ u h, pollTransmit s = { s with uart := u, host := h } := by
  unfold pollTransmit
  split
  · exact ⟨s.uart, s.host, rfl⟩
  · exact ⟨_, _, rfl⟩

/-- Everything a poll can do: the UART and the host channel, nothing else. -/
theorem poll_frame (s : State) : ∃ u h, poll s = { s with uart := u, host := h } := by
  obtain ⟨u, h, e⟩ := pollReceive_frame { s with host := hostArrive s.host }
  obtain ⟨u', h', e'⟩ := pollTransmit_frame (pollReceive { s with host := hostArrive s.host })
  refine ⟨u', h', ?_⟩
  unfold poll
  rw [e', e]

/-! ### The host's sends -/

/-- What a host goes on to do does not depend on the queue and what was sent to it. -/
theorem sentAt_congr {h h' : HostChannel} (ha : h.arrivals = h'.arrivals) (hl : h.later = h'.later) (n : Nat) :
    h.sentAt n = h'.sentAt n := by
  have step : (h.afterPolls n).arrivals = (h'.afterPolls n).arrivals ∧ (h.afterPolls n).later = (h'.afterPolls n).later := by
    induction n with
    | zero => exact ⟨ha, hl⟩
    | succ n ih =>
      simp only [HostChannel.afterPolls, HostChannel.advance, ih.1, ih.2]
      split <;> exact ⟨by simp [ih.1], by simp [ih.2]⟩
  unfold HostChannel.sentAt HostChannel.sends
  rw [step.1, step.2]

/-- The sends of an advanced host are the later sends. -/
theorem sentAt_advance (h : HostChannel) (n : Nat) : h.advance.sentAt n = h.sentAt (n + 1) := by
  have e : ∀ n, h.advance.afterPolls n = h.afterPolls (n + 1) := by
    intro n
    induction n with
    | zero => rfl
    | succ n ih => exact congrArg HostChannel.advance ih
  unfold HostChannel.sentAt
  rw [e]

/-- Everything a poll can do to the host channel: the host moves on by one poll, the queue and the sent bytes apart. -/
theorem poll_host (s : State) : ∃ q x, (poll s).host = { s.host.advance with rxq := q, txlog := x } := by
  have rx : ∀ u : State, ∃ q, (pollReceive u).host = { u.host with rxq := q } := by
    intro u
    unfold pollReceive
    split
    · exact ⟨_, rfl⟩
    · split <;> exact ⟨_, rfl⟩
  have tx : ∀ u : State, ∃ x, (pollTransmit u).host = { u.host with txlog := x } := by
    intro u
    unfold pollTransmit
    split <;> exact ⟨_, rfl⟩
  obtain ⟨q, hq⟩ := rx { s with host := hostArrive s.host }
  obtain ⟨x, hx⟩ := tx (pollReceive { s with host := hostArrive s.host })
  exact ⟨q, x, by unfold poll; rw [hx, hq]; rfl⟩

/-- A poll uses up one send of the host (60_exceptions.md R214, R215). -/
theorem poll_sentAt (s : State) (n : Nat) : (poll s).host.sentAt n = s.host.sentAt (n + 1) := by
  obtain ⟨q, x, h⟩ := poll_host s
  rw [← sentAt_advance]
  exact sentAt_congr (by rw [h]) (by rw [h]) n

/-- After a transmit part TXDONE is set. -/
theorem pollTransmit_txdone (s : State) : (pollTransmit s).uart.txdone = true := by
  unfold pollTransmit
  split
  · assumption
  · rfl

@[simp] theorem poll_regs (s : State) : (poll s).regs = s.regs := by
  obtain ⟨u, h, e⟩ := poll_frame s; rw [e]
@[simp] theorem poll_readReg (s : State) (r : Reg) : (poll s).readReg r = s.readReg r := by
  obtain ⟨u, h, e⟩ := poll_frame s; rw [e]; rfl
@[simp] theorem poll_pc (s : State) : (poll s).pc = s.pc := by
  obtain ⟨u, h, e⟩ := poll_frame s; rw [e]
@[simp] theorem poll_mem (s : State) : (poll s).mem = s.mem := by
  obtain ⟨u, h, e⟩ := poll_frame s; rw [e]
@[simp] theorem poll_csr (s : State) : (poll s).csr = s.csr := by
  obtain ⟨u, h, e⟩ := poll_frame s; rw [e]
@[simp] theorem poll_halted (s : State) : (poll s).halted = s.halted := by
  obtain ⟨u, h, e⟩ := poll_frame s; rw [e]
@[simp] theorem poll_params (s : State) : (poll s).params = s.params := by
  obtain ⟨u, h, e⟩ := poll_frame s; rw [e]
@[simp] theorem poll_report (s : State) : (poll s).report = s.report := by
  obtain ⟨u, h, e⟩ := poll_frame s; rw [e]

end Sys2Proof.Machine
end

