-- ==== Sys2Proof/Laws/Exec.lean ====
section
/-!
SUPPORT. Everything the execution of one instruction can do, said once: `exec_cases`, and what the loads and stores of an
access leave alone.
-/

namespace Sys2Proof.Machine

/-- The four shapes an instruction's effect has: a register result, a change of pc alone, a load, a store. -/
theorem exec_cases (i : Instr) (s : State) :
    (∃ rd v p, exec i s = .next ((s.writeReg rd v).close p none) ∧ destination i = some rd ∧ storeForm i = none ∧
      isLoad i = false ∧ (transfersControl i = false → p = s.pc + 4#32)) ∨
    (∃ p, exec i s = .next (s.close p none) ∧ storeForm i = none ∧ isLoad i = false ∧
      (transfersControl i = false → p = s.pc + 4#32)) ∨
    (∃ n f rd a, exec i s = loadInto n f rd a s ∧ isLoad i = true ∧ destination i = some rd ∧ storeForm i = none ∧
      transfersControl i = false ∧ (n = 1 ∨ ErrorKind.misalignedAccess ∈ mayReport i) ∧
      ErrorKind.inaccessibleMemory ∈ mayReport i) ∨
    (∃ n v rs1 imm, exec i s = storeFrom n v (effectiveAddr s rs1 imm) s ∧ isLoad i = false ∧
      storeForm i = some (rs1, imm, n) ∧ transfersControl i = false ∧
      (n = 1 ∨ ErrorKind.misalignedAccess ∈ mayReport i) ∧ ErrorKind.inaccessibleMemory ∈ mayReport i ∧ n ∣ 2 ^ 32) := by
  have branch : ∀ c p, ∃ q, branchIf c p s = .next (s.close q none) := by
    intro c p
    cases c
    · exact ⟨_, rfl⟩
    · exact ⟨_, rfl⟩
  cases i
  case beq | bne | blt | bge | bltu | bgeu =>
    obtain ⟨q, h⟩ := branch _ _
    exact .inr (.inl ⟨q, h, rfl, rfl, by simp [transfersControl]⟩)
  case system => exact .inr (.inl ⟨_, rfl, rfl, rfl, fun _ => rfl⟩)
  case lb | lbu => exact .inr (.inr (.inl ⟨_, _, _, _, rfl, rfl, rfl, rfl, rfl, .inl rfl, by simp [mayReport]⟩))
  case lh | lhu | lw =>
    exact .inr (.inr (.inl ⟨_, _, _, _, rfl, rfl, rfl, rfl, rfl, .inr (by simp [mayReport]), by simp [mayReport]⟩))
  case sb => exact .inr (.inr (.inr ⟨_, _, _, _, rfl, rfl, rfl, rfl, .inl rfl, by simp [mayReport], by decide⟩))
  case sh | sw =>
    exact .inr (.inr (.inr ⟨_, _, _, _, rfl, rfl, rfl, rfl, .inr (by simp [mayReport]), by simp [mayReport], by decide⟩))
  all_goals exact .inl ⟨_, _, _, rfl, rfl, rfl, rfl, by first | exact fun _ => rfl | simp [transfersControl]⟩

/-- A byte access is always aligned (20_memory.md R39). -/
theorem aligned_one (a : Word) : aligned 1 a = true := by simp [aligned, Nat.mod_one]

/-- The stores of an access leave every byte outside it alone, whatever the map and the form of the memory. -/
theorem read_storeBytes_ne (bs : List Byte) (a : Word) (s : State) (x : Nat) (hn : a.toNat + bs.length ≤ 2 ^ 32)
    (h : x < a.toNat ∨ a.toNat + bs.length ≤ x) :
    Memory.read (storeBytes bs a s).2.mem x = Memory.read s.mem x := by
  induction bs generalizing a s with
  | nil => rfl
  | cons b bs ih =>
    unfold storeBytes
    simp only [List.length_cons] at h hn
    cases hb : storeByte a b s with
    | error e => rfl
    | ok s1 =>
      have h0 : Memory.read s1.mem x = Memory.read s.mem x := by
        rcases storeByte_state hb with ⟨-, -, rfl⟩ | ⟨-, rfl⟩
        · exact Memory.read_write_ne _ _ _ _ (by omega)
        · rfl
      dsimp only
      by_cases hl : bs.length = 0
      · rw [List.length_eq_zero_iff.mp hl]
        exact h0
      · have h1 : (a + 1).toNat = a.toNat + 1 := toNat_add_one (by omega)
        rw [ih (a + 1) s1 (by omega) (by omega), h0]

/-- The stores of an access leave ROM alone, whatever the map (20_memory.md R35). -/
theorem read_storeBytes_rom (bs : List Byte) (a : Word) (s : State) (x : Nat) (h : inRom s.params.map x) :
    Memory.read (storeBytes bs a s).2.mem x = Memory.read s.mem x := by
  refine (storeBytes_induction (P := fun t => t.params = s.params ∧ Memory.read t.mem x = Memory.read s.mem x)
    ?_ ?_ bs a s ⟨rfl, rfl⟩).2
  · rintro t b c hr hn ⟨hp, ht⟩
    refine ⟨hp, (Memory.read_write_ne _ _ _ _ ?_).trans ht⟩
    rintro rfl
    exact hn (hp ▸ h)
  · exact fun t b c ht => ht

/-- Everything a store to the UART window can do (60_exceptions.md R212, R213). -/
theorem uartStore_cases (m : AddressMap) (a : Word) (b : Byte) (u : Uart) :
    uartStore m a b u = u ∨ uartStore m a b u = { u with dataOut := b, txdone := false } := by
  unfold uartStore
  cases uartSelectsData m a
  · exact .inl rfl
  · exact .inr rfl

/-- The stores of an access change at most the UART's output side. -/
theorem uart_storeBytes (bs : List Byte) (a : Word) (s : State) :
    (storeBytes bs a s).2.uart = s.uart ∨
      ∃ b, (storeBytes bs a s).2.uart = { s.uart with dataOut := b, txdone := false } := by
  refine storeBytes_induction
    (P := fun t => t.uart = s.uart ∨ ∃ b, t.uart = { s.uart with dataOut := b, txdone := false }) ?_ ?_ bs a s (.inl rfl)
  · exact fun t b c _ _ ht => ht
  · intro t b c ht
    dsimp only at ht ⊢
    generalize uartStore t.params.map b c t.uart = u, uartStore_cases t.params.map b c t.uart = h
    rcases h with rfl | rfl
    · exact ht
    · rcases ht with ht | ⟨d, ht⟩ <;> exact .inr ⟨c, by rw [ht]⟩

/-- The stores of an access keep the canonical form and put bytes into RAM only. -/
theorem wf_storeBytes (bs : List Byte) (a : Word) (s : State) (hw : Memory.wf s.mem = true)
    (hc : cellsStored s.params.map s.mem = true) :
    Memory.wf (storeBytes bs a s).2.mem = true ∧ cellsStored s.params.map (storeBytes bs a s).2.mem = true := by
  refine (storeBytes_induction
    (P := fun t => t.params = s.params ∧ Memory.wf t.mem = true ∧ cellsStored s.params.map t.mem = true)
    ?_ ?_ bs a s ⟨rfl, hw, hc⟩).2
  · rintro t b c hr - ⟨hp, h1, h2⟩
    refine ⟨hp, Memory.wf_write _ _ h1, ?_⟩
    simp only [cellsStored, List.all_eq_true, decide_eq_true_eq] at h2 ⊢
    intro d hd
    rcases Memory.mem_write hd with rfl | hd
    · exact .inr (hp ▸ hr)
    · exact h2 d hd
  · exact fun t b c ht => ht

end Sys2Proof.Machine
end

