-- ==== Sys2Proof/Laws/PerInstr.lean ====
section
/-!
SUPPORT. Statements made per instruction: one lemma per constructor of `Instr`. Family `Encoding`: the word of a
well-formed instruction is accepted by length validation and carries the pattern of its own row of the opcode table.
-/

namespace Sys2Proof.Laws

/-! ### What the row's mask leaves of each encoded format -/

theorem encodeI_masked (imm : BitVec 12) (rs1 rd : Reg) (f3 : BitVec 3) (g : BitVec 5) :
    encodeI imm rs1 f3 rd g &&& 0x0000707F#32 = f3.setWidth 32 <<< 12 ||| g.setWidth 32 <<< 2 ||| 3#32 := by
  obtain ⟨h0, h1, h2, -⟩ := encodeI_fields imm rd rs1 f3 g
  rw [opcodeGroup] at h1
  rw [funct3] at h2
  rw [and_mask_opcode_funct3, h0, h1, h2]; rfl

theorem encodeI_opcode (imm : BitVec 12) (rs1 rd : Reg) (f3 : BitVec 3) (g : BitVec 5) :
    encodeI imm rs1 f3 rd g &&& 0x0000007F#32 = g.setWidth 32 <<< 2 ||| 3#32 := by
  obtain ⟨h0, h1, -⟩ := encodeI_fields imm rd rs1 f3 g
  rw [opcodeGroup] at h1
  rw [and_mask_opcode, h0, h1]; rfl

theorem encodeS_masked (imm : BitVec 12) (rs1 rs2 : Reg) (f3 : BitVec 3) :
    encodeS imm rs2 rs1 f3 &&& 0x0000707F#32 = f3.setWidth 32 <<< 12 ||| groupStore.setWidth 32 <<< 2 ||| 3#32 := by
  obtain ⟨h0, h1, h2, -⟩ := encodeS_fields imm rs1 rs2 f3
  rw [opcodeGroup] at h1
  rw [funct3] at h2
  rw [and_mask_opcode_funct3, h0, h1, h2]; rfl

theorem encodeB_masked (o : BitVec 13) (rs1 rs2 : Reg) (f3 : BitVec 3) (h : o.getLsbD 0 = false) :
    encodeB o rs2 rs1 f3 &&& 0x0000707F#32 = f3.setWidth 32 <<< 12 ||| groupBranch.setWidth 32 <<< 2 ||| 3#32 := by
  obtain ⟨h0, h1, h2, -⟩ := encodeB_fields o rs1 rs2 f3 h
  rw [opcodeGroup] at h1
  rw [funct3] at h2
  rw [and_mask_opcode_funct3, h0, h1, h2]; rfl

theorem encodeR_masked (f7 : BitVec 7) (rs1 rs2 rd : Reg) (f3 : BitVec 3) (g : BitVec 5) :
    encodeR f7 rs2 rs1 f3 rd g &&& 0xFE00707F#32 =
      f7.setWidth 32 <<< 25 ||| f3.setWidth 32 <<< 12 ||| g.setWidth 32 <<< 2 ||| 3#32 := by
  obtain ⟨h0, h1, h2, h3, -⟩ := encodeR_fields f7 rd rs1 rs2 f3 g
  rw [opcodeGroup] at h1
  rw [funct3] at h2
  rw [funct7] at h3
  rw [and_mask_opcode_funct3_funct7, h0, h1, h2, h3]; rfl

theorem encodeR_funct3 (f7 : BitVec 7) (rs1 rs2 rd : Reg) (f3 : BitVec 3) (g : BitVec 5) :
    encodeR f7 rs2 rs1 f3 rd g &&& 0x0000707F#32 = f3.setWidth 32 <<< 12 ||| g.setWidth 32 <<< 2 ||| 3#32 := by
  obtain ⟨h0, h1, h2, -⟩ := encodeR_fields f7 rd rs1 rs2 f3 g
  rw [opcodeGroup] at h1
  rw [funct3] at h2
  rw [and_mask_opcode_funct3, h0, h1, h2]; rfl

theorem encodeShift_masked (f7 : BitVec 7) (sh : BitVec 5) (rs1 rd : Reg) (f3 : BitVec 3) :
    encodeShift f7 sh rs1 f3 rd &&& 0xFE00707F#32 =
      f7.setWidth 32 <<< 25 ||| f3.setWidth 32 <<< 12 ||| groupOpImm.setWidth 32 <<< 2 ||| 3#32 := by
  obtain ⟨h0, h1, h2, h3, -⟩ := encodeShift_fields f7 sh rd rs1 f3
  rw [opcodeGroup] at h1
  rw [funct3] at h2
  rw [funct7] at h3
  rw [and_mask_opcode_funct3_funct7, h0, h1, h2, h3]; rfl

theorem encodeU_masked (f : BitVec 20) (rd : Reg) (g : BitVec 5) :
    encodeU f rd g &&& 0x0000007F#32 = g.setWidth 32 <<< 2 ||| 3#32 := by
  obtain ⟨h0, h1, -⟩ := encodeU_fields f rd g
  rw [opcodeGroup] at h1
  rw [and_mask_opcode, h0, h1]; rfl

theorem encodeJ_masked (o : BitVec 21) (rd : Reg) (h : o.getLsbD 0 = false) :
    encodeJ o rd &&& 0x0000007F#32 = groupJal.setWidth 32 <<< 2 ||| 3#32 := by
  obtain ⟨h0, h1, -⟩ := encodeJ_fields o rd h
  rw [opcodeGroup] at h1
  rw [and_mask_opcode, h0, h1]; rfl

end Sys2Proof.Laws

namespace Sys2Proof.Laws.Encoding

/-- The word of a well-formed instruction is accepted, and its own row of the opcode table matches it. -/
def Statement (i : Instr) : Prop :=
  i.wellFormed = true →
    accepted (encode i) = true ∧
      ∃ r ∈ opcodeRows, r.mnemonic = i.mnemonic ∧ encode i &&& r.mask = r.pattern

/-- A row that masks to the instruction's word proves the statement. -/
theorem statement_of_row {i : Instr} (r : OpcodeRow) (hr : r ∈ opcodeRows) (hm : r.mnemonic = i.mnemonic)
    (hw : i.wellFormed = true → encode i &&& r.mask = r.pattern)
    (h0 : r.mask.extractLsb' 0 2 = BitVec.allOnes 2) (h2 : r.mask.extractLsb' 2 3 = BitVec.allOnes 3)
    (hp : accepted r.pattern = true) : Statement i := by
  intro hi
  refine ⟨?_, r, hr, hm, hw hi⟩
  rw [accepted_iff] at hp ⊢
  rw [extract_of_mask (hw hi) 0 2 h0, extract_of_mask (hw hi) 2 3 h2]
  exact hp

theorem lb (rd rs1 : Reg) (imm : BitVec 12) : Statement (.lb rd rs1 imm) :=
  statement_of_row ⟨"LB", 0x00000003, 0x0000707F⟩ (by decide) rfl (fun _ => encodeI_masked ..) rfl rfl rfl

theorem lh (rd rs1 : Reg) (imm : BitVec 12) : Statement (.lh rd rs1 imm) :=
  statement_of_row ⟨"LH", 0x00001003, 0x0000707F⟩ (by decide) rfl (fun _ => encodeI_masked ..) rfl rfl rfl

theorem lw (rd rs1 : Reg) (imm : BitVec 12) : Statement (.lw rd rs1 imm) :=
  statement_of_row ⟨"LW", 0x00002003, 0x0000707F⟩ (by decide) rfl (fun _ => encodeI_masked ..) rfl rfl rfl

theorem lbu (rd rs1 : Reg) (imm : BitVec 12) : Statement (.lbu rd rs1 imm) :=
  statement_of_row ⟨"LBU", 0x00004003, 0x0000707F⟩ (by decide) rfl (fun _ => encodeI_masked ..) rfl rfl rfl

theorem lhu (rd rs1 : Reg) (imm : BitVec 12) : Statement (.lhu rd rs1 imm) :=
  statement_of_row ⟨"LHU", 0x00005003, 0x0000707F⟩ (by decide) rfl (fun _ => encodeI_masked ..) rfl rfl rfl

theorem addi (rd rs1 : Reg) (imm : BitVec 12) : Statement (.addi rd rs1 imm) :=
  statement_of_row ⟨"ADDI", 0x00000013, 0x0000707F⟩ (by decide) rfl (fun _ => encodeI_masked ..) rfl rfl rfl

theorem slti (rd rs1 : Reg) (imm : BitVec 12) : Statement (.slti rd rs1 imm) :=
  statement_of_row ⟨"SLTI", 0x00002013, 0x0000707F⟩ (by decide) rfl (fun _ => encodeI_masked ..) rfl rfl rfl

theorem sltiu (rd rs1 : Reg) (imm : BitVec 12) : Statement (.sltiu rd rs1 imm) :=
  statement_of_row ⟨"SLTIU", 0x00003013, 0x0000707F⟩ (by decide) rfl (fun _ => encodeI_masked ..) rfl rfl rfl

theorem xori (rd rs1 : Reg) (imm : BitVec 12) : Statement (.xori rd rs1 imm) :=
  statement_of_row ⟨"XORI", 0x00004013, 0x0000707F⟩ (by decide) rfl (fun _ => encodeI_masked ..) rfl rfl rfl

theorem ori (rd rs1 : Reg) (imm : BitVec 12) : Statement (.ori rd rs1 imm) :=
  statement_of_row ⟨"ORI", 0x00006013, 0x0000707F⟩ (by decide) rfl (fun _ => encodeI_masked ..) rfl rfl rfl

theorem andi (rd rs1 : Reg) (imm : BitVec 12) : Statement (.andi rd rs1 imm) :=
  statement_of_row ⟨"ANDI", 0x00007013, 0x0000707F⟩ (by decide) rfl (fun _ => encodeI_masked ..) rfl rfl rfl

theorem slli (rd rs1 : Reg) (shamt : BitVec 5) : Statement (.slli rd rs1 shamt) :=
  statement_of_row ⟨"SLLI", 0x00001013, 0xFE00707F⟩ (by decide) rfl (fun _ => encodeShift_masked ..) rfl rfl rfl

theorem srli (rd rs1 : Reg) (shamt : BitVec 5) : Statement (.srli rd rs1 shamt) :=
  statement_of_row ⟨"SRLI", 0x00005013, 0xFE00707F⟩ (by decide) rfl (fun _ => encodeShift_masked ..) rfl rfl rfl

theorem srai (rd rs1 : Reg) (shamt : BitVec 5) : Statement (.srai rd rs1 shamt) :=
  statement_of_row ⟨"SRAI", 0x40005013, 0xFE00707F⟩ (by decide) rfl (fun _ => encodeShift_masked ..) rfl rfl rfl

theorem auipc (rd : Reg) (field : BitVec 20) : Statement (.auipc rd field) :=
  statement_of_row ⟨"AUIPC", 0x00000017, 0x0000007F⟩ (by decide) rfl (fun _ => encodeU_masked ..) rfl rfl rfl

theorem sb (rs1 rs2 : Reg) (imm : BitVec 12) : Statement (.sb rs1 rs2 imm) :=
  statement_of_row ⟨"SB", 0x00000023, 0x0000707F⟩ (by decide) rfl (fun _ => encodeS_masked ..) rfl rfl rfl

theorem sh (rs1 rs2 : Reg) (imm : BitVec 12) : Statement (.sh rs1 rs2 imm) :=
  statement_of_row ⟨"SH", 0x00001023, 0x0000707F⟩ (by decide) rfl (fun _ => encodeS_masked ..) rfl rfl rfl

theorem sw (rs1 rs2 : Reg) (imm : BitVec 12) : Statement (.sw rs1 rs2 imm) :=
  statement_of_row ⟨"SW", 0x00002023, 0x0000707F⟩ (by decide) rfl (fun _ => encodeS_masked ..) rfl rfl rfl

theorem add (rd rs1 rs2 : Reg) : Statement (.add rd rs1 rs2) :=
  statement_of_row ⟨"ADD", 0x00000033, 0xFE00707F⟩ (by decide) rfl (fun _ => encodeR_masked ..) rfl rfl rfl

theorem sub (rd rs1 rs2 : Reg) : Statement (.sub rd rs1 rs2) :=
  statement_of_row ⟨"SUB", 0x40000033, 0xFE00707F⟩ (by decide) rfl (fun _ => encodeR_masked ..) rfl rfl rfl

theorem sll (rd rs1 rs2 : Reg) : Statement (.sll rd rs1 rs2) :=
  statement_of_row ⟨"SLL", 0x00001033, 0x0000707F⟩ (by decide) rfl (fun _ => encodeR_funct3 ..) rfl rfl rfl

theorem slt (rd rs1 rs2 : Reg) : Statement (.slt rd rs1 rs2) :=
  statement_of_row ⟨"SLT", 0x00002033, 0x0000707F⟩ (by decide) rfl (fun _ => encodeR_funct3 ..) rfl rfl rfl

theorem sltu (rd rs1 rs2 : Reg) : Statement (.sltu rd rs1 rs2) :=
  statement_of_row ⟨"SLTU", 0x00003033, 0x0000707F⟩ (by decide) rfl (fun _ => encodeR_funct3 ..) rfl rfl rfl

theorem xor (rd rs1 rs2 : Reg) : Statement (.xor rd rs1 rs2) :=
  statement_of_row ⟨"XOR", 0x00004033, 0x0000707F⟩ (by decide) rfl (fun _ => encodeR_funct3 ..) rfl rfl rfl

theorem srl (rd rs1 rs2 : Reg) : Statement (.srl rd rs1 rs2) :=
  statement_of_row ⟨"SRL", 0x00005033, 0xFE00707F⟩ (by decide) rfl (fun _ => encodeR_masked ..) rfl rfl rfl

theorem sra (rd rs1 rs2 : Reg) : Statement (.sra rd rs1 rs2) :=
  statement_of_row ⟨"SRA", 0x40005033, 0xFE00707F⟩ (by decide) rfl (fun _ => encodeR_masked ..) rfl rfl rfl

theorem or (rd rs1 rs2 : Reg) : Statement (.or rd rs1 rs2) :=
  statement_of_row ⟨"OR", 0x00006033, 0x0000707F⟩ (by decide) rfl (fun _ => encodeR_funct3 ..) rfl rfl rfl

theorem and (rd rs1 rs2 : Reg) : Statement (.and rd rs1 rs2) :=
  statement_of_row ⟨"AND", 0x00007033, 0x0000707F⟩ (by decide) rfl (fun _ => encodeR_funct3 ..) rfl rfl rfl

theorem lui (rd : Reg) (field : BitVec 20) : Statement (.lui rd field) :=
  statement_of_row ⟨"LUI", 0x00000037, 0x0000007F⟩ (by decide) rfl (fun _ => encodeU_masked ..) rfl rfl rfl

theorem beq (rs1 rs2 : Reg) (offset : BitVec 13) : Statement (.beq rs1 rs2 offset) :=
  statement_of_row ⟨"BEQ", 0x00000063, 0x0000707F⟩ (by decide) rfl (fun h => encodeB_masked _ _ _ _ (by simpa [Instr.wellFormed] using h)) rfl rfl rfl

theorem bne (rs1 rs2 : Reg) (offset : BitVec 13) : Statement (.bne rs1 rs2 offset) :=
  statement_of_row ⟨"BNE", 0x00001063, 0x0000707F⟩ (by decide) rfl (fun h => encodeB_masked _ _ _ _ (by simpa [Instr.wellFormed] using h)) rfl rfl rfl

theorem blt (rs1 rs2 : Reg) (offset : BitVec 13) : Statement (.blt rs1 rs2 offset) :=
  statement_of_row ⟨"BLT", 0x00004063, 0x0000707F⟩ (by decide) rfl (fun h => encodeB_masked _ _ _ _ (by simpa [Instr.wellFormed] using h)) rfl rfl rfl

theorem bge (rs1 rs2 : Reg) (offset : BitVec 13) : Statement (.bge rs1 rs2 offset) :=
  statement_of_row ⟨"BGE", 0x00005063, 0x0000707F⟩ (by decide) rfl (fun h => encodeB_masked _ _ _ _ (by simpa [Instr.wellFormed] using h)) rfl rfl rfl

theorem bltu (rs1 rs2 : Reg) (offset : BitVec 13) : Statement (.bltu rs1 rs2 offset) :=
  statement_of_row ⟨"BLTU", 0x00006063, 0x0000707F⟩ (by decide) rfl (fun h => encodeB_masked _ _ _ _ (by simpa [Instr.wellFormed] using h)) rfl rfl rfl

theorem bgeu (rs1 rs2 : Reg) (offset : BitVec 13) : Statement (.bgeu rs1 rs2 offset) :=
  statement_of_row ⟨"BGEU", 0x00007063, 0x0000707F⟩ (by decide) rfl (fun h => encodeB_masked _ _ _ _ (by simpa [Instr.wellFormed] using h)) rfl rfl rfl

theorem jalr (rd rs1 : Reg) (imm : BitVec 12) : Statement (.jalr rd rs1 imm) :=
  statement_of_row ⟨"JALR", 0x00000067, 0x0000007F⟩ (by decide) rfl (fun _ => encodeI_opcode ..) rfl rfl rfl

theorem jal (rd : Reg) (offset : BitVec 21) : Statement (.jal rd offset) :=
  statement_of_row ⟨"JAL", 0x0000006F, 0x0000007F⟩ (by decide) rfl (fun h => encodeJ_masked _ _ (by simpa [Instr.wellFormed] using h)) rfl rfl rfl

theorem system : Statement (.system) :=
  statement_of_row ⟨"SYSTEM", 0x00000073, 0x0000007F⟩ (by decide) rfl (fun _ => rfl) rfl rfl rfl

end Sys2Proof.Laws.Encoding
end

