-- ==== Sys2Proof/Laws/Step.lean ====
section
/-!
SUPPORT. The cycle: what fetch can do, what the step is in a running machine, and one inversion lemma for the step.
-/

namespace Sys2Proof.Machine

/-- Fetch changes at most the UART (20_memory.md R45). -/
theorem fetch_frame (s : State) :
    ∃ u, (fetch s).2 = { s with uart := u } ∧ (u = s.uart ∨ u = { s.uart with newdat := false }) :=
  loadBytes_state 4 s.pc s

/-- Fetch from ROM or RAM: the word at pc, and no side effect (40_cycle.md R92). -/
theorem fetch_stored {s : State} (hm : s.params.map.wf = true) (h : s.pcStored) :
    fetch s = (some (leWord s.bytesAtPc), s) := by
  unfold fetch
  rw [memRead_stored_mod hm (by decide) h, leWord_eq_leNat, State.bytesAtPc]

/-- Everything a fetch can answer, at any pc: the word of the four bytes seen, or nothing from its first unmapped byte on. -/
theorem fetch_cases {s : State} (hm : s.params.map.wf = true) :
    (∃ bs : List Byte, bs.length = 4 ∧ (∀ k, k < 4 → seenByte s (byteAddr s.pc k) = bs[k]?) ∧
      fetch s = (some (BitVec.ofNat 32 (leNat bs)), afterLoads s s.pc 4)) ∨
    (∃ k, k < 4 ∧ (∀ j, j < k → ¬ unmapped s.params.map (byteAddr s.pc j)) ∧ unmapped s.params.map (byteAddr s.pc k) ∧
      fetch s = (none, afterLoads s s.pc k)) := by
  have hn := fun x => seenByte_none_iff hm x
  have fails : ∀ k, k < 4 → (∀ j, j < k → seenByte s (byteAddr s.pc j) ≠ none) → seenByte s (byteAddr s.pc k) = none →
      ∃ k, k < 4 ∧ (∀ j, j < k → ¬ unmapped s.params.map (byteAddr s.pc j)) ∧
        unmapped s.params.map (byteAddr s.pc k) ∧ fetch s = (none, afterLoads s s.pc k) := fun k hk hs h0 =>
    ⟨k, hk, fun j hj h => hs j hj ((hn _).mpr h), (hn _).mp h0, memRead_fails hm (by decide) hk hs h0⟩
  have below : ∀ {k : Nat} {b : Byte}, seenByte s (byteAddr s.pc k) = some b → seenByte s (byteAddr s.pc k) ≠ none :=
    fun h => by simp [h]
  cases h0 : seenByte s (byteAddr s.pc 0) with
  | none => exact .inr (fails 0 (by decide) (fun j hj => absurd hj (by omega)) h0)
  | some b0 =>
    cases h1 : seenByte s (byteAddr s.pc 1) with
    | none =>
      refine .inr (fails 1 (by decide) (fun j hj => ?_) h1)
      interval_cases j
      exact below h0
    | some b1 =>
      cases h2 : seenByte s (byteAddr s.pc 2) with
      | none =>
        refine .inr (fails 2 (by decide) (fun j hj => ?_) h2)
        interval_cases j
        exacts [below h0, below h1]
      | some b2 =>
        cases h3 : seenByte s (byteAddr s.pc 3) with
        | none =>
          refine .inr (fails 3 (by decide) (fun j hj => ?_) h3)
          interval_cases j
          exacts [below h0, below h1, below h2]
        | some b3 =>
          have hb : ∀ k, k < 4 → seenByte s (byteAddr s.pc k) = [b0, b1, b2, b3][k]? := by
            intro k hk
            interval_cases k
            exacts [h0, h1, h2, h3]
          exact .inl ⟨[b0, b1, b2, b3], rfl, hb, memRead_seen hm (by decide) rfl hb⟩

/-- Fetch from an unmapped address reads nothing (40_cycle.md R92). -/
theorem fetch_unmapped {s : State} (h : unmapped s.params.map s.pc.toNat) : fetch s = (none, s) :=
  memRead_unmapped 4 h (by decide)

/-- A running machine polls, fetches and runs, unless the policy stops it at a misaligned pc (40_cycle.md R93). -/
theorem step_running {s : State} (hh : s.halted = false) (ha : s.mayFetch) : step s = fetchAndRun (poll s) := by
  unfold step cycle coreStep
  cases hp : s.params.misalignedPc with
  | bytewise => simp [hh, hp]
  | fault => simp [hh, hp, aligned, ha.resolve_right (by simp [hp])]

/-- A running machine at a misaligned pc stops under the default policy (40_cycle.md R93). -/
theorem step_misaligned {s : State} (hh : s.halted = false) (ha : ¬ s.mayFetch) : step s = .fault .misalignedPc := by
  obtain ⟨ha, hp⟩ := not_or.mp ha
  unfold step cycle coreStep
  cases h : s.params.misalignedPc with
  | bytewise => exact absurd h hp
  | fault => simp [hh, h, aligned, ha]

/-- Fetching and running a word that decodes to an instruction is executing it. -/
theorem fetchAndRun_ok {s s1 : State} {w : Word} {i : Instr} (hf : fetch s = (some w, s1))
    (hd : decodeWordWith s1.params.decode w = .ok i) : fetchAndRun s = exec i s1 := by
  unfold fetchAndRun runWord
  rw [hf]
  simp [hd]

/-- Fetch does not change the parameters. -/
@[simp] theorem params_fetch (s : State) : (fetch s).2.params = s.params := by
  obtain ⟨u, h, -⟩ := fetch_frame s
  rw [h]

/-- Everything `runWord` can do. -/
theorem runWord_cases (w : Word) (s : State) :
    (decodeWordWith s.params.decode w = .error .invalidEncoding ∧ runWord w s = .next s.halt) ∨
    ((decodeWordWith s.params.decode w = .error .unlistedGroup ∨
        decodeWordWith s.params.decode w = .error .unlistedFunction) ∧
      runWord w s = .next (s.raiseTrap .illegalInstruction)) ∨
    (∃ i, decodeWordWith s.params.decode w = .ok i ∧ runWord w s = exec i s) := by
  rcases decodeWordWith_cases s.params.decode w with ⟨_, h⟩ | ⟨_, ⟨i, h⟩ | h | h⟩
  · exact .inl ⟨h, by simp [runWord, h]⟩
  · exact .inr (.inr ⟨i, h, by simp [runWord, h]⟩)
  · exact .inr (.inl ⟨.inl h, by simp [runWord, h]⟩)
  · exact .inr (.inl ⟨.inr h, by simp [runWord, h]⟩)

/-- Everything a step that answers a next state did. -/
theorem step_cases {s t : State} (h : step s = .next t) :
    s.halted = false ∧ s.mayFetch ∧
      (((fetch (poll s)).1 = none ∧ t = (fetch (poll s)).2.fetchTrap) ∨
       ∃ w, (fetch (poll s)).1 = some w ∧
        ((decodeWordWith s.params.decode w = .error .invalidEncoding ∧ t = (fetch (poll s)).2.halt) ∨
         ((decodeWordWith s.params.decode w = .error .unlistedGroup ∨
              decodeWordWith s.params.decode w = .error .unlistedFunction) ∧
            t = (fetch (poll s)).2.raiseTrap .illegalInstruction) ∨
         (∃ i, decodeWordWith s.params.decode w = .ok i ∧ exec i (fetch (poll s)).2 = .next t))) := by
  cases hh : s.halted with
  | true => simp [step, cycle, hh] at h
  | false =>
    have ha : s.mayFetch := by
      by_contra ha
      rw [step_misaligned hh ha] at h
      cases h
    refine ⟨rfl, ha, ?_⟩
    rw [step_running hh ha] at h
    have hp : (fetch (poll s)).2.params = s.params := (params_fetch _).trans (poll_params s)
    unfold fetchAndRun at h
    cases hf : fetch (poll s) with
    | mk o s1 =>
      rw [hf] at h hp
      cases o with
      | none =>
        simp only [Host.Outcome.next.injEq] at h
        exact .inl ⟨rfl, h.symm⟩
      | some w =>
        refine .inr ⟨w, rfl, ?_⟩
        have hc := runWord_cases w s1
        rw [hp] at hc
        rcases hc with ⟨hd, hr⟩ | ⟨hd, hr⟩ | ⟨i, hd, hr⟩
        · simp only [hr, Host.Outcome.next.injEq] at h
          exact .inl ⟨hd, h.symm⟩
        · simp only [hr, Host.Outcome.next.injEq] at h
          exact .inr (.inl ⟨hd, h.symm⟩)
        · simp only [hr] at h
          exact .inr (.inr ⟨i, hd, h⟩)

/-- Where a placed word can be fetched: aligned, and its four bytes in ROM or RAM. -/
theorem fetchable_iff (m : AddressMap) (a : Word) :
    fetchable m a = true ↔ aligned 4 a = true ∧ ∀ k, k < 4 → stored m (a.toNat + k) := by
  have h : ∀ x, hasStorage m x = true ↔ stored m x := by
    intro x
    simp [hasStorage]
  unfold fetchable
  simp only [Bool.and_eq_true, h]
  refine and_congr_right fun _ => ⟨fun hs k hk => ?_, fun hs => ⟨⟨⟨hs 0 (by decide), hs 1 (by decide)⟩,
    hs 2 (by decide)⟩, hs 3 (by decide)⟩⟩
  interval_cases k
  · exact hs.1.1.1
  · exact hs.1.1.2
  · exact hs.1.2
  · exact hs.2

/-- An invariant that holds where a run begins and that every step keeps, holds wherever the run comes. -/
theorem reaches_induction {P : State → Prop} {s t : State} (hr : Reaches s t) (h0 : P s)
    (hstep : ∀ u v, P u → step u = .next v → P v) : P t := by
  induction hr with
  | refl => exact h0
  | tail u v _ huv ih => exact hstep u v ih huv

end Sys2Proof.Machine
end

