-- ==== Sys2Proof/Tests/Slice0.lean ====
section
/-!
SUPPORT. The author's own tests. Expected values are the spec's: 95_test_vectors.md (by the name of its table or example)
and the examples inside the instruction rules; no value is the model's own answer. Sections: well-formedness, decoding and
encoding, one step of each instruction, words that are no instruction, the UART, reset, and a witness for every obligation
that has hypotheses.
-/

namespace Sys2Proof.Tests

open Sys2Proof Sys2Proof.Machine

/-! ### Helpers -/

/-- A predicate of the next state; false on a fault or a refusal. -/
def after (o : Host.Outcome State Fault Refusal) (p : State → Bool) : Bool :=
  match o with
  | .next t => p t
  | .fault _ => false
  | .refused _ => false

/-- The vectors' start state: reset, with a pc, some registers and some RAM bytes (95_test_vectors.md, Conventions). -/
def start (pc : Word) (regs : List (Reg × Word)) (ram : List Host.Cell) : State :=
  { regs.foldl (fun s rv => s.writeReg rv.1 rv.2) State.reset with pc := pc, mem := ram }

/-- The start state with UART registers. -/
def startUart (regs : List (Reg × Word)) (u : Uart) : State := { start 0x100#32 regs [] with uart := u }

/-- A received byte waits, the transmitter is idle. -/
def received (b : Byte) : Uart := { dataIn := b, dataOut := 0x00#8, newdat := true, txdone := true }

/-- One step of a word placed at pc. -/
def runs (w : Nat) (s : State) (p : State → Bool) : Bool := after (step (s.withFetchWord 32 w)) p

/-- RAM_BASE on: 80 FF 34 92. -/
def ram4 : List Host.Cell := [(0x10000, 0x80#8), (0x10001, 0xFF#8), (0x10002, 0x34#8), (0x10003, 0x92#8)]

/-- No trap, the given register value and pc. -/
def result (r : Reg) (v pc : Word) (t : State) : Bool := t.readReg r == v && t.pc == pc && t.report == none

/-- A trap, a register kept, pc + 4 from 0x100. -/
def trapped (k : ErrorKind) (r : Reg) (v : Word) (t : State) : Bool :=
  t.readReg r == v && t.pc == 0x104#32 && t.report == some k

/-! ### Well-formedness: one ill-formed term for each check (30_encoding.md R65, R67) -/

theorem test_wf_beq_odd_offset_refused : (Instr.beq 1 2 0x0001#13).wellFormed = false := by decide
theorem test_wf_bne_odd_offset_refused : (Instr.bne 1 2 0x0001#13).wellFormed = false := by decide
theorem test_wf_blt_odd_offset_refused : (Instr.blt 1 2 0x0001#13).wellFormed = false := by decide
theorem test_wf_bge_odd_offset_refused : (Instr.bge 1 2 0x0001#13).wellFormed = false := by decide
theorem test_wf_bltu_odd_offset_refused : (Instr.bltu 1 2 0x0001#13).wellFormed = false := by decide
theorem test_wf_bgeu_odd_offset_refused : (Instr.bgeu 1 2 0x0001#13).wellFormed = false := by decide
theorem test_wf_jal_odd_offset_refused : (Instr.jal 1 0x00001#21).wellFormed = false := by decide

/-! ### Decoding and encoding: the words of 95_test_vectors.md Part 2, both ways -/

/-- Every word decodes to the instruction written beside it, and the instruction encodes to the word. -/
def bothWays (l : List (Nat × Instr)) : Bool :=
  l.all fun p => decide (decodeTableWord 32 p.1 = some p.2) && (encode p.2 == BitVec.ofNat 32 p.1)

theorem test_words_load : bothWays
  [ (0x00030283, .lb 5 6 0), (0xFFF30283, .lb 5 6 0xFFF), (0x00231283, .lh 5 6 2),
    (0xFFC32283, .lw 5 6 0xFFC), (0x80032283, .lw 5 6 0x800), (0x00334283, .lbu 5 6 3),
    (0x00235283, .lhu 5 6 2) ] = true := by decide
theorem test_words_op_imm : bothWays
  [ (0xFFD08113, .addi 2 1 0xFFD), (0x7FF08113, .addi 2 1 0x7FF), (0xFFF0A113, .slti 2 1 0xFFF),
    (0x0010B113, .sltiu 2 1 1), (0x0F00C113, .xori 2 1 0x0F0), (0xF000E113, .ori 2 1 0xF00),
    (0xFF00F113, .andi 2 1 0xFF0), (0x01F09113, .slli 2 1 31), (0x0010D113, .srli 2 1 1),
    (0x4040D113, .srai 2 1 4) ] = true := by decide
theorem test_words_upper : bothWays
  [ (0x123452B7, .lui 5 0x12345), (0xFFFFF297, .auipc 5 0xFFFFF), (0x00001297, .auipc 5 1) ] = true := by decide
theorem test_words_store : bothWays
  [ (0xFE110FA3, .sb 2 1 0xFFF), (0x00111123, .sh 2 1 2), (0xFE112E23, .sw 2 1 0xFFC),
    (0x7E112FA3, .sw 2 1 0x7FF) ] = true := by decide
theorem test_words_op : bothWays
  [ (0x002081B3, .add 3 1 2), (0x402081B3, .sub 3 1 2), (0x002091B3, .sll 3 1 2),
    (0x0020A1B3, .slt 3 1 2), (0x0020B1B3, .sltu 3 1 2), (0x0020C1B3, .xor 3 1 2),
    (0x0020D1B3, .srl 3 1 2), (0x4020D1B3, .sra 3 1 2), (0x0020E1B3, .or 3 1 2),
    (0x0020F1B3, .and 3 1 2) ] = true := by decide
theorem test_words_branch : bothWays
  [ (0x00000463, .beq 0 0 8), (0x80000063, .beq 0 0 0x1000), (0x7E000FE3, .beq 0 0 0x0FFE),
    (0x000000E3, .beq 0 0 0x0800), (0x00209863, .bne 1 2 16), (0x0020C863, .blt 1 2 16),
    (0x0020D863, .bge 1 2 16), (0x0020E863, .bltu 1 2 16), (0x0020F863, .bgeu 1 2 16) ] = true := by decide
theorem test_words_jump : bothWays
  [ (0x7FFFF0EF, .jal 1 0x0FFFFE), (0x800000EF, .jal 1 0x100000), (0x001002EF, .jal 5 0x800),
    (0xF01FF0EF, .jal 1 0x1FFF00), (0xFFC280E7, .jalr 1 5 0xFFC), (0x00000073, .system) ] = true := by decide

/-! One word of each format bit by bit, from the spec's format table (30_encoding.md R62). -/

/-- R: funct7, rs2, rs1, funct3, rd, group, 11. -/
theorem test_bits_sub : decodeWord (0b0100000#7 ++ 0b00010#5 ++ 0b00001#5 ++ 0b000#3 ++ 0b00011#5 ++ 0b01100#5 ++ 0b11#2)
    = .ok (.sub 3 1 2) := rfl
/-- I, LOAD: imm[11:0], rs1, funct3, rd, group, 11. -/
theorem test_bits_lw : decodeWord (0b111111111100#12 ++ 0b00110#5 ++ 0b010#3 ++ 0b00101#5 ++ 0b00000#5 ++ 0b11#2)
    = .ok (.lw 5 6 0xFFC#12) := rfl
/-- I, OP-IMM. -/
theorem test_bits_addi : decodeWord (0b111111111101#12 ++ 0b00001#5 ++ 0b000#3 ++ 0b00010#5 ++ 0b00100#5 ++ 0b11#2)
    = .ok (.addi 2 1 0xFFD#12) := rfl
/-- I-shift: funct7, shamt, rs1, funct3, rd, group, 11. -/
theorem test_bits_srai : decodeWord (0b0100000#7 ++ 0b00100#5 ++ 0b00001#5 ++ 0b101#3 ++ 0b00010#5 ++ 0b00100#5 ++ 0b11#2)
    = .ok (.srai 2 1 4#5) := rfl
/-- I, JALR. -/
theorem test_bits_jalr : decodeWord (0b000000000100#12 ++ 0b00101#5 ++ 0b000#3 ++ 0b00001#5 ++ 0b11001#5 ++ 0b11#2)
    = .ok (.jalr 1 5 4#12) := rfl
/-- S: imm[11:5], rs2, rs1, funct3, imm[4:0], group, 11. -/
theorem test_bits_sw : decodeWord (0b1111111#7 ++ 0b00001#5 ++ 0b00010#5 ++ 0b010#3 ++ 0b11100#5 ++ 0b01000#5 ++ 0b11#2)
    = .ok (.sw 2 1 0xFFC#12) := rfl
/-- B: imm[12], imm[10:5], rs2, rs1, funct3, imm[4:1], imm[11], group, 11. -/
theorem test_bits_bne : decodeWord (0b1#1 ++ 0b111111#6 ++ 0b00000#5 ++ 0b00001#5 ++ 0b001#3 ++ 0b1100#4 ++ 0b1#1
    ++ 0b11000#5 ++ 0b11#2) = .ok (.bne 1 0 0x1FF8#13) := rfl
/-- U: imm[31:12], rd, group, 11. -/
theorem test_bits_auipc : decodeWord (0b00010010001101000101#20 ++ 0b00101#5 ++ 0b00101#5 ++ 0b11#2)
    = .ok (.auipc 5 0x12345#20) := rfl
theorem test_bits_lui : decodeWord (0b00010010001101000101#20 ++ 0b00101#5 ++ 0b01101#5 ++ 0b11#2)
    = .ok (.lui 5 0x12345#20) := rfl
/-- J: imm[20], imm[10:1], imm[11], imm[19:12], rd, group, 11. -/
theorem test_bits_jal : decodeWord (0b0#1 ++ 0b0000000000#10 ++ 0b1#1 ++ 0b00000000#8 ++ 0b00101#5 ++ 0b11011#5 ++ 0b11#2)
    = .ok (.jal 5 0x000800#21) := rfl
/-- SYSTEM: any upper 25 bits (48_system.md R180, CSRRW x5, mstatus, x1). -/
theorem test_bits_system : decodeWord (0x300#12 ++ 0b00001#5 ++ 0b001#3 ++ 0b00101#5 ++ 0b11100#5 ++ 0b11#2)
    = .ok .system := rfl

/-- The masks of the opcode table do not overlap: no two rows agree on the bits both fix. -/
theorem test_rows_disjoint :
    opcodeRows.Pairwise (fun r q => r.pattern &&& (r.mask &&& q.mask) ≠ q.pattern &&& (r.mask &&& q.mask)) := by decide

/-- Immediates of words that use none of them (V-IMM, 0xAAAA_AAAB). -/
theorem test_imm_alternating_bits :
    sext12 (immI 0xAAAAAAAB#32) = 0xFFFFFAAA#32 ∧ sext12 (immS 0xAAAAAAAB#32) = 0xFFFFFAB5#32 ∧
    sext13 (immB 0xAAAAAAAB#32) = 0xFFFFFAB4#32 ∧ upperImm (fieldU 0xAAAAAAAB#32) = 0xAAAAA000#32 ∧
    sext21 (immJ 0xAAAAAAAB#32) = 0xFFFAA2AA#32 := by decide

/-! ### One step of each instruction -/

/-! LOAD (V-LOAD). -/
theorem test_lb_sign_extends :
    runs 0x00030283 (start 0x100 [(6, 0x10000)] ram4)
      (result 5 0xFFFFFF80 0x104) = true := by decide
theorem test_lb_unmapped_keeps_rd :
    runs 0xFFF00283 (start 0x100 [(5, 0xAAAA5555)] [])
      (trapped .inaccessibleMemory 5 0xAAAA5555) = true := by decide
theorem test_lh_sign_extends :
    runs 0x00231283 (start 0x100 [(6, 0x10000)] ram4)
      (result 5 0xFFFF9234 0x104) = true := by decide
theorem test_lh_odd_address_traps :
    runs 0x00131283 (start 0x100 [(6, 0x10000), (5, 0xAAAA5555)] ram4)
      (trapped .misalignedAccess 5 0xAAAA5555) = true := by decide
theorem test_lw_negative_offset :
    runs 0xFFC32283 (start 0x100 [(6, 0x10004)] ram4)
      (result 5 0x9234FF80 0x104) = true := by decide
theorem test_lw_uart_consumes_and_traps :
    runs 0x00032283 (startUart [(6, 0x80000000), (5, 0xAAAA5555)] (received 0x42))
      (fun t => trapped .inaccessibleMemory 5 0xAAAA5555 t && !t.uart.newdat) = true := by decide
theorem test_lbu_zero_extends :
    runs 0x00334283 (start 0x100 [(6, 0x10000)] ram4)
      (result 5 0x92 0x104) = true := by decide
theorem test_lbu_data_consumes :
    runs 0x00134283 (startUart [(6, 0x80000000)] (received 0x42))
      (fun t => result 5 0x42 0x104 t && !t.uart.newdat) = true := by decide
theorem test_lhu_zero_extends :
    runs 0x00035283 (start 0x100 [(6, 0x10000)] ram4)
      (result 5 0xFF80 0x104) = true := by decide
theorem test_lhu_uart_data_above_status :
    runs 0x00035283 (startUart [(6, 0x80000000)] (received 0x42))
      (fun t => result 5 0x4203 0x104 t && !t.uart.newdat) = true := by decide

/-! OP-IMM (V-OPIMM). -/
theorem test_addi_negative : runs 0xFFD08113 (start 0x100 [(1, 5)] []) (result 2 2 0x104) = true := by decide
theorem test_addi_x0_discards : runs 0x00108013 (start 0x100 [(1, 0x29)] []) (result 0 0 0x104) = true := by decide
theorem test_slti_signed : runs 0x0000A113 (start 0x100 [(1, 0x80000000)] []) (result 2 1 0x104) = true := by decide
theorem test_slti_equal :
    runs 0x0050A113 (start 0x100 [(1, 5), (2, 0xAAAA5555)] [])
      (result 2 0 0x104) = true := by decide
theorem test_sltiu_sign_extended_first : runs 0xFFF0B113 (start 0x100 [(1, 0)] []) (result 2 1 0x104) = true := by decide
theorem test_sltiu_equal_to_all_ones :
    runs 0xFFF0B113 (start 0x100 [(1, 0xFFFFFFFF), (2, 7)] [])
      (result 2 0 0x104) = true := by decide
theorem test_xori_complements :
    runs 0xFFF0C113 (start 0x100 [(1, 0x12345678)] [])
      (result 2 0xEDCBA987 0x104) = true := by decide
theorem test_ori_negative :
    runs 0xF000E113 (start 0x100 [(1, 0x12345678)] [])
      (result 2 0xFFFFFF78 0x104) = true := by decide
theorem test_andi_negative :
    runs 0xFF00F113 (start 0x100 [(1, 0x12345678)] [])
      (result 2 0x12345670 0x104) = true := by decide
theorem test_slli_loses_high_bits :
    runs 0x00109113 (start 0x100 [(1, 0x80000001)] [])
      (result 2 2 0x104) = true := by decide
theorem test_slli_31 : runs 0x01F09113 (start 0x100 [(1, 0x80000001)] []) (result 2 0x80000000 0x104) = true := by decide
theorem test_srli_fills_with_zeros :
    runs 0x0010D113 (start 0x100 [(1, 0x80000001)] [])
      (result 2 0x40000000 0x104) = true := by decide
theorem test_srli_31 : runs 0x01F0D113 (start 0x100 [(1, 0x80000001)] []) (result 2 1 0x104) = true := by decide
theorem test_srai_fills_with_sign :
    runs 0x4040D113 (start 0x100 [(1, 0x87654321)] [])
      (result 2 0xF8765432 0x104) = true := by decide
theorem test_srai_positive :
    runs 0x41F0D113 (start 0x100 [(1, 0x7FFFFFFF), (2, 9)] [])
      (result 2 0 0x104) = true := by decide

/-! AUIPC and LUI (V-UPPER). -/
theorem test_auipc_wraps : runs 0xFFFFF297 (start 0x1000 [] []) (result 5 0 0x1004) = true := by decide
theorem test_auipc_ram_pc : runs 0x80000297 (start 0x10004 [] []) (result 5 0x80010004 0x10008) = true := by decide
theorem test_lui_field : runs 0x123452B7 (start 0x100 [] []) (result 5 0x12345000 0x104) = true := by decide
theorem test_lui_clears : runs 0x000002B7 (start 0x100 [(5, 0xAAAA5555)] []) (result 5 0 0x104) = true := by decide

/-! STORE (V-STORE). -/
theorem test_sb_last_ram_byte :
    runs 0xFE110FA3 (start 0x100 [(1, 0xAB), (2, 0x20000)] [])
      (fun t => result 1 0xAB 0x104 t && Memory.read t.mem 0x1ffff == 0xAB &&
        Memory.read t.mem 0x1FFFE == 0) = true := by decide
theorem test_sb_data_queues :
    runs 0x001100A3 (start 0x100 [(1, 0x12345641), (2, 0x80000000)] [])
      (fun t => result 1 0x12345641 0x104 t && t.uart.dataOut == 0x41 && !t.uart.txdone) = true := by decide
theorem test_sh_two_bytes :
    runs 0x00111123 (start 0x100 [(1, 0x12345678), (2, 0x10000)] [])
      (fun t => result 1 0x12345678 0x104 t && Memory.read t.mem 0x10001 == 0 &&
        Memory.read t.mem 0x10002 == 0x78 && Memory.read t.mem 0x10003 == 0x56 &&
        Memory.read t.mem 0x10004 == 0) = true := by decide
theorem test_sh_odd_address_traps :
    runs 0x001110A3 (start 0x100 [(1, 0x12345678), (2, 0x10000)] [])
      (fun t => trapped .misalignedAccess 1 0x12345678 t && Memory.read t.mem 0x10001 == 0) = true := by decide
theorem test_sw_little_endian :
    runs 0x00112023 (start 0x100 [(1, 0x12345678), (2, 0x10000)] [])
      (fun t => result 1 0x12345678 0x104 t && Memory.read t.mem 0x10000 == 0x78 &&
        Memory.read t.mem 0x10001 == 0x56 && Memory.read t.mem 0x10002 == 0x34 &&
        Memory.read t.mem 0x10003 == 0x12) = true := by decide
theorem test_sw_rom_denied :
    runs 0x00112023 (start 0x100 [(1, 0x12345678), (2, 0x200)] [])
      (fun t => trapped .inaccessibleMemory 1 0x12345678 t && Memory.read t.mem 0x200 == 0) = true := by decide

/-! OP (V-OP). -/
theorem test_add_same_register :
    runs 0x001080B3 (start 0x100 [(1, 0x40000001)] [])
      (result 1 0x80000002 0x104) = true := by decide
theorem test_add_wraps :
    runs 0x002081B3 (start 0x100 [(1, 0xFFFFFFFF), (2, 1), (3, 7)] [])
      (result 3 0 0x104) = true := by decide
theorem test_sub_rs1_minus_rs2 :
    runs 0x402081B3 (start 0x100 [(1, 5), (2, 7)] [])
      (result 3 0xFFFFFFFE 0x104) = true := by decide
theorem test_sll_low_five_bits :
    runs 0x002091B3 (start 0x100 [(1, 0x12345678), (2, 0xFFFFFFE4)] [])
      (result 3 0x23456780 0x104) = true := by decide
theorem test_sll_funct7_ignored :
    runs 0x402091B3 (start 0x100 [(1, 3), (2, 5)] [])
      (result 3 0x60 0x104) = true := by decide
theorem test_slt_signed :
    runs 0x0020A1B3 (start 0x100 [(1, 0xFFFFFFFF), (2, 1)] [])
      (result 3 1 0x104) = true := by decide
theorem test_slt_not_less :
    runs 0x0020A1B3 (start 0x100 [(1, 1), (2, 0xFFFFFFFF), (3, 9)] [])
      (result 3 0 0x104) = true := by decide
theorem test_sltu_unsigned :
    runs 0x0020B1B3 (start 0x100 [(1, 1), (2, 0xFFFFFFFF)] [])
      (result 3 1 0x104) = true := by decide
theorem test_sltu_not_less :
    runs 0x0020B1B3 (start 0x100 [(1, 0xFFFFFFFF), (2, 1), (3, 9)] [])
      (result 3 0 0x104) = true := by decide
theorem test_xor :
    runs 0x0020C1B3 (start 0x100 [(1, 0xFF00FF00), (2, 0x0FF00FF0)] [])
      (result 3 0xF0F0F0F0 0x104) = true := by decide
theorem test_xor_funct7_ignored :
    runs 0x0220C1B3 (start 0x100 [(1, 3), (2, 5)] [])
      (result 3 6 0x104) = true := by decide
theorem test_srl_amount_36_shifts_by_4 :
    runs 0x0020D1B3 (start 0x100 [(1, 0x87654321), (2, 36)] [])
      (result 3 0x08765432 0x104) = true := by decide
theorem test_sra_amount_36_shifts_by_4 :
    runs 0x4020D1B3 (start 0x100 [(1, 0x87654321), (2, 36)] [])
      (result 3 0xF8765432 0x104) = true := by decide
theorem test_sra_amount_32_shifts_by_0 :
    runs 0x4020D1B3 (start 0x100 [(1, 0x87654321), (2, 32)] [])
      (result 3 0x87654321 0x104) = true := by decide
theorem test_or :
    runs 0x0020E1B3 (start 0x100 [(1, 0xFF00FF00), (2, 0x0FF00FF0)] [])
      (result 3 0xFFF0FFF0 0x104) = true := by decide
theorem test_and :
    runs 0x0020F1B3 (start 0x100 [(1, 0xFF00FF00), (2, 0x0FF00FF0)] [])
      (result 3 0x0F000F00 0x104) = true := by decide

/-! BRANCH (V-BRANCH). -/
theorem test_beq_taken_from_100 : runs 0x00000463 (start 100 [] []) (result 0 0 108) = true := by decide
theorem test_beq_wraps_below_zero : runs 0xFE000CE3 (start 4 [] []) (result 0 0 0xFFFFFFFC) = true := by decide
theorem test_bne_taken : runs 0x00209863 (start 0x100 [(1, 5), (2, 6)] []) (result 1 5 0x110) = true := by decide
theorem test_bne_not_taken : runs 0x00209863 (start 0x100 [(1, 5), (2, 5)] []) (result 1 5 0x104) = true := by decide
theorem test_blt_signed :
    runs 0x0020C863 (start 0x100 [(1, 0xFFFFFFFF), (2, 1)] [])
      (result 2 1 0x110) = true := by decide
theorem test_blt_equal_not_taken :
    runs 0x0020C863 (start 0x100 [(1, 5), (2, 5)] [])
      (result 1 5 0x104) = true := by decide
theorem test_bge_equal_taken : runs 0x0020D863 (start 0x100 [(1, 5), (2, 5)] []) (result 1 5 0x110) = true := by decide
theorem test_bge_signed_not_taken :
    runs 0x0020D863 (start 0x100 [(1, 0x80000000), (2, 0)] [])
      (result 2 0 0x104) = true := by decide
theorem test_bltu_unsigned :
    runs 0x0020E863 (start 0x100 [(1, 1), (2, 0xFFFFFFFF)] [])
      (result 1 1 0x110) = true := by decide
theorem test_bltu_not_taken :
    runs 0x0020E863 (start 0x100 [(1, 0xFFFFFFFF), (2, 1)] [])
      (result 2 1 0x104) = true := by decide
theorem test_bgeu_unsigned :
    runs 0x0020F863 (start 0x100 [(1, 0xFFFFFFFF), (2, 1)] [])
      (result 2 1 0x110) = true := by decide
theorem test_bgeu_not_taken : runs 0x0020F863 (start 0x100 [(1, 0), (2, 1)] []) (result 2 1 0x104) = true := by decide

/-! JALR, JAL (V-JUMP) and SYSTEM (V-SYSTEM). -/
theorem test_jalr_same_register :
    runs 0x000282E7 (start 0x100 [(5, 0x200)] [])
      (result 5 0x104 0x200) = true := by decide
theorem test_jalr_clears_bit_0_keeps_bit_1 :
    runs 0x003280E7 (start 0x100 [(5, 0x200)] [])
      (result 1 0x104 0x202) = true := by decide
theorem test_jal_backwards : runs 0xF01FF0EF (start 0x100 [] []) (result 1 0x104 0) = true := by decide
theorem test_jal_out_of_rom : runs 0x004000EF (start 0xFFFC [] []) (result 1 0x10000 0x10000) = true := by decide
theorem test_system_csr_read_keeps_rd :
    runs 0xF14022F3 (start 0x100 [(1, 7), (5, 0xAAAA5555)] [])
      (result 5 0xAAAA5555 0x104) = true := by decide
theorem test_system_all_other_bits :
    runs 0xFFFFFFF3 (start 0x100 [(1, 7), (31, 0xAAAA5555)] [])
      (result 31 0xAAAA5555 0x104) = true := by decide

/-! ### Words that are no instruction (V-SYSTEM, V-OP, V-LOAD, V-STORE, V-BRANCH) -/

theorem test_fence_is_skipped :
    runs 0x0FF0000F (start 0x100 [(5, 7)] [])
      (trapped .illegalInstruction 5 7) = true := by decide
theorem test_mul_is_skipped :
    runs 0x022081B3 (start 0x100 [(1, 3), (2, 4), (3, 7)] [])
      (trapped .illegalInstruction 3 7) = true := by decide
theorem test_shift_by_32_is_skipped :
    runs 0x02409113 (start 0x100 [(1, 3), (2, 7)] [])
      (trapped .illegalInstruction 2 7) = true := by decide
theorem test_load_funct3_3_is_skipped :
    runs 0x00033283 (start 0x100 [(6, 0x10000), (5, 7)] ram4)
      (trapped .illegalInstruction 5 7) = true := by decide
theorem test_branch_funct3_2_is_skipped :
    runs 0x0020A863 (start 0x100 [(1, 5), (2, 5)] [])
      (trapped .illegalInstruction 1 5) = true := by decide
theorem test_misaligned_before_unmapped :
    runs 0x00032283 (start 0x100 [(6, 0x20001), (5, 7)] [])
      (trapped .misalignedAccess 5 7) = true := by decide
theorem test_zero_word_halts :
    runs 0x00000000 (start 0x100 [(1, 7)] [])
      (fun t => t.halted && t.pc == 0x100 && t.report == some .invalidInstructionEncoding &&
        t.readReg 1 == 7) = true := by
  decide
theorem test_long_format_halts : runs 0x0000005F (start 0x100 [] []) (fun t => t.halted &&
        t.pc == 0x100) = true := by decide
/-- Program P7: the fetch at 0x0002_0000 fails and pc stays. -/
theorem test_failed_fetch_keeps_pc :
    after (step (start 0x20000 [(1, 0x20000)] []))
      (fun t => t.pc == 0x20000 && t.report == some .inaccessibleMemory && t.readReg 1 == 0x20000) = true := by decide
/-- From `State.reset` with nothing placed the first step fetches 0x0000_0000, which is fatal (assumption log 23). -/
theorem test_first_step_of_empty_machine : after (step State.reset) (fun t => t.halted && t.pc == 0) = true := by decide

/-! ### The UART (V-UART) -/

/-- U-1: a store to DATA, then a poll. -/
theorem test_uart_transmit :
    (match storeByte 0x80000001 0x41 State.reset with
     | .ok s => !s.uart.txdone && (poll s).uart.txdone && (poll s).host.txlog == [0x41] &&
         (poll (poll s)).host.txlog == [0x41]
     | .error _ => false) = true := by decide
/-- U-3: a burst; the oldest byte is received, the rest is lost. -/
theorem test_uart_burst :
    (poll { State.reset with host := { HostChannel.silent with arrivals := [[0x61, 0x62, 0x63]] } }).uart
      = received 0x61 ∧
    (poll { State.reset with host := { HostChannel.silent with arrivals := [[0x61, 0x62, 0x63]] } }).host
      = HostChannel.silent := by decide
/-- U-4: a byte that arrives while NEWDAT is set waits on the host's side. -/
theorem test_uart_waits :
    (poll { State.reset with uart := received 0x61, host := { HostChannel.silent with arrivals := [[0x62]] } }).uart
      = received 0x61 ∧
    (poll { State.reset with uart := received 0x61, host := { HostChannel.silent with arrivals := [[0x62]] } }).host.rxq
      = [0x62] := by decide
/-- R262: a host that sends a byte before every poll for ever: a program that reads DATA finds NEWDAT set again. -/
def endlessHost : HostChannel := { HostChannel.silent with later := .repeats [[0x61], [0x62, 0x63]] }

theorem test_endless_sender :
    (match loadByte 0x80000001 (poll { State.reset with host := endlessHost }) with
     | .ok (b, s) => b == 0x61 && !s.uart.newdat && (poll s).uart == received 0x62 && (poll s).host == endlessHost
     | .error _ => false) = true := by decide
/-- U-5: receive, then transmit, in one poll. -/
theorem test_uart_both_parts :
    poll { State.reset with uart := { dataIn := 0x00, dataOut := 0x32, newdat := false, txdone := false },
                            host := { HostChannel.silent with rxq := [0x31] } }
      = { State.reset with uart := { dataIn := 0x31, dataOut := 0x32, newdat := true, txdone := true },
                           host := { HostChannel.silent with txlog := [0x32] } } := by decide
/-- R211: the four status bytes. -/
theorem test_status_bytes :
    statusByte Config.params ⟨0, 0, false, false⟩ = 0x00 ∧ statusByte Config.params ⟨0, 0, true, false⟩ = 0x01 ∧
    statusByte Config.params ⟨0, 0, false, true⟩ = 0x02 ∧ statusByte Config.params ⟨0, 0, true, true⟩ = 0x03 := by decide

/-! ### Reset and the CSR file -/

theorem test_reset_status_reads_idle : statusByte State.reset.params State.reset.uart = 0x02 := by decide
/-- A launch at another map, RESET_PC and policy, with an image, registers and a waiting byte. -/
def otherParams : Params where
  map          := { romBase := 0x1000, romLast := 0x1FFF, ramBase := 0x2000, ramLast := 0x20FD, uartBase := 0x20FE, uartLast := 0x20FF }
  resetPc      := 0x1004#32
  newdatMask   := 0x02#8
  txdoneMask   := 0x01#8
  decode       := ⟨true, true⟩
  misalignedPc := .bytewise

/-- A CSR table with one entry more, and with misa read-only. -/
def otherCsrTable : List CsrEntry :=
  [ ⟨"mstatus", 0x300, none, none⟩, ⟨"misa", 0x301, some (.constant 0x40000100), none⟩,
    ⟨"vendor ID", 0xF11, some (.constant 0), some .ignore⟩, ⟨"arch ID", 0xF12, some (.constant 0), some .ignore⟩,
    ⟨"impl ID", 0xF13, some (.constant 0), some .ignore⟩, ⟨"hart ID", 0xF14, some (.constant 0), some .ignore⟩,
    ⟨"own", 0x7C0, some (.constant 5), none⟩ ]

def otherLaunch (image : List Byte) : State :=
  State.launch ⟨otherParams, otherCsrTable, image, Vector.replicate 32 0x20FC#32, [0x42#8], [], .repeats []⟩

theorem test_launch_image : Memory.read (otherLaunch [0x13, 0x05]).mem 0x1001 = 0x05 := by decide
/-- R245: `txlog` is empty and the waiting byte is received by the first poll; R241: the first fetch is at RESET_PC. -/
theorem test_launch_first_cycle :
    after (step (otherLaunch [0, 0, 0, 0, 0x13, 0, 0, 0])) (fun t => t.pc == 0x1008 && t.host.txlog == [] &&
      t.uart == received 0x42) = true := by decide
/-- R31, R40: at this map a word load at 0x20FC mixes two RAM bytes, STATUS and DATA (x6 = 0x20FC; masks exchanged). -/
theorem test_lw_across_ram_and_uart :
    after (exec (.lw 5 6 0#12) (poll (otherLaunch [])))
      (fun t => t.readReg 5 == 0x42030000 && !t.uart.newdat && t.report == none) = true := by decide
/-- R150: OR with funct7 0x40 is illegal at the strict setting. -/
theorem test_strict_funct7 : after (runWord 0x8020E1B3 (otherLaunch []))
    (fun t => t.report == some .illegalInstruction && t.pc == 0x1008) = true := by decide
/-- R31: maps that are not allowed: overlapping regions, a UART window at an odd base, one of three bytes. -/
theorem test_map_overlap_refused : (AddressMap.wf { Config.referenceMap with romLast := 0x10000 }) = false := by decide
theorem test_map_odd_uart_refused :
    (AddressMap.wf { Config.referenceMap with uartBase := 0x80000001, uartLast := 0x80000002 }) = false := by decide
theorem test_map_long_uart_refused : (AddressMap.wf { Config.referenceMap with uartLast := 0x80000002 }) = false := by decide
/-- R241, R211: parameters that are not allowed. -/
theorem test_reset_pc_not_multiple_of_4_refused : (Params.wf { Config.params with resetPc := 0x2#32 }) = false := by decide
theorem test_equal_masks_refused : (Params.wf { Config.params with newdatMask := 0x02#8 }) = false := by decide
/-- R205: a table without the hart ID, and one with two entries for an address, are not allowed. -/
theorem test_csr_table_refused : Config.csrTableWf (otherCsrTable.take 5) = false ∧
    Config.csrTableWf (otherCsrTable ++ [⟨"again", 0x300, none, none⟩]) = false := by decide
theorem test_csr_hart_id : csrGet 0xF14 State.reset = .ok 0 := rfl
theorem test_csr_unknown : csrGet 0x7C0 State.reset = .error .invalidRegister := rfl

/-! ### Witnesses: for every obligation with hypotheses, a concrete state and operands that meet them together, each clause
at the ends of its range -/

/-- Some next state has the property: what the hypotheses `… = .next t` and those on `t` ask for. -/
theorem exists_of_after {o : Host.Outcome State Fault Refusal} {p : State → Bool} (h : after o p = true) :
    ∃ t, o = .next t ∧ p t = true := by
  cases o with
  | next t => exact ⟨t, rfl, h⟩
  | fault f => cases h
  | refused r => cases h

/-- A start state whose x6 is the address, so that `effectiveAddr _ 6 0` is it. -/
def atAddr (a : Word) : State := start 0x100#32 [(6, a)] []

theorem witness_effectiveAddr (a : Word) : a = effectiveAddr (atAddr a) 6 0#12 ∧ Memory.wf (atAddr a).mem = true ∧
    (atAddr a).params.map.wf = true ∧ (atAddr a).params = Config.params ∧ (atAddr a).readReg 0 = 0#32 := by
  have hm : Config.params.map.wf = true := by decide
  refine ⟨?_, rfl, hm, rfl, rfl⟩
  show a = a + sext12 0#12
  simp [sext12]

/-- ByteLoadsAtEveryAddress, ByteStoreAtEveryAddress, DispatcherOutcomes, RegionLookupIsUnambiguous: the ends of each
clause's addresses in the reference map. -/
theorem witness_address_classes :
    (inRom Config.referenceMap 0x0 ∧ inRom Config.referenceMap 0xFFFF) ∧
    (inRam Config.referenceMap 0x10000 ∧ inRam Config.referenceMap 0x1FFFF) ∧
    (stored Config.referenceMap 0x0 ∧ stored Config.referenceMap 0x1FFFF) ∧
    (Config.referenceMap.uartBase = 0x80000000 ∧ Config.referenceMap.uartBase % 4 = 0) ∧
    (unmapped Config.referenceMap 0x20000 ∧ unmapped Config.referenceMap 0x7FFFFFFF ∧
      unmapped Config.referenceMap 0x80000002 ∧ unmapped Config.referenceMap 0xFFFFFFFF) := by decide

/-- Halfword and word loads and stores at the reference map: an access seen and taken as a whole at the last aligned
address of RAM; failing at its first byte at the ends of the unmapped ranges, and at its third at UART_BASE; misaligned. -/
theorem witness_accesses :
    (∀ k, k < 2 → seenByte (atAddr 0x1FFFE#32) (0x1FFFE + k) = [0x00#8, 0x00#8][k]?) ∧
    (∀ k, k < 4 → seenByte (atAddr 0x1FFFC#32) (0x1FFFC + k) = [0x00#8, 0x00#8, 0x00#8, 0x00#8][k]?) ∧
    (∀ k, k < 4 → storable Config.referenceMap (0x1FFFC + k)) ∧
    (seenByte (atAddr 0x80000004#32) 0x80000004 = none ∧ ¬ storable Config.referenceMap 0x80000004) ∧
    (seenByte (atAddr 0xFFFFFFFC#32) 0xFFFFFFFC = none ∧ ¬ storable Config.referenceMap 0xFFFC) ∧
    (∀ j, j < 2 → seenByte (atAddr 0x80000000#32) (0x80000000 + j) ≠ none ∧ storable Config.referenceMap (0x80000000 + j)) ∧
    (seenByte (atAddr 0x80000000#32) (0x80000000 + 2) = none ∧ unmapped Config.referenceMap (0x80000000 + 2) ∧
      ¬ storable Config.referenceMap (0x80000000 + 2)) ∧
    (0x80000000 : Word).toNat % 4 = 0 ∧ (0x1FFFC : Word).toNat % 4 = 0 ∧ (0xFFFFFFFC : Word).toNat % 4 = 0 ∧
    (0xFFFFFFFF : Word).toNat % 2 ≠ 0 ∧ (0x80000001 : Word).toNat % 2 ≠ 0 ∧ (0x00000002 : Word).toNat % 4 ≠ 0 := by decide

/-- The clauses of the dispatcher, byte load and byte store statements exclude each other, and one of them always applies. -/
theorem witness_clauses_exclusive (a : Nat) :
    (inRom Config.referenceMap a ∨ inRam Config.referenceMap a ∨ a = Config.referenceMap.uartBase ∨
      a = Config.referenceMap.uartBase + 1 ∨ unmapped Config.referenceMap a) ∧
    ¬ (inRom Config.referenceMap a ∧ inRam Config.referenceMap a) ∧
    ¬ (stored Config.referenceMap a ∧ unmapped Config.referenceMap a) ∧
    (∀ k, k < 2 → ¬ stored Config.referenceMap (Config.referenceMap.uartBase + k) ∧
      ¬ unmapped Config.referenceMap (Config.referenceMap.uartBase + k)) := by
  simp only [stored, unmapped, inRom, inRam, inUart, Config.referenceMap]
  refine ⟨?_, ?_, ?_, fun k hk => ?_⟩ <;> omega

/-- The statements about every allowed map and parameters: another map, its RESET_PC, and a word behind it. -/
theorem witness_other_params : otherParams.wf = true ∧ otherParams.map.wf = true ∧
    (∀ k, k < 4 → stored otherParams.map (otherParams.resetPc.toNat + k)) ∧
    inRom otherParams.map (otherParams.map.romBase + 0xFFF) ∧ inRam otherParams.map 0x20FD := by decide

/-- DecodeOfEncodeIsTheInstruction: well-formed instructions at the ends of the offsets. -/
theorem witness_wellFormed :
    ([.beq 1 2 0x1000#13, .bne 1 2 0x0FFE#13, .blt 0 31 0#13, .bge 1 2 2#13, .bltu 1 2 0x1FFE#13, .bgeu 1 2 0x0800#13,
      .jal 0 0x100000#21, .jal 31 0x0FFFFE#21, .lui 0 0xFFFFF#20, .srai 31 31 31#5, .system] : List Instr).all
      Instr.wellFormed = true := by decide

/-- DecoderAgreesWithTheOpcodeTable, and every `RowMeans`: each row's own pattern is one of its words. -/
theorem witness_rows : opcodeRows.all (fun r => r.pattern &&& r.mask == r.pattern) = true := by decide

/-- FieldsAreTheListedBitRanges. -/
theorem witness_accepted : accepted 0x00000003#32 = true ∧ accepted 0xFFFFFFFB#32 = true := by decide

/-- EveryWordHasItsOutcome, FatalWordHaltsForGood, IllegalWordsAreSkipped: a word of each kind. -/
theorem witness_word_kinds :
    FatalWord 0x00000000#32 ∧ FatalWord 0xFFFFFFFF#32 ∧ UnlistedGroupWord 0x0FF0000F#32 ∧
    UnlistedGroupWord 0xFFFFFFFB#32 ∧ UnlistedFunctionWord 0x00033283#32 ∧ UnlistedFunctionWord 0x8020D1B3#32 ∧
    UnlistedFunctionWord 0x40409113#32 ∧ UnlistedFunctionWord 0x00737023#32 ∧ UnlistedFunctionWord 0x0020B863#32 ∧
    StrictlyIllegalWord ⟨true, false⟩ 0x8020E1B3#32 ∧ StrictlyIllegalWord ⟨false, true⟩ 0x000290E7#32 := by
  simp only [FatalWord, UnlistedGroupWord, UnlistedFunctionWord, StrictlyIllegalWord]
  refine ⟨?_, ?_, ?_, ?_, ?_, ?_, ?_, ?_, ?_, ?_, ?_⟩ <;> decide

/-- DecodedInstructionsAreWellFormed: also under the strict parameters. -/
theorem witness_decoded : decodeWordWith ⟨true, true⟩ 0xFE009CE3#32 = .ok (.bne 1 0 0x1FF8#13) := rfl

/-- DecodeParametersAsTheRulesSay: words for each clause: ADDI, XOR, SUB, SRA, an illegal OP word, OR with funct7 0x40, JALR
with a negative immediate, JALR with funct3 1; and settings that agree on one parameter alone. -/
theorem witness_decodeParams :
    (opcodeGroup 0xFFD08113#32 ≠ groupOp ∧ opcodeGroup 0xFFD08113#32 ≠ groupJalr) ∧
    (opcodeGroup 0x0020C1B3#32 = groupOp ∧ funct7 0x0020C1B3#32 = 0x00#7) ∧
    (opcodeGroup 0x402081B3#32 = groupOp ∧ funct3 0x402081B3#32 = 0#3) ∧
    (opcodeGroup 0x4020D1B3#32 = groupOp ∧ funct3 0x4020D1B3#32 = 5#3) ∧
    (opcodeGroup 0x022081B3#32 = groupOp ∧ funct3 0x022081B3#32 = 0#3) ∧
    (accepted 0x8020E1B3#32 = true ∧ opcodeGroup 0x8020E1B3#32 = groupOp ∧ funct3 0x8020E1B3#32 ≠ 0#3 ∧
      funct3 0x8020E1B3#32 ≠ 5#3 ∧ funct7 0x8020E1B3#32 ≠ 0x00#7 ∧ opcodeGroup 0x8020E1B3#32 ≠ groupJalr) ∧
    (opcodeGroup 0xFFC280E7#32 = groupJalr ∧ funct3 0xFFC280E7#32 = 0#3 ∧ opcodeGroup 0xFFC280E7#32 ≠ groupOp) ∧
    (accepted 0x000290E7#32 = true ∧ opcodeGroup 0x000290E7#32 = groupJalr ∧ funct3 0x000290E7#32 ≠ 0#3) ∧
    ((⟨true, true⟩ : DecodeParams).opFunct7Strict = (⟨true, false⟩ : DecodeParams).opFunct7Strict ∧
      (⟨true, true⟩ : DecodeParams).jalrFunct3Strict = (⟨false, true⟩ : DecodeParams).jalrFunct3Strict) := by decide

/-- R175, R150: at the strict settings the standard JALR, SUB and SRA words are still what they are. -/
theorem test_strict_keeps_standard_words :
    decodeWordWith ⟨true, true⟩ 0xFFC280E7#32 = .ok (.jalr 1 5 0xFFC#12) ∧
    decodeWordWith ⟨true, true⟩ 0x402081B3#32 = .ok (.sub 3 1 2) ∧
    decodeWordWith ⟨true, true⟩ 0x4020D1B3#32 = .ok (.sra 3 1 2) := ⟨rfl, rfl, rfl⟩

/-- ImmediateShiftResults: words of the two illegal clauses. -/
theorem witness_shift_funct7 :
    (0x40409113#32 &&& 0x0000707F#32 = 0x00001013#32 ∧ funct7 0x40409113#32 ≠ 0x00#7) ∧
    (0x4240D113#32 &&& 0x0000707F#32 = 0x00005013#32 ∧ funct7 0x4240D113#32 ≠ 0x00#7 ∧
      funct7 0x4240D113#32 ≠ 0x20#7) := by decide

/-- BranchesFollowTheirConditions: each condition holds of one pair of values and fails of another. -/
theorem witness_conditions :
    ((5#32 = 5#32) ∧ ¬ (5#32 = 6#32)) ∧
    ((0xFFFFFFFF#32).toInt < (1#32).toInt ∧ ¬ ((1#32).toInt < (0x80000000#32).toInt)) ∧
    ((1#32).toNat < (0xFFFFFFFF#32).toNat ∧ ¬ ((0xFFFFFFFF#32).toNat < (0#32).toNat)) := by decide

/-- A word stored at an address, pc at it. -/
def placedAt (pc : Word) (w : Nat) : State := (start pc [] []).withFetchWord 32 w

/-- Under the policy `bytewise`: a word stored at a pc that is not a multiple of 4, at the reference map. -/
def bytewiseAt (pc : Word) (w : Word) : State :=
  { start pc [] [] with mem := Memory.writeList [] pc.toNat (leBytes 4 w)
                        params := { Config.params with misalignedPc := .bytewise } }

/-- A map whose RAM ends at the last address and whose ROM begins at the first: a fetch can run over the end. -/
def wrappingMap : AddressMap := { Config.referenceMap with ramBase := 0xFFFF0000, ramLast := 0xFFFFFFFF }

/-- The bytes of LUI x5, 0x12345 from 0xFFFFFFFE on, modulo 2^32, and pc at them. -/
def wrapping : State :=
  { start 0xFFFFFFFE#32 [] [] with mem := [(0, 0x34#8), (1, 0x12#8), (0xFFFFFFFE, 0xB7#8), (0xFFFFFFFF, 0x52#8)]
                                   params := { Config.params with map := wrappingMap, misalignedPc := .bytewise } }

/-- StepRunsTheDecodedInstruction: at the first and last words of ROM and RAM. -/
theorem witness_step_runs (pc : Word) (h : pc ∈ [0x0#32, 0xFFFC#32, 0x10000#32, 0x1FFFC#32]) :
    (placedAt pc 0x123452B7).params.map.wf = true ∧
    (placedAt pc 0x123452B7).halted = false ∧ (placedAt pc 0x123452B7).mayFetch ∧ (placedAt pc 0x123452B7).pcStored ∧
    decodeBytesWith (placedAt pc 0x123452B7).params.decode (placedAt pc 0x123452B7).bytesAtPc
      = .ok (.lui 5 0x12345#20, []) ∧
    fetch (poll (placedAt pc 0x123452B7)) = (some 0x123452B7#32, poll (placedAt pc 0x123452B7)) := by
  simp only [List.mem_cons, List.not_mem_nil, or_false] at h
  rcases h with rfl | rfl | rfl | rfl <;> exact ⟨rfl, rfl, .inl (by decide), by decide, rfl, rfl⟩

/-- StepRunsTheDecodedInstruction, MisalignedPcFollowsThePolicy, FetchedWordIsTheFourBytesAtPc: an instruction at an
unaligned pc, one that straddles ROM and RAM, and one that runs over the last address. -/
theorem witness_step_runs_bytewise (s : State)
    (h : s ∈ [bytewiseAt 0x1#32 0x123452B7#32, bytewiseAt 0xFFFE#32 0x123452B7#32, wrapping]) :
    s.params.wf = true ∧ Memory.wf s.mem = true ∧ s.halted = false ∧ s.pc.toNat % 4 ≠ 0 ∧
    s.params.misalignedPc = .bytewise ∧ s.mayFetch ∧ s.pcStored ∧
    decodeBytesWith s.params.decode s.bytesAtPc = .ok (.lui 5 0x12345#20, []) ∧
    fetch (poll s) = (some 0x123452B7#32, poll s) := by
  simp only [List.mem_cons, List.not_mem_nil, or_false] at h
  rcases h with rfl | rfl | rfl <;> exact ⟨rfl, rfl, rfl, by decide, rfl, .inr rfl, by decide, rfl, rfl⟩

/-- PlacedWordRunsNext: both alternatives, at reset and at a pc from which nothing can be fetched. -/
theorem witness_placed : State.reset.params.wf = true ∧ Memory.wf State.reset.mem = true ∧
    State.reset.params.decode = Config.decodeParams ∧ decodeTableWord 32 0x00000073 = some .system ∧
    State.reset.pc.toNat % 4 = 0 ∧ (∀ k, k < 4 → stored State.reset.params.map (State.reset.pc.toNat + k)) ∧
    (∀ k, k < 4 → stored State.reset.params.map (State.reset.params.resetPc.toNat + k)) ∧
    (start 0x80000000#32 [] []).params = State.reset.params ∧
    after (step ((start 0x80000000#32 [] []).withFetchWord 32 0x123452B7)) (result 5 0x12345000 4) = true := by decide

/-- FailedFetchKeepsPc and FailedFetchRepeatsForEver: pc at the ends of the unmapped ranges. -/
theorem witness_failed_fetch (pc : Word) (h : pc ∈ [0x20000#32, 0x7FFFFFFC#32, 0x80000004#32, 0xFFFFFFFC#32]) :
    (start pc [] []).params.map.wf = true ∧
    (start pc [] []).halted = false ∧ (start pc [] []).mayFetch ∧
    unmapped Config.referenceMap (start pc [] []).pc.toNat ∧
    unmapped Config.referenceMap (byteAddr (start pc [] []).pc 0) ∧ Reaches (start pc [] []) (start pc [] []) := by
  simp only [List.mem_cons, List.not_mem_nil, or_false] at h
  rcases h with rfl | rfl | rfl | rfl <;> exact ⟨rfl, rfl, .inl (by decide), by decide, by decide, .refl _⟩

/-- The same at UART_BASE. -/
theorem witness_failed_fetch_uart : (start 0x80000000#32 [] []).halted = false ∧
    (start 0x80000000#32 [] []).pc.toNat = (start 0x80000000#32 [] []).params.map.uartBase ∧
    (start 0x80000000#32 [] []).mayFetch ∧
    (∀ j, j < 2 → ¬ unmapped Config.referenceMap (byteAddr 0x80000000#32 j)) ∧
    unmapped Config.referenceMap (byteAddr 0x80000000#32 2) := by decide

/-- The same under `bytewise` at unaligned addresses: DATA itself, the byte before STATUS (unmapped at once), the last bytes
of RAM (fails at its third byte), and the last address. -/
theorem witness_failed_fetch_bytewise (pc : Word) (k : Nat)
    (h : (pc, k) ∈ [(0x80000001#32, 1), (0x7FFFFFFF#32, 0), (0x1FFFE#32, 2), (0xFFFFFFFF#32, 0)]) :
    (bytewiseAt pc 0#32).params.map.wf = true ∧ (bytewiseAt pc 0#32).halted = false ∧ (bytewiseAt pc 0#32).pc = pc ∧
    pc.toNat % 4 ≠ 0 ∧ (bytewiseAt pc 0#32).mayFetch ∧ k < 4 ∧
    (∀ j, j < k → ¬ unmapped (bytewiseAt pc 0#32).params.map (byteAddr pc j)) ∧
    unmapped (bytewiseAt pc 0#32).params.map (byteAddr pc k) := by
  simp only [List.mem_cons, List.not_mem_nil, or_false, Prod.mk.injEq] at h
  rcases h with ⟨rfl, rfl⟩ | ⟨rfl, rfl⟩ | ⟨rfl, rfl⟩ | ⟨rfl, rfl⟩ <;>
    exact ⟨rfl, rfl, rfl, by decide, .inr rfl, by decide, by decide, by decide⟩

/-- R93, D4, R55: the unaligned fetch from DATA consumes the received byte, reports InaccessibleMemory and keeps pc. -/
theorem test_unaligned_fetch_from_data :
    after (step { bytewiseAt 0x80000001#32 0#32 with mem := [], uart := received 0x42 })
      (fun t => t.pc == 0x80000001 && t.report == some .inaccessibleMemory && !t.uart.newdat) = true := by decide

/-- FatalWordHaltsForGood, IllegalWordsAreSkipped, FetchedWordIsTheFourBytesAtPc: a fetch that gives the word (two fatal, one
of an unlisted group, one of an unlisted function), at an aligned pc and, under `bytewise`, at an unaligned one. -/
theorem witness_fetch (w : Nat) (h : w ∈ [0x00000000, 0x0000007F, 0x0FF0000F, 0x00033283]) :
    (placedAt 0x100#32 w).halted = false ∧ (placedAt 0x100#32 w).mayFetch ∧
    fetch (placedAt 0x100#32 w) = (some (BitVec.ofNat 32 w), placedAt 0x100#32 w) ∧
    fetch (poll (placedAt 0x100#32 w)) = (some (BitVec.ofNat 32 w), poll (placedAt 0x100#32 w)) ∧
    (let u := bytewiseAt 0x102#32 (BitVec.ofNat 32 w)
     u.halted = false ∧ u.pc.toNat % 4 ≠ 0 ∧ u.mayFetch ∧ fetch (poll u) = (some (BitVec.ofNat 32 w), poll u)) := by
  simp only [List.mem_cons, List.not_mem_nil, or_false] at h
  rcases h with rfl | rfl | rfl | rfl <;>
    exact ⟨rfl, .inl (by decide), rfl, rfl, rfl, by decide, .inr rfl, rfl⟩

/-- The words of `witness_fetch` are of the kinds named there, and the two below are strictly illegal only. -/
theorem witness_fetched_kinds : FatalWord 0x00000000#32 ∧ FatalWord 0x0000007F#32 ∧ UnlistedGroupWord 0x0FF0000F#32 ∧
    UnlistedFunctionWord 0x00033283#32 ∧
    (StrictlyIllegalWord otherParams.decode 0x8020E1B3#32 ∧ ¬ UnlistedFunctionWord 0x8020E1B3#32) ∧
    (StrictlyIllegalWord otherParams.decode 0x000290E7#32 ∧ ¬ UnlistedFunctionWord 0x000290E7#32) := by
  simp only [FatalWord, UnlistedGroupWord, UnlistedFunctionWord, StrictlyIllegalWord]
  refine ⟨?_, ?_, ?_, ?_, ⟨?_, ?_⟩, ⟨?_, ?_⟩⟩ <;> decide

/-- A word at a pc, both decode parameters strict and the policy `bytewise` (otherParams). -/
def strictAt (pc : Word) (w : Word) : State :=
  { start pc [] [] with mem := Memory.writeList [] pc.toNat (leBytes 4 w), params := otherParams }

/-- IllegalWordsAreSkipped: a fetch that gives a strictly illegal word (OR with funct7 0x40; JALR with funct3 1), in RAM and
in ROM, at an aligned and an unaligned pc. -/
theorem witness_fetch_strict (pc w : Word) (hp : pc ∈ [0x1000#32, 0x1FFC#32, 0x2001#32])
    (hw : w ∈ [0x8020E1B3#32, 0x000290E7#32]) :
    (strictAt pc w).params.wf = true ∧ (strictAt pc w).halted = false ∧ (strictAt pc w).mayFetch ∧
    fetch (poll (strictAt pc w)) = (some w, poll (strictAt pc w)) ∧ (strictAt pc w).params.decode = otherParams.decode := by
  simp only [List.mem_cons, List.not_mem_nil, or_false] at hp hw
  rcases hp with rfl | rfl | rfl <;> rcases hw with rfl | rfl <;> exact ⟨rfl, rfl, .inr rfl, rfl, rfl⟩

/-- R175, R150, R93: fetched at an unaligned pc under the strict parameters, they are skipped with IllegalInstruction. -/
theorem test_strictly_illegal_words_are_skipped :
    after (step (strictAt 0x2001#32 0x000290E7#32)) (fun t => t.report == some .illegalInstruction && t.pc == 0x2005) = true ∧
    after (step (strictAt 0x2001#32 0x8020E1B3#32)) (fun t => t.report == some .illegalInstruction && t.pc == 0x2005) = true :=
  by decide

/-- FatalWordHaltsForGood, second and third clause; CsrFileIsUnreachable, the fault clause. -/
theorem witness_halted : (placedAt 0x100#32 0).halt.halted = true ∧ step (placedAt 0x100#32 0).halt = .fault .halted ∧
    ∃ t, step (placedAt 0x100#32 0) = .next t := by
  refine ⟨rfl, rfl, ?_⟩
  obtain ⟨t, h, -⟩ := exists_of_after (o := step (placedAt 0x100#32 0)) (p := fun _ => true) (by decide)
  exact ⟨t, h⟩

/-- MisalignedPcFollowsThePolicy: pc = 1 under `fault`; under `bytewise` an instruction that straddles the end of ROM, and a
fetch that fails. -/
theorem witness_misaligned_pc :
    ((start 0x1#32 [] []).halted = false ∧ (start 0x1#32 [] []).pc.toNat % 4 ≠ 0 ∧
      (start 0x1#32 [] []).params.misalignedPc = .fault) ∧
    (let u := bytewiseAt 0xFFFE#32 0x123452B7#32
     u.params.map.wf = true ∧ u.params.misalignedPc = .bytewise ∧ u.halted = false ∧ u.pc.toNat % 4 ≠ 0 ∧ u.pcStored ∧
       decodeBytesWith u.params.decode u.bytesAtPc = .ok (.lui 5 0x12345#20, []) ∧
       fetch (poll u) = (some 0x123452B7#32, poll u)) ∧
    (fetch (poll (bytewiseAt 0x1FFFE#32 0#32))).1 = none := by
  exact ⟨by decide, ⟨rfl, rfl, rfl, by decide, by decide, rfl, rfl⟩, rfl⟩

/-- StoredWordIsLoadedBack, StoredWordIsLittleEndian, StoredWordIsFetchedNext: the first and last words of RAM. -/
theorem witness_store_word (a : Word) (h : a ∈ [0x10000#32, 0x1FFFC#32]) :
    (atAddr a).params.map.wf = true ∧
    Memory.wf (atAddr a).mem = true ∧ (atAddr a).readReg 0 = 0#32 ∧ (effectiveAddr (atAddr a) 6 0#12).toNat % 4 = 0 ∧
    (∀ k, k < 4 → inRam Config.referenceMap ((effectiveAddr (atAddr a) 6 0#12).toNat + k)) ∧ (7 : Reg) ≠ 0 ∧
    ∃ t, exec (.sw 6 7 0#12) (atAddr a) = .next t ∧
      (∀ k, k < 4 → (effectiveAddr t 6 (BitVec.ofNat 12 k)).toNat = (effectiveAddr (atAddr a) 6 0#12).toNat + k) ∧
      ∃ u : State, u.params = (atAddr a).params ∧ u.mem = t.mem ∧ u.pc = effectiveAddr (atAddr a) 6 0#12 := by
  simp only [List.mem_cons, List.not_mem_nil, or_false] at h
  rcases h with rfl | rfl <;>
    exact ⟨rfl, rfl, rfl, by decide, by decide, by decide, _, rfl, by decide, { State.reset with mem := _, pc := _ },
      rfl, rfl, rfl⟩

/-- PollReceivesTheOldestByte: NEWDAT set; clear with nothing waiting; clear with two bytes waiting. -/
theorem witness_poll_receive :
    ({ State.reset with uart := received 0x61#8 } : State).uart.newdat = true ∧
    (State.reset.uart.newdat = false ∧ State.reset.host.rxq ++ State.reset.host.sends = []) ∧
    (let s : State := { State.reset with host := ⟨[0x48#8], [], [[0x69#8]], .repeats []⟩ }
     s.uart.newdat = false ∧ s.host.rxq ++ s.host.sends = 0x48#8 :: [0x69#8]) := by decide

/-- HostBehavioursAreUnconstrained: hosts with a beginning, and each way to go on; a step of each. -/
theorem witness_hosts :
    (0 < endlessHost.arrivals.length + 1 ∧ endlessHost.later = .repeats [[0x61], [0x62, 0x63]]) ∧
    (let h : HostChannel := { HostChannel.silent with arrivals := [[], [0x41]], later := .free 7 }
     1 < h.arrivals.length ∧ h.later = .free 7 ∧
       ∃ t, step (({ State.reset with host := h } : State).withFetchWord 32 0x13) = .next t) := by
  exact ⟨by decide, by decide, rfl, _, rfl⟩

/-- NoPollingLoopIsSureToEnd: a host that sends before every poll, and one that never does, and runs with them. -/
theorem witness_endless_sender : (∀ n, ({ State.reset with host := endlessHost } : State).host.sentAt n ≠ []) ∧
    Reaches ({ State.reset with host := endlessHost } : State) { State.reset with host := endlessHost } := by
  refine ⟨fun n => ?_, .refl _⟩
  have h : ∀ n, endlessHost.afterPolls n = endlessHost ∨
      endlessHost.afterPolls n = { endlessHost with later := .repeats [[0x62, 0x63], [0x61]] } := by
    intro n
    induction n with
    | zero => exact .inl rfl
    | succ n ih =>
      rcases ih with ih | ih <;> rw [HostChannel.afterPolls, ih]
      · exact .inr rfl
      · exact .inl rfl
  show (endlessHost.afterPolls n).sends ≠ []
  rcases h n with h | h <;> rw [h] <;> decide

theorem witness_silent_host : (∀ n, State.reset.host.sentAt n = []) ∧ State.reset.host.rxq = [] ∧
    State.reset.uart.newdat = false ∧ Reaches State.reset State.reset := by
  refine ⟨fun n => ?_, rfl, rfl, .refl _⟩
  have h : HostChannel.silent.afterPolls n = HostChannel.silent := by
    induction n with
    | zero => rfl
    | succ n ih => rw [HostChannel.afterPolls, ih]; rfl
  show (HostChannel.silent.afterPolls n).sends = []
  rw [h]
  rfl

/-- PollTransmitsThePendingByte: TXDONE clear, TXDONE set. -/
theorem witness_poll_transmit :
    ({ State.reset with uart := ⟨0, 0x41#8, false, false⟩ } : State).uart.txdone = false ∧
    State.reset.uart.txdone = true := by decide

/-- QueuedByteIsSentByTheNextCycle: SB to DATA, and the cycle after it. -/
theorem witness_queued_byte :
    after (step ((start 0x100#32 [(1, 0x41), (2, 0x80000000)] []).withFetchWord 32 0x001100A3))
      (fun t => !t.uart.txdone && after (step (t.withFetchWord 32 0x13)) (fun u => u.host.txlog == [0x41#8])) = true := by
  decide

/-- OnlyListedTrapsAreReported: each reported kind, from an instruction. -/
theorem witness_reports :
    after (exec (.lw 5 6 0#12) (atAddr 0x10002#32)) (fun t => t.report == some .misalignedAccess) = true ∧
    after (exec (.sb 6 5 0#12) (atAddr 0x0#32)) (fun t => t.report == some .inaccessibleMemory) = true := by decide

/-- OnlyTheDestinationChanges, OnlyStoresChangeMemory, OnlyMemoryAccessesChangeTheUart, OnlyBranchesAndJumpsMovePc: an
instruction of each kind answers a next state, with its classification. -/
theorem witness_exec_next :
    (after (exec (.addi 5 6 1#12) (atAddr 0#32)) (fun _ => true) = true ∧ destination (.addi 5 6 1#12) ≠ some 6 ∧
      storeForm (.addi 5 6 1#12) = none ∧ isLoad (.addi 5 6 1#12) = false ∧ transfersControl (.addi 5 6 1#12) = false) ∧
    (after (exec (.sw 6 5 0#12) (atAddr 0x1FFFC#32)) (fun _ => true) = true ∧
      storeForm (.sw 6 5 0#12) = some (6, 0#12, 4)) ∧
    (after (exec (.lbu 5 6 0#12) (atAddr 0x80000001#32)) (fun _ => true) = true ∧ isLoad (.lbu 5 6 0#12) = true) ∧
    (after (exec (.jal 1 8#21) (atAddr 0#32)) (fun _ => true) = true ∧ transfersControl (.jal 1 8#21) = true) := by decide

/-- ZeroRegisterReadsZeroAfterAnyStep, NoStepChangesRom, EveryStepKeepsTheInvariant, CsrFileIsUnreachable: a step with a
write to x0, from a state with the invariant. -/
theorem witness_step_inv : State.reset.Inv ∧ (State.reset.withFetchWord 32 0x00108013).Inv ∧
    inRom Config.referenceMap 0x0 ∧ inRom Config.referenceMap 0xFFFF ∧
    ∃ t, step (State.reset.withFetchWord 32 0x00108013) = .next t ∧ t.halted = false := by
  refine ⟨⟨rfl, by decide, rfl, rfl, rfl, by decide⟩, ⟨rfl, by decide, rfl, by decide, by decide, by decide⟩,
    by decide, by decide, ?_⟩
  obtain ⟨t, h, ht⟩ := exists_of_after (o := step (State.reset.withFetchWord 32 0x00108013))
    (p := fun t => !t.halted) (by decide)
  exact ⟨t, h, by simpa using ht⟩

/-- StateAfterLaunch, LaunchHasTheInvariant: allowed parameters, the ends of ROM and RAM, and a register that is not x0. -/
theorem witness_launch : Config.params.wf = true ∧ Config.csrTableWf otherCsrTable = true ∧ otherParams.wf = true ∧
    inRom Config.params.map (Config.params.map.romBase + 0) ∧
    inRom Config.params.map (Config.params.map.romBase + 65535) ∧ inRam Config.params.map 0x10000 ∧
    inRam Config.params.map 0x1FFFF ∧ (31 : Reg) ≠ 0 := by decide

/-- CsrFileContract: an unknown address, an entry of its own without handlers, constant and ignoring handlers. -/
def csrSample : List CsrEntry :=
  [⟨"no handlers", 0x001#12, none, none⟩, ⟨"constant", 0x002#12, some (.constant 7#32), some .ignore⟩]

theorem witness_csr :
    (∀ e ∈ csrSample, e.addr ≠ 0x7C0#12) ∧
    (∀ e ∈ csrSample, ∀ e' ∈ csrSample, e'.addr = e.addr → e' = e) ∧
    (⟨"no handlers", 0x001#12, none, none⟩ : CsrEntry) ∈ csrSample ∧
    (⟨"constant", 0x002#12, some (.constant 7#32), some .ignore⟩ : CsrEntry) ∈ csrSample ∧
    Config.csrTableWf (otherLaunch []).csr = true ∧ (∀ e ∈ State.reset.csr, e.addr ≠ 0x7C0#12) := by decide

end Sys2Proof.Tests
end

/-! ## The dispatcher at every address (20_memory.md R33 to R37) -/

namespace Sys2Proof.Machine

/-- What a store to RAM leaves: memory alone changes, and it reads the stored byte at that address and its old byte at
every other one (20_memory.md R36). -/
theorem storeByte_ram_reads {s : State} (hm : s.params.map.wf = true) {a : Word} (h : inRam s.params.map a.toNat)
    (b : Byte) :
    ∃ t, storeByte a b s = .ok t ∧ t = { s with mem := t.mem } ∧
      (Memory.wf s.mem = true → Memory.read t.mem a.toNat = b) ∧
      ∀ x, x ≠ a.toNat → Memory.read t.mem x = Memory.read s.mem x := by
  refine ⟨{ s with mem := Memory.write s.mem a.toNat b }, storeByte_ram hm h b, rfl, fun hwf => ?_, fun x hx => ?_⟩
  · simp [Memory.read_write hwf]
  · exact Memory.read_write_ne s.mem a.toNat b x hx

/-- Settles O37: one dispatcher lemma per region for the load, then one per region for the store. -/
theorem dispatcherOutcomes : Obligations.DispatcherOutcomes := by
  unfold Obligations.DispatcherOutcomes
  intro a b s hm
  exact ⟨loadByte_stored, loadByte_status hm, loadByte_data hm, loadByte_unmapped,
    fun h => storeByte_rom h b, fun h => storeByte_ram_reads hm h b, fun h => storeByte_status hm h b,
    fun h => storeByte_data hm h b, fun h => storeByte_unmapped h b⟩

end Sys2Proof.Machine

/-! ## The fields of a word as bit ranges (30_encoding.md R61) -/

namespace Sys2Proof.Machine

/-- The bits taken out of a word are, as a number, the bit range of the spec's notation (00_scope.md R5). -/
theorem toNat_extractLsb'_eq_bitRange (w : Word) (hi lo : Nat) :
    (w.extractLsb' lo (hi - lo + 1)).toNat = bitRange w hi lo := by
  rw [BitVec.extractLsb'_toNat, Nat.shiftRight_eq_div_pow, bitRange]

theorem opcodeGroup_eq_bitRange (w : Word) : (opcodeGroup w).toNat = bitRange w 6 2 :=
  toNat_extractLsb'_eq_bitRange w 6 2

theorem rdField_eq_bitRange (w : Word) : (rdField w).val = bitRange w 11 7 :=
  toNat_extractLsb'_eq_bitRange w 11 7

theorem funct3_eq_bitRange (w : Word) : (funct3 w).toNat = bitRange w 14 12 :=
  toNat_extractLsb'_eq_bitRange w 14 12

theorem rs1Field_eq_bitRange (w : Word) : (rs1Field w).val = bitRange w 19 15 :=
  toNat_extractLsb'_eq_bitRange w 19 15

theorem rs2Field_eq_bitRange (w : Word) : (rs2Field w).val = bitRange w 24 20 :=
  toNat_extractLsb'_eq_bitRange w 24 20

theorem funct7_eq_bitRange (w : Word) : (funct7 w).toNat = bitRange w 31 25 :=
  toNat_extractLsb'_eq_bitRange w 31 25

/-- Length validation asks for 0b11 in the two lowest bits (30_encoding.md R60). -/
theorem bitRange_low_of_accepted {w : Word} (h : accepted w = true) : bitRange w 1 0 = 3 := by
  obtain ⟨hlow, -⟩ := (accepted_iff w).mp h
  calc bitRange w 1 0 = (w.extractLsb' 0 2).toNat := (toNat_extractLsb'_eq_bitRange w 1 0).symm
    _ = 3 := by rw [hlow]; rfl

/-- Settles O3: each field is an extraction of its bits, and length validation fixes the lowest two. -/
theorem fieldsAreTheListedBitRanges : Obligations.FieldsAreTheListedBitRanges := by
  unfold Obligations.FieldsAreTheListedBitRanges
  intro w
  exact ⟨opcodeGroup_eq_bitRange w, rdField_eq_bitRange w, funct3_eq_bitRange w, rs1Field_eq_bitRange w,
    rs2Field_eq_bitRange w, funct7_eq_bitRange w, bitRange_low_of_accepted⟩

end Sys2Proof.Machine

/-! ## Register 0 after a step (40_cycle.md R97) -/

namespace Sys2Proof.Machine

/-- Whatever an instruction does, it ends by closing the cycle: the two traps of an access close it too (40_cycle.md R97,
R98). -/
theorem exec_closes (i : Instr) (s : State) :
    ∃ (u : State) (p : Word) (o : Option ErrorKind), exec i s = .next (u.close p o) := by
  rcases exec_cases i s with
    ⟨rd, v, p, h, -⟩ | ⟨p, h, -⟩ | ⟨n, f, rd, a, h, -⟩ | ⟨n, v, rs1, imm, h, -⟩
  · exact ⟨_, p, none, h⟩
  · exact ⟨s, p, none, h⟩
  · obtain ⟨t, ht, ⟨-, rfl⟩ | ⟨-, w, -, rfl⟩ | ⟨-, -, rfl⟩⟩ := loadInto_cases n f rd a s
    all_goals exact ⟨_, _, _, h.trans ht⟩
  · obtain ⟨t, ht, ⟨-, rfl⟩ | ⟨-, -, rfl⟩ | ⟨-, -, rfl⟩⟩ := storeFrom_cases n v (effectiveAddr s rs1 imm) s
    all_goals exact ⟨_, _, _, h.trans ht⟩

/-- A step that did not halt ended by closing the cycle: of its outcomes only the fatal one does not (40_cycle.md R94,
R97). -/
theorem step_closes {s t : State} (h : step s = .next t) (ht : t.halted = false) :
    ∃ (u : State) (p : Word) (o : Option ErrorKind), t = u.close p o := by
  obtain ⟨-, -, ⟨-, hfetch⟩ | ⟨w, -, ⟨-, hfatal⟩ | ⟨-, hillegal⟩ | ⟨i, -, hexec⟩⟩⟩ := step_cases h
  · exact ⟨_, _, _, hfetch⟩
  · simp [hfatal] at ht
  · exact ⟨_, _, _, hillegal⟩
  · obtain ⟨u, p, o, hu⟩ := exec_closes i (fetch (poll s)).2
    exact ⟨u, p, o, Host.Outcome.next.inj (hexec.symm.trans hu)⟩

/-- Settles O51: a step that did not halt closed its cycle, and closing forces x[0]. -/
theorem zeroRegisterReadsZeroAfterAnyStep : Obligations.ZeroRegisterReadsZeroAfterAnyStep := by
  unfold Obligations.ZeroRegisterReadsZeroAfterAnyStep
  intro s t h ht
  obtain ⟨u, p, o, rfl⟩ := step_closes h ht
  calc (u.close p o).readReg 0 = if (0 : Reg) = 0 then 0#32 else u.readReg 0 := readReg_close u 0 p o
    _ = 0#32 := if_pos rfl

end Sys2Proof.Machine

/-! ## Byte loads at every address (41_load.md R111, R114) -/

namespace Sys2Proof.Machine

/-- A row's pattern under the mask of opcode and funct3 fixes the three fields that mask covers. -/
theorem fields_of_opcode_funct3_mask {w pattern : Word} (h : w &&& 0x0000707F#32 = pattern) :
    w.extractLsb' 0 2 = pattern.extractLsb' 0 2 ∧ opcodeGroup w = opcodeGroup pattern ∧ funct3 w = funct3 pattern :=
  ⟨extract_of_mask h 0 2 (by decide), extract_of_mask h 2 5 (by decide), extract_of_mask h 12 3 (by decide)⟩

/-- A row of the LOAD group means what its decoder reads from the row's funct3. -/
theorem rowMeans_load {pattern : Word} {i : Word → Instr} (h0 : pattern.extractLsb' 0 2 = 0b11#2)
    (hg : opcodeGroup pattern = groupLoad) (hi : ∀ w, funct3 w = funct3 pattern → decodeLoad w = .ok (i w)) :
    RowMeans pattern 0x0000707F#32 i := by
  intro p w h
  obtain ⟨hlow, hgroup, hfunct3⟩ := fields_of_opcode_funct3_mask h
  calc decodeWordWith p w = decodeLoad w := decode_load p (hlow.trans h0) (hgroup.trans hg)
    _ = .ok (i w) := hi w hfunct3

theorem rowMeans_lb : RowMeans 0x00000003#32 0x0000707F#32 (fun w => .lb (rdField w) (rs1Field w) (immI w)) :=
  rowMeans_load (by decide) (by decide) fun w h => by
    have h3 : funct3 w = 0#3 := h
    simp [decodeLoad, h3]

theorem rowMeans_lbu : RowMeans 0x00004003#32 0x0000707F#32 (fun w => .lbu (rdField w) (rs1Field w) (immI w)) :=
  rowMeans_load (by decide) (by decide) fun w h => by
    have h3 : funct3 w = 4#3 := h
    simp [decodeLoad, h3]

/-- An aligned load whose bytes are all read writes the extended value and completes (41_load.md R110). -/
theorem loadInto_of_memRead_some {n : Nat} {a v : Word} {s u : State} (ha : aligned n a = true)
    (h : memRead a n s = (some v, u)) (f : Word → Word) (rd : Reg) :
    ∃ t, loadInto n f rd a s = .next t ∧ RegResult u t rd (f v) (u.pc + 4#32) :=
  ⟨(u.writeReg rd (f v)).retire, by simp [loadInto, ha, h], regResult_close u rd (f v) _⟩

/-- An aligned load one of whose bytes fails traps with rd unwritten (41_load.md R110). -/
theorem loadInto_of_memRead_none {n : Nat} {a : Word} {s u : State} (ha : aligned n a = true)
    (h : memRead a n s = (none, u)) (f : Word → Word) (rd : Reg) :
    ∃ t, loadInto n f rd a s = .next t ∧ Closes u t (u.pc + 4#32) (some .inaccessibleMemory) :=
  ⟨u.raiseTrap .inaccessibleMemory, by simp [loadInto, ha, h], closes_raiseTrap u _⟩

/-- A one-byte access is the dispatcher's byte load, zero-extended (20_memory.md R40). -/
theorem memRead_one_of_loadByte {a : Word} {b : Byte} {s u : State} (h : loadByte a s = .ok (b, u)) :
    memRead a 1 s = (some (b.setWidth 32), u) := by
  simp [memRead, loadBytes, h, leWord]

/-- A one-byte load whose extension is `ext` on the byte read has the meaning of a byte load: the dispatcher has one
answer for each kind of address, and a byte access is never misaligned (20_memory.md R39). -/
theorem byteLoadMeaning_of_loadInto {mk : Reg → Reg → BitVec 12 → Instr} {f : Word → Word} {ext : Byte → Word}
    (hexec : ∀ rd rs1 imm s, exec (mk rd rs1 imm) s = loadInto 1 f rd (effectiveAddr s rs1 imm) s)
    (hext : ∀ b : Byte, f (b.setWidth 32) = ext b) : ByteLoadMeaning mk ext := by
  rintro rd rs1 imm s a rfl hm
  have read : ∀ {b : Byte} {u : State}, loadByte (effectiveAddr s rs1 imm) s = .ok (b, u) →
      ∃ t, exec (mk rd rs1 imm) s = .next t ∧ RegResult u t rd (ext b) (u.pc + 4#32) := by
    intro b u h
    rw [hexec, ← hext b]
    exact loadInto_of_memRead_some (aligned_one _) (memRead_one_of_loadByte h) f rd
  refine ⟨fun h => read (loadByte_stored h), fun h => read (loadByte_status hm h), fun h => read (loadByte_data hm h),
    fun h => ?_⟩
  rw [hexec]
  exact loadInto_of_memRead_none (aligned_one _) (memRead_unmapped 1 h Nat.one_pos) f rd

/-- `sext_8` of a byte's word is the byte sign-extended (00_scope.md R6). -/
theorem sext8_setWidth (b : Byte) : sext8 (b.setWidth 32) = b.signExtend 32 := by
  simp [sext8]

/-- `zext_8` of a byte's word is the byte zero-extended (00_scope.md R6). -/
theorem zext8_setWidth (b : Byte) : zext8 (b.setWidth 32) = b.setWidth 32 := by
  simp [zext8]

theorem byteLoadMeaning_lb : ByteLoadMeaning .lb (fun b => b.signExtend 32) :=
  byteLoadMeaning_of_loadInto (f := sext8) (fun _ _ _ _ => rfl) sext8_setWidth

theorem byteLoadMeaning_lbu : ByteLoadMeaning .lbu (fun b => b.setWidth 32) :=
  byteLoadMeaning_of_loadInto (f := zext8) (fun _ _ _ _ => rfl) zext8_setWidth

/-- Settles O28: both rows are LOAD rows, and both instructions are the one-byte load at their own extension. -/
theorem byteLoadsAtEveryAddress : Obligations.ByteLoadsAtEveryAddress := by
  unfold Obligations.ByteLoadsAtEveryAddress
  exact ⟨rowMeans_lb, rowMeans_lbu, byteLoadMeaning_lb, byteLoadMeaning_lbu⟩

end Sys2Proof.Machine

/-! ## OP-IMM against a sign-extended immediate (42_op_imm.md R121 to R126) -/

namespace Sys2Proof.Machine

/-- A row of the OP-IMM group whose funct3 alone selects it means what its decoder reads from that funct3. -/
theorem rowMeans_opImm {pattern : Word} {i : Word → Instr} (f3 : BitVec 3) (h0 : pattern.extractLsb' 0 2 = 0b11#2)
    (hg : opcodeGroup pattern = groupOpImm) (h3 : funct3 pattern = f3)
    (hi : ∀ w, funct3 w = f3 → decodeOpImm w = .ok (i w)) : RowMeans pattern 0x0000707F#32 i := by
  intro p w h
  obtain ⟨hlow, hgroup, hfunct3⟩ := fields_of_opcode_funct3_mask h
  calc decodeWordWith p w = decodeOpImm w := decode_opImm p (hlow.trans h0) (hgroup.trans hg)
    _ = .ok (i w) := hi w (hfunct3.trans h3)

theorem rowMeans_addi : RowMeans 0x00000013#32 0x0000707F#32 (fun w => .addi (rdField w) (rs1Field w) (immI w)) :=
  rowMeans_opImm 0#3 (by decide) (by decide) (by decide) fun w h3 => by simp [decodeOpImm, h3]

theorem rowMeans_slti : RowMeans 0x00002013#32 0x0000707F#32 (fun w => .slti (rdField w) (rs1Field w) (immI w)) :=
  rowMeans_opImm 2#3 (by decide) (by decide) (by decide) fun w h3 => by simp [decodeOpImm, h3]

theorem rowMeans_sltiu : RowMeans 0x00003013#32 0x0000707F#32 (fun w => .sltiu (rdField w) (rs1Field w) (immI w)) :=
  rowMeans_opImm 3#3 (by decide) (by decide) (by decide) fun w h3 => by simp [decodeOpImm, h3]

theorem rowMeans_xori : RowMeans 0x00004013#32 0x0000707F#32 (fun w => .xori (rdField w) (rs1Field w) (immI w)) :=
  rowMeans_opImm 4#3 (by decide) (by decide) (by decide) fun w h3 => by simp [decodeOpImm, h3]

theorem rowMeans_ori : RowMeans 0x00006013#32 0x0000707F#32 (fun w => .ori (rdField w) (rs1Field w) (immI w)) :=
  rowMeans_opImm 6#3 (by decide) (by decide) (by decide) fun w h3 => by simp [decodeOpImm, h3]

theorem rowMeans_andi : RowMeans 0x00007013#32 0x0000707F#32 (fun w => .andi (rdField w) (rs1Field w) (immI w)) :=
  rowMeans_opImm 7#3 (by decide) (by decide) (by decide) fun w h3 => by simp [decodeOpImm, h3]

/-- An instruction that writes a function `f` of x[rs1] and the sign-extended immediate to rd has the result `g`, where
`g` is that function of the 12-bit immediate itself. -/
theorem immResult_of_writeResult {mk : Reg → Reg → BitVec 12 → Instr} {f : Word → Word → Word}
    {g : Word → BitVec 12 → Word}
    (hexec : ∀ rd rs1 imm s, exec (mk rd rs1 imm) s = writeResult rd (f (s.readReg rs1) (sext12 imm)) s)
    (hvalue : ∀ x imm, f x (sext12 imm) = g x imm) : ImmResult mk g := by
  intro rd rs1 imm s
  rw [hexec, hvalue]
  exact writeResult_spec rd _ s

/-- Sign extension keeps the signed value (00_scope.md R6). -/
theorem toInt_sext12 (imm : BitVec 12) : (sext12 imm).toInt = imm.toInt :=
  BitVec.toInt_signExtend_of_le (by decide)

/-- The sum with the sign-extended immediate is the exact sum modulo 2^32 (42_op_imm.md R121). -/
theorem add_sext12 (x : Word) (imm : BitVec 12) : x + sext12 imm = BitVec.ofInt 32 ((x.toNat : Int) + imm.toInt) := by
  rw [BitVec.ofInt_add, BitVec.ofInt_natCast, BitVec.ofNat_toNat, BitVec.setWidth_eq, ← toInt_sext12,
    BitVec.ofInt_toInt]

/-- The signed comparison as 1 or 0 compares the signed values. -/
theorem truthWord_lessSigned (x y : Word) : truthWord (lessSigned x y) = if x.toInt < y.toInt then 1#32 else 0#32 := by
  simp [truthWord, lessSigned, BitVec.slt]

/-- The unsigned comparison as 1 or 0 compares the unsigned values. -/
theorem truthWord_lessUnsigned (x y : Word) :
    truthWord (lessUnsigned x y) = if x.toNat < y.toNat then 1#32 else 0#32 := by
  simp [truthWord, lessUnsigned, BitVec.ult]

theorem immResult_addi : ImmResult .addi (fun x imm => BitVec.ofInt 32 ((x.toNat : Int) + imm.toInt)) :=
  immResult_of_writeResult (f := fun x y => x + y) (fun _ _ _ _ => rfl) add_sext12

theorem immResult_slti : ImmResult .slti (fun x imm => if x.toInt < imm.toInt then 1#32 else 0#32) :=
  immResult_of_writeResult (f := fun x y => truthWord (lessSigned x y)) (fun _ _ _ _ => rfl) fun x imm => by
    rw [truthWord_lessSigned, toInt_sext12]

theorem immResult_sltiu :
    ImmResult .sltiu (fun x imm => if x.toNat < (imm.signExtend 32).toNat then 1#32 else 0#32) :=
  immResult_of_writeResult (f := fun x y => truthWord (lessUnsigned x y)) (fun _ _ _ _ => rfl) fun x imm =>
    truthWord_lessUnsigned x (sext12 imm)

theorem immResult_xori : ImmResult .xori (fun x imm => x ^^^ imm.signExtend 32) :=
  immResult_of_writeResult (f := fun x y => x ^^^ y) (fun _ _ _ _ => rfl) fun _ _ => rfl

theorem immResult_ori : ImmResult .ori (fun x imm => x ||| imm.signExtend 32) :=
  immResult_of_writeResult (f := fun x y => x ||| y) (fun _ _ _ _ => rfl) fun _ _ => rfl

theorem immResult_andi : ImmResult .andi (fun x imm => x &&& imm.signExtend 32) :=
  immResult_of_writeResult (f := fun x y => x &&& y) (fun _ _ _ _ => rfl) fun _ _ => rfl

/-- Settles O17: the six rows are OP-IMM rows of their funct3, and each instruction writes its operation on x[rs1] and
the sign-extended immediate to rd. -/
theorem opImmResults : Obligations.OpImmResults := by
  unfold Obligations.OpImmResults
  exact ⟨rowMeans_addi, rowMeans_slti, rowMeans_sltiu, rowMeans_xori, rowMeans_ori, rowMeans_andi,
    immResult_addi, immResult_slti, immResult_sltiu, immResult_xori, immResult_ori, immResult_andi⟩

end Sys2Proof.Machine

/-! ## OP-IMM shifts (42_op_imm.md R127 to R130) -/

namespace Sys2Proof.Machine

/-- A row's pattern under the mask of opcode, funct3 and funct7 fixes the four fields that mask covers. -/
theorem fields_of_opcode_funct3_funct7_mask {w pattern : Word} (h : w &&& 0xFE00707F#32 = pattern) :
    w.extractLsb' 0 2 = pattern.extractLsb' 0 2 ∧ opcodeGroup w = opcodeGroup pattern ∧ funct3 w = funct3 pattern ∧
      funct7 w = funct7 pattern :=
  ⟨extract_of_mask h 0 2 (by decide), extract_of_mask h 2 5 (by decide), extract_of_mask h 12 3 (by decide),
    extract_of_mask h 25 7 (by decide)⟩

/-- A shift row of the OP-IMM group means what its decoder reads from the row's funct3 and funct7. -/
theorem rowMeans_opImmShift {pattern : Word} {i : Word → Instr} (f3 : BitVec 3) (f7 : BitVec 7)
    (h0 : pattern.extractLsb' 0 2 = 0b11#2) (hg : opcodeGroup pattern = groupOpImm)
    (h3 : funct3 pattern = f3) (h7 : funct7 pattern = f7)
    (hi : ∀ w, funct3 w = f3 → funct7 w = f7 → decodeOpImm w = .ok (i w)) :
    RowMeans pattern 0xFE00707F#32 i := by
  intro p w h
  obtain ⟨hlow, hgroup, hfunct3, hfunct7⟩ := fields_of_opcode_funct3_funct7_mask h
  calc decodeWordWith p w = decodeOpImm w := decode_opImm p (hlow.trans h0) (hgroup.trans hg)
    _ = .ok (i w) := hi w (hfunct3.trans h3) (hfunct7.trans h7)

theorem rowMeans_slli : RowMeans 0x00001013#32 0xFE00707F#32 (fun w => .slli (rdField w) (rs1Field w) (shamtField w)) :=
  rowMeans_opImmShift 1#3 0x00#7 (by decide) (by decide) (by decide) (by decide) fun w h3 h7 => by
    simp [decodeOpImm, h3, h7]

theorem rowMeans_srli : RowMeans 0x00005013#32 0xFE00707F#32 (fun w => .srli (rdField w) (rs1Field w) (shamtField w)) :=
  rowMeans_opImmShift 5#3 0x00#7 (by decide) (by decide) (by decide) (by decide) fun w h3 h7 => by
    simp [decodeOpImm, h3, h7]

theorem rowMeans_srai : RowMeans 0x40005013#32 0xFE00707F#32 (fun w => .srai (rdField w) (rs1Field w) (shamtField w)) :=
  rowMeans_opImmShift 5#3 0x20#7 (by decide) (by decide) (by decide) (by decide) fun w h3 h7 => by
    simp [decodeOpImm, h3, h7]

/-- Under funct3 1 the decoder lists SLLI at funct7 0x00 only (42_op_imm.md R127, R130). -/
theorem decodeOpImm_leftShift_unlisted {w : Word} (h3 : funct3 w = 1#3) (h7 : funct7 w ≠ 0x00#7) :
    decodeOpImm w = .error .unlistedFunction := by
  simp [decodeOpImm, h3, h7]

/-- Under funct3 5 the decoder lists SRLI at funct7 0x00 and SRAI at funct7 0x20 only (42_op_imm.md R128 to R130). -/
theorem decodeOpImm_rightShift_unlisted {w : Word} (h3 : funct3 w = 5#3) (h7 : funct7 w ≠ 0x00#7)
    (h7' : funct7 w ≠ 0x20#7) : decodeOpImm w = .error .unlistedFunction := by
  simp [decodeOpImm, h3, h7, h7']

/-- A word with an unlisted function is skipped with IllegalInstruction (30_encoding.md R71). -/
theorem runWord_unlistedFunction {w : Word} {s : State}
    (h : decodeWordWith s.params.decode w = .error .unlistedFunction) :
    ∃ t, runWord w s = .next t ∧ Closes s t (s.pc + 4#32) (some .illegalInstruction) :=
  ⟨s.raiseTrap .illegalInstruction, by simp [runWord, h], closes_raiseTrap s _⟩

/-- An OP-IMM word whose funct3 and funct7 the decoder does not list is skipped with IllegalInstruction. -/
theorem runWord_opImm_unlisted {w pattern : Word} (s : State) (h : w &&& 0x0000707F#32 = pattern)
    (h0 : pattern.extractLsb' 0 2 = 0b11#2) (hg : opcodeGroup pattern = groupOpImm)
    (hw : funct3 w = funct3 pattern → decodeOpImm w = .error .unlistedFunction) :
    ∃ t, runWord w s = .next t ∧ Closes s t (s.pc + 4#32) (some .illegalInstruction) := by
  obtain ⟨hlow, hgroup, hfunct3⟩ := fields_of_opcode_funct3_mask h
  apply runWord_unlistedFunction
  calc decodeWordWith s.params.decode w = decodeOpImm w := decode_opImm _ (hlow.trans h0) (hgroup.trans hg)
    _ = .error .unlistedFunction := hw hfunct3

/-- An instruction that writes x[rs1] shifted by the operation `shift` to rd has a shift result, where `bit` gives the
bits of `shift`. -/
theorem shiftResult_of_writeResult {i : Reg → Reg → Instr} {amount : State → Nat} {shift : Word → Nat → Word}
    {bit : Word → Nat → Nat → Bool}
    (hexec : ∀ rd rs1 s, exec (i rd rs1) s = writeResult rd (shift (s.readReg rs1) (amount s)) s)
    (hbit : ∀ v n k, k < 32 → (shift v n).getLsbD k = bit v n k) : ShiftResult i amount bit := by
  intro rd rs1 s
  obtain ⟨t, ht, hresult⟩ := writeResult_spec rd (shift (s.readReg rs1) (amount s)) s
  exact ⟨t, _, (hexec rd rs1 s).trans ht, hresult, hbit _ _⟩

/-- Zeros enter a left shift at bit 0 (00_scope.md R5). -/
theorem getLsbD_shiftLeft_eq_leftShiftBit (v : Word) (n k : Nat) (hk : k < 32) :
    (v <<< n).getLsbD k = leftShiftBit v n k := by
  rw [BitVec.getLsbD_shiftLeft, leftShiftBit]
  by_cases hn : k < n <;> simp [hk, hn]

/-- Zeros enter a logical right shift at bit 31 (00_scope.md R5). -/
theorem getLsbD_ushiftRight_eq_rightShiftBit (v : Word) (n k : Nat) : (v >>> n).getLsbD k = rightShiftBit v n k := by
  rw [BitVec.getLsbD_ushiftRight, Nat.add_comm n k, rightShiftBit]
  split
  · rfl
  · exact BitVec.getLsbD_of_ge v _ (by omega)

/-- Copies of bit 31 enter an arithmetic right shift (00_scope.md R5). -/
theorem getLsbD_sshiftRight_eq_arithShiftBit (v : Word) (n k : Nat) (hk : k < 32) :
    (v.sshiftRight n).getLsbD k = arithShiftBit v n k := by
  rw [BitVec.getLsbD_sshiftRight, Nat.add_comm n k, arithShiftBit, BitVec.msb_eq_getLsbD_last]
  simp [hk]

theorem shiftResult_slli (sh : BitVec 5) :
    ShiftResult (fun rd rs1 => .slli rd rs1 sh) (fun _ => sh.toNat) leftShiftBit :=
  shiftResult_of_writeResult (shift := fun v n => v <<< n) (fun _ _ _ => rfl) getLsbD_shiftLeft_eq_leftShiftBit

theorem shiftResult_srli (sh : BitVec 5) :
    ShiftResult (fun rd rs1 => .srli rd rs1 sh) (fun _ => sh.toNat) rightShiftBit :=
  shiftResult_of_writeResult (shift := fun v n => v >>> n) (fun _ _ _ => rfl)
    fun v n k _ => getLsbD_ushiftRight_eq_rightShiftBit v n k

theorem shiftResult_srai (sh : BitVec 5) :
    ShiftResult (fun rd rs1 => .srai rd rs1 sh) (fun _ => sh.toNat) arithShiftBit :=
  shiftResult_of_writeResult (shift := BitVec.sshiftRight) (fun _ _ _ => rfl) getLsbD_sshiftRight_eq_arithShiftBit

/-- Settles O18: the rows fix funct3 and funct7, the decoder answers any other funct7 with an unlisted function, and
each shift's bits are those of its operation. -/
theorem immediateShiftResults : Obligations.ImmediateShiftResults := by
  unfold Obligations.ImmediateShiftResults
  refine ⟨rowMeans_slli, rowMeans_srli, rowMeans_srai, fun w s h h7 => ?_, fun w s h h7 h7' => ?_, fun sh =>
    ⟨shiftResult_slli sh, shiftResult_srli sh, shiftResult_srai sh⟩⟩
  · exact runWord_opImm_unlisted s h (by decide) (by decide) fun h3 => decodeOpImm_leftShift_unlisted h3 h7
  · exact runWord_opImm_unlisted s h (by decide) (by decide) fun h3 => decodeOpImm_rightShift_unlisted h3 h7 h7'

end Sys2Proof.Machine

/-! ## Upper immediates (43_upper_immediate.md R135 to R137) -/

namespace Sys2Proof.Machine

/-- A row's pattern under the mask of the opcode alone fixes the two fields that mask covers. -/
theorem fields_of_opcode_mask {w pattern : Word} (h : w &&& 0x0000007F#32 = pattern) :
    w.extractLsb' 0 2 = pattern.extractLsb' 0 2 ∧ opcodeGroup w = opcodeGroup pattern :=
  ⟨extract_of_mask h 0 2 (by decide), extract_of_mask h 2 5 (by decide)⟩

theorem rowMeans_auipc : RowMeans 0x00000017#32 0x0000007F#32 (fun w => .auipc (rdField w) (fieldU w)) := by
  intro p w h
  obtain ⟨hlow, hgroup⟩ := fields_of_opcode_mask h
  exact decode_auipc p hlow hgroup

theorem rowMeans_lui : RowMeans 0x00000037#32 0x0000007F#32 (fun w => .lui (rdField w) (fieldU w)) := by
  intro p w h
  obtain ⟨hlow, hgroup⟩ := fields_of_opcode_mask h
  exact decode_lui p hlow hgroup

/-- The U field, as a word, is the instruction word without its low 12 bits. -/
theorem setWidth_fieldU (w : Word) : (fieldU w).setWidth 32 = w >>> 12 := by
  apply BitVec.eq_of_toNat_eq
  simp only [fieldU, BitVec.toNat_setWidth, BitVec.extractLsb'_toNat, BitVec.toNat_ushiftRight,
    Nat.shiftRight_eq_div_pow]
  omega

/-- The two readings of `imm_U(w)`: the field shifted left by 12, and the word under a mask (43_upper_immediate.md
R135). -/
theorem upperImm_fieldU (w : Word) : upperImm (fieldU w) = w &&& 0xFFFFF000#32 := by
  calc upperImm (fieldU w) = w >>> 12 <<< 12 := by rw [upperImm, setWidth_fieldU]
    _ = w &&& BitVec.allOnes 32 <<< 12 := BitVec.shiftLeft_ushiftRight
    _ = w &&& 0xFFFFF000#32 := rfl

/-- The operand is 2^12 times the field. -/
theorem upperImm_eq_ofNat (f : BitVec 20) : upperImm f = BitVec.ofNat 32 (f.toNat * 2 ^ 12) := by
  apply BitVec.eq_of_toNat_eq
  simp [upperImm, Nat.shiftLeft_eq]

/-- The sum with the operand is the exact sum modulo 2^32 (43_upper_immediate.md R136). -/
theorem add_upperImm (x : Word) (f : BitVec 20) : x + upperImm f = BitVec.ofNat 32 (x.toNat + f.toNat * 2 ^ 12) := by
  rw [upperImm_eq_ofNat, BitVec.ofNat_add, BitVec.ofNat_toNat, BitVec.setWidth_eq]

/-- AUIPC writes the exact sum of its own address and the operand, modulo 2^32. -/
theorem exec_auipc_spec (rd : Reg) (f : BitVec 20) (s : State) :
    ∃ t, exec (.auipc rd f) s = .next t ∧
      RegResult s t rd (BitVec.ofNat 32 (s.pc.toNat + f.toNat * 2 ^ 12)) (s.pc + 4#32) := by
  rw [← add_upperImm]
  exact writeResult_spec rd (s.pc + upperImm f) s

/-- LUI writes the operand. -/
theorem exec_lui_spec (rd : Reg) (f : BitVec 20) (s : State) :
    ∃ t, exec (.lui rd f) s = .next t ∧ RegResult s t rd (BitVec.ofNat 32 (f.toNat * 2 ^ 12)) (s.pc + 4#32) := by
  rw [← upperImm_eq_ofNat]
  exact writeResult_spec rd (upperImm f) s

/-- Settles O22: the opcode alone selects each row, and each instruction writes its result, in terms of the operand, to
rd. -/
theorem upperImmediateResults : Obligations.UpperImmediateResults := by
  unfold Obligations.UpperImmediateResults
  exact ⟨rowMeans_auipc, rowMeans_lui, upperImm_fieldU, fun rd f s => ⟨exec_auipc_spec rd f s, exec_lui_spec rd f s⟩⟩

end Sys2Proof.Machine

/-! ## Byte stores at every address (44_store.md R140, R141) -/

namespace Sys2Proof.Machine

/-- A row of the STORE group means what its decoder reads from the row's funct3. -/
theorem rowMeans_store {pattern : Word} {i : Word → Instr} (h0 : pattern.extractLsb' 0 2 = 0b11#2)
    (hg : opcodeGroup pattern = groupStore) (hi : ∀ w, funct3 w = funct3 pattern → decodeStore w = .ok (i w)) :
    RowMeans pattern 0x0000707F#32 i := by
  intro p w h
  obtain ⟨hlow, hgroup, hfunct3⟩ := fields_of_opcode_funct3_mask h
  calc decodeWordWith p w = decodeStore w := decode_store p (hlow.trans h0) (hgroup.trans hg)
    _ = .ok (i w) := hi w hfunct3

theorem rowMeans_sb : RowMeans 0x00000023#32 0x0000707F#32 (fun w => .sb (rs1Field w) (rs2Field w) (immS w)) :=
  rowMeans_store (by decide) (by decide) fun w h => by
    have h3 : funct3 w = 0#3 := h
    simp [decodeStore, h3]

/-- An aligned store whose bytes are all accepted completes (44_store.md R140). -/
theorem storeFrom_of_memWrite_true {n : Nat} {a v : Word} {s u : State} (ha : aligned n a = true)
    (h : memWrite a n v s = (true, u)) : storeFrom n v a s = .next u.retire := by
  simp [storeFrom, ha, h]

/-- An aligned store one of whose bytes is not accepted traps, the bytes before it stored (44_store.md R140). -/
theorem storeFrom_of_memWrite_false {n : Nat} {a v : Word} {s u : State} (ha : aligned n a = true)
    (h : memWrite a n v s = (false, u)) : storeFrom n v a s = .next (u.raiseTrap .inaccessibleMemory) := by
  simp [storeFrom, ha, h]

/-- The accepted bytes of a store do not move pc, so that retiring after them is what `StoreResult` says. -/
theorem storeResult_retire {s u : State} {a : Nat} {bs : List Byte} (h : Stored s u a bs) :
    StoreResult s u.retire a bs none := by
  have hpc : u.pc = s.pc := by
    obtain ⟨m, uart, rfl⟩ := h.frame
    rfl
  rw [State.retire, State.nextPc, hpc]
  exact storeResult_close h none

/-- SB to RAM stores bits 7:0 of x[rs2]: its one byte is in memory, as is every byte of an accepted access (20_memory.md
R36, R41). -/
theorem exec_sb_ram {rs1 rs2 : Reg} {imm : BitVec 12} {s : State} (hm : s.params.map.wf = true)
    (hw : Memory.wf s.mem = true) (h : inRam s.params.map (effectiveAddr s rs1 imm).toNat) :
    ∃ t, exec (.sb rs1 rs2 imm) s = .next t ∧
      StoreResult s t (effectiveAddr s rs1 imm).toNat [(s.readReg rs2).extractLsb' 0 8] none := by
  have hstorable : ∀ j, j < 1 → storable s.params.map ((effectiveAddr s rs1 imm).toNat + j) := by
    intro j hj
    obtain rfl : j = 0 := Nat.lt_one_iff.mp hj
    exact .inl h
  obtain ⟨u, hu, hstored⟩ := memWrite_stored (s.readReg rs2) hm hw (BitVec.isLt _) (Nat.le_refl 1) hstorable
    fun h1 => absurd h1 (Nat.lt_irrefl 1)
  exact ⟨u.retire, storeFrom_of_memWrite_true (aligned_one _) hu, storeResult_retire hstored⟩

/-- SB to STATUS does nothing and does not trap (60_exceptions.md R213). -/
theorem exec_sb_status {rs1 rs2 : Reg} {imm : BitVec 12} {s : State} (hm : s.params.map.wf = true)
    (h : (effectiveAddr s rs1 imm).toNat = s.params.map.uartBase) :
    ∃ t, exec (.sb rs1 rs2 imm) s = .next t ∧ Closes s t (s.pc + 4#32) none :=
  ⟨s.retire, storeFrom_of_memWrite_true (aligned_one _) (memWrite_status hm h _), closes_retire s⟩

/-- SB to DATA queues bits 7:0 of x[rs2] (60_exceptions.md R212). -/
theorem exec_sb_data {rs1 rs2 : Reg} {imm : BitVec 12} {s : State} (hm : s.params.map.wf = true)
    (h : (effectiveAddr s rs1 imm).toNat = s.params.map.uartBase + 1) :
    ∃ t, exec (.sb rs1 rs2 imm) s = .next t ∧
      Closes { s with uart := { s.uart with dataOut := (s.readReg rs2).extractLsb' 0 8, txdone := false } } t
        (s.pc + 4#32) none := by
  rw [← BitVec.setWidth_eq_extractLsb' (by decide)]
  exact ⟨_, storeFrom_of_memWrite_true (aligned_one _) (memWrite_data hm h _), closes_retire _⟩

/-- SB to ROM or to an unmapped address stores nothing and traps, whatever the map (20_memory.md R35, R54). -/
theorem exec_sb_denied {rs1 rs2 : Reg} {imm : BitVec 12} {s : State}
    (h : inRom s.params.map (effectiveAddr s rs1 imm).toNat ∨ unmapped s.params.map (effectiveAddr s rs1 imm).toNat) :
    ∃ t, exec (.sb rs1 rs2 imm) s = .next t ∧ Closes s t (s.pc + 4#32) (some .inaccessibleMemory) :=
  ⟨s.raiseTrap .inaccessibleMemory,
    storeFrom_of_memWrite_false (aligned_one _) (memWrite_denied _ h Nat.one_pos), closes_raiseTrap s _⟩

/-- Settles O31: the row is a STORE row of funct3 0, and the one-byte store, never misaligned (20_memory.md R39), has one
answer for each kind of address. -/
theorem byteStoreAtEveryAddress : Obligations.ByteStoreAtEveryAddress := by
  unfold Obligations.ByteStoreAtEveryAddress
  refine ⟨rowMeans_sb, ?_⟩
  rintro rs1 rs2 imm s _ rfl hm hw
  exact ⟨exec_sb_ram hm hw, exec_sb_status hm, exec_sb_data hm, exec_sb_denied⟩

end Sys2Proof.Machine

/-! ## ADD and SUB (45_op.md R151, R152) -/

namespace Sys2Proof.Machine

/-- A row of the OP group whose funct3 and funct7 select it means what its decoder reads from those two, whether or not
OP_FUNCT7_STRICT is set. -/
theorem rowMeans_op {pattern : Word} {i : Word → Instr} (f3 : BitVec 3) (f7 : BitVec 7)
    (h0 : pattern.extractLsb' 0 2 = 0b11#2) (hg : opcodeGroup pattern = groupOp)
    (h3 : funct3 pattern = f3) (h7 : funct7 pattern = f7)
    (hi : ∀ strict w, funct3 w = f3 → funct7 w = f7 → decodeOp strict w = .ok (i w)) :
    RowMeans pattern 0xFE00707F#32 i := by
  intro p w h
  obtain ⟨hlow, hgroup, hfunct3, hfunct7⟩ := fields_of_opcode_funct3_funct7_mask h
  calc decodeWordWith p w = decodeOp p.opFunct7Strict w := decode_op p (hlow.trans h0) (hgroup.trans hg)
    _ = .ok (i w) := hi _ w (hfunct3.trans h3) (hfunct7.trans h7)

theorem rowMeans_add : RowMeans 0x00000033#32 0xFE00707F#32 (fun w => .add (rdField w) (rs1Field w) (rs2Field w)) :=
  rowMeans_op 0#3 0x00#7 (by decide) (by decide) (by decide) (by decide) fun _ _ h3 h7 => by
    simp [decodeOp, h3, h7]

theorem rowMeans_sub : RowMeans 0x40000033#32 0xFE00707F#32 (fun w => .sub (rdField w) (rs1Field w) (rs2Field w)) :=
  rowMeans_op 0#3 0x20#7 (by decide) (by decide) (by decide) (by decide) fun _ _ h3 h7 => by
    simp [decodeOp, h3, h7]

/-- An instruction that writes a function `f` of x[rs1] and x[rs2] to rd has the result `g`, where `g` is another
reading of `f`. -/
theorem regRegResult_of_writeResult {mk : Reg → Reg → Reg → Instr} {f g : Word → Word → Word}
    (hexec : ∀ rd rs1 rs2 s, exec (mk rd rs1 rs2) s = writeResult rd (f (s.readReg rs1) (s.readReg rs2)) s)
    (hvalue : ∀ x y, f x y = g x y) : RegRegResult mk g := by
  intro rd rs1 rs2 s
  rw [hexec, hvalue]
  exact writeResult_spec rd _ s

/-- The sum is the exact signed sum modulo 2^32 (45_op.md R151). -/
theorem add_eq_ofInt (x y : Word) : x + y = BitVec.ofInt 32 (x.toInt + y.toInt) := by
  rw [BitVec.ofInt_add, BitVec.ofInt_toInt, BitVec.ofInt_toInt]

/-- The low 32 bits of an exact difference depend on the low 32 bits of its terms only (45_op.md R152). -/
theorem ofInt_sub_eq_sub_ofInt (a b : Int) : BitVec.ofInt 32 (a - b) = BitVec.ofInt 32 a - BitVec.ofInt 32 b := by
  rw [Int.sub_eq_add_neg, BitVec.ofInt_add, BitVec.ofInt_neg, BitVec.sub_eq_add_neg]

/-- The difference is the exact unsigned difference modulo 2^32 (45_op.md R152). -/
theorem sub_eq_ofInt_toNat (x y : Word) : x - y = BitVec.ofInt 32 ((x.toNat : Int) - (y.toNat : Int)) := by
  rw [ofInt_sub_eq_sub_ofInt, BitVec.ofInt_natCast, BitVec.ofInt_natCast, BitVec.ofNat_toNat, BitVec.ofNat_toNat,
    BitVec.setWidth_eq, BitVec.setWidth_eq]

/-- The difference is the exact signed difference modulo 2^32 (45_op.md R152). -/
theorem sub_eq_ofInt_toInt (x y : Word) : x - y = BitVec.ofInt 32 (x.toInt - y.toInt) := by
  rw [ofInt_sub_eq_sub_ofInt, BitVec.ofInt_toInt, BitVec.ofInt_toInt]

/-- ADD has any result that is a reading of the sum of its sources (45_op.md R151). -/
theorem regRegResult_add {g : Word → Word → Word} (h : ∀ x y, x + y = g x y) : RegRegResult .add g :=
  regRegResult_of_writeResult (f := fun x y => x + y) (fun _ _ _ _ => rfl) h

/-- SUB has any result that is a reading of rs1 minus rs2 (45_op.md R152). -/
theorem regRegResult_sub {g : Word → Word → Word} (h : ∀ x y, x - y = g x y) : RegRegResult .sub g :=
  regRegResult_of_writeResult (f := fun x y => x - y) (fun _ _ _ _ => rfl) h

/-- Settles O19: the rows fix funct3 and funct7, and the word each instruction writes is the exact sum or difference
modulo 2^32 in both readings. -/
theorem addAndSubAreModulo : Obligations.AddAndSubAreModulo := by
  unfold Obligations.AddAndSubAreModulo
  exact ⟨rowMeans_add, rowMeans_sub, regRegResult_add BitVec.add_def, regRegResult_add add_eq_ofInt,
    regRegResult_sub sub_eq_ofInt_toNat, regRegResult_sub sub_eq_ofInt_toInt⟩

end Sys2Proof.Machine

/-! ## Right shifts by a register (45_op.md R157, R158) -/

namespace Sys2Proof.Machine

theorem rowMeans_srl : RowMeans 0x00005033#32 0xFE00707F#32 (fun w => .srl (rdField w) (rs1Field w) (rs2Field w)) :=
  rowMeans_op 5#3 0x00#7 (by decide) (by decide) (by decide) (by decide) fun _ _ h3 h7 => by
    simp [decodeOp, h3, h7]

theorem rowMeans_sra : RowMeans 0x40005033#32 0xFE00707F#32 (fun w => .sra (rdField w) (rs1Field w) (rs2Field w)) :=
  rowMeans_op 5#3 0x20#7 (by decide) (by decide) (by decide) (by decide) fun _ _ h3 h7 => by
    simp [decodeOp, h3, h7]

/-- The low 5 bits of a word are the word modulo 32 (45_op.md R162). -/
theorem shiftAmount_eq_mod (v : Word) : shiftAmount v = v.toNat % 32 := by
  rw [shiftAmount, BitVec.extractLsb'_toNat, Nat.shiftRight_zero]

/-- An instruction that writes x[rs1] shifted by the low 5 bits of x[rs2] to rd has a shift result by x[rs2] mod 32,
where `bit` gives the bits of `shift` (45_op.md R162). -/
theorem shiftResult_of_shiftAmount {mk : Reg → Reg → Reg → Instr} {shift : Word → Nat → Word}
    {bit : Word → Nat → Nat → Bool}
    (hexec : ∀ rd rs1 rs2 s,
      exec (mk rd rs1 rs2) s = writeResult rd (shift (s.readReg rs1) (shiftAmount (s.readReg rs2))) s)
    (hbit : ∀ v n k, k < 32 → (shift v n).getLsbD k = bit v n k) (rs2 : Reg) :
    ShiftResult (fun rd rs1 => mk rd rs1 rs2) (fun s => (s.readReg rs2).toNat % 32) bit :=
  shiftResult_of_writeResult (fun rd rs1 s => by rw [hexec, shiftAmount_eq_mod]) hbit

theorem shiftResult_srl (rs2 : Reg) :
    ShiftResult (fun rd rs1 => .srl rd rs1 rs2) (fun s => (s.readReg rs2).toNat % 32) rightShiftBit :=
  shiftResult_of_shiftAmount (shift := fun v n => v >>> n) (fun _ _ _ _ => rfl)
    (fun v n k _ => getLsbD_ushiftRight_eq_rightShiftBit v n k) rs2

theorem shiftResult_sra (rs2 : Reg) :
    ShiftResult (fun rd rs1 => .sra rd rs1 rs2) (fun s => (s.readReg rs2).toNat % 32) arithShiftBit :=
  shiftResult_of_shiftAmount (shift := BitVec.sshiftRight) (fun _ _ _ _ => rfl)
    getLsbD_sshiftRight_eq_arithShiftBit rs2

/-- Settles O20: the rows fix funct3 and funct7, and each instruction shifts by x[rs2] mod 32 with the bits of its
operation. -/
theorem rightShiftResults : Obligations.RightShiftResults := by
  unfold Obligations.RightShiftResults
  exact ⟨rowMeans_srl, rowMeans_sra, fun rs2 => ⟨shiftResult_srl rs2, shiftResult_sra rs2⟩⟩

end Sys2Proof.Machine

/-! ## The branches (46_branch.md R165 to R171) -/

namespace Sys2Proof.Machine

/-- A row of the BRANCH group means what its decoder reads from the row's funct3. -/
theorem rowMeans_branch {pattern : Word} {i : Word → Instr} (f3 : BitVec 3) (h0 : pattern.extractLsb' 0 2 = 0b11#2)
    (hg : opcodeGroup pattern = groupBranch) (h3 : funct3 pattern = f3)
    (hi : ∀ w, funct3 w = f3 → decodeBranch w = .ok (i w)) : RowMeans pattern 0x0000707F#32 i := by
  intro p w h
  obtain ⟨hlow, hgroup, hfunct3⟩ := fields_of_opcode_funct3_mask h
  calc decodeWordWith p w = decodeBranch w := decode_branch p (hlow.trans h0) (hgroup.trans hg)
    _ = .ok (i w) := hi w (hfunct3.trans h3)

theorem rowMeans_beq : RowMeans 0x00000063#32 0x0000707F#32 (fun w => .beq (rs1Field w) (rs2Field w) (immB w)) :=
  rowMeans_branch 0#3 (by decide) (by decide) (by decide) fun w h3 => by simp [decodeBranch, h3]

theorem rowMeans_bne : RowMeans 0x00001063#32 0x0000707F#32 (fun w => .bne (rs1Field w) (rs2Field w) (immB w)) :=
  rowMeans_branch 1#3 (by decide) (by decide) (by decide) fun w h3 => by simp [decodeBranch, h3]

theorem rowMeans_blt : RowMeans 0x00004063#32 0x0000707F#32 (fun w => .blt (rs1Field w) (rs2Field w) (immB w)) :=
  rowMeans_branch 4#3 (by decide) (by decide) (by decide) fun w h3 => by simp [decodeBranch, h3]

theorem rowMeans_bge : RowMeans 0x00005063#32 0x0000707F#32 (fun w => .bge (rs1Field w) (rs2Field w) (immB w)) :=
  rowMeans_branch 5#3 (by decide) (by decide) (by decide) fun w h3 => by simp [decodeBranch, h3]

theorem rowMeans_bltu : RowMeans 0x00006063#32 0x0000707F#32 (fun w => .bltu (rs1Field w) (rs2Field w) (immB w)) :=
  rowMeans_branch 6#3 (by decide) (by decide) (by decide) fun w h3 => by simp [decodeBranch, h3]

theorem rowMeans_bgeu : RowMeans 0x00007063#32 0x0000707F#32 (fun w => .bgeu (rs1Field w) (rs2Field w) (immB w)) :=
  rowMeans_branch 7#3 (by decide) (by decide) (by decide) fun w h3 => by simp [decodeBranch, h3]

theorem equalWords_iff (x y : Word) : equalWords x y = true ↔ x = y := beq_iff_eq

theorem lessSigned_iff (x y : Word) : lessSigned x y = true ↔ x.toInt < y.toInt := BitVec.slt_iff_toInt_lt

theorem lessUnsigned_iff (x y : Word) : lessUnsigned x y = true ↔ x.toNat < y.toNat := BitVec.ult_iff_lt

theorem not_equalWords_iff (x y : Word) : (!equalWords x y) = true ↔ x ≠ y := by
  rw [Bool.not_eq_true', ← Bool.not_eq_true, equalWords_iff]

theorem not_lessSigned_iff (x y : Word) : (!lessSigned x y) = true ↔ y.toInt ≤ x.toInt := by
  rw [Bool.not_eq_true', ← Bool.not_eq_true, lessSigned_iff, Int.not_lt]

theorem not_lessUnsigned_iff (x y : Word) : (!lessUnsigned x y) = true ↔ y.toNat ≤ x.toNat := by
  rw [Bool.not_eq_true', ← Bool.not_eq_true, lessUnsigned_iff, Nat.not_lt]

/-- An instruction that branches to its target on a test of x[rs1] and x[rs2] has the meaning of a branch on `cond`,
where `test` decides `cond` (46_branch.md R165). -/
theorem branchMeaning_of_branchIf {mk : Reg → Reg → BitVec 13 → Instr} {test : Word → Word → Bool}
    {cond : Word → Word → Prop}
    (hexec : ∀ rs1 rs2 o s,
      exec (mk rs1 rs2 o) s = branchIf (test (s.readReg rs1) (s.readReg rs2)) (branchTarget s o) s)
    (htest : ∀ x y, test x y = true ↔ cond x y) : BranchMeaning mk cond := by
  intro rs1 rs2 o s
  obtain ⟨t, ht, hcloses⟩ := branchIf_spec (test (s.readReg rs1) (s.readReg rs2)) (branchTarget s o) s
  refine ⟨t, (hexec rs1 rs2 o s).trans ht, fun htaken => ?_, fun hnot => ?_⟩
  · rwa [if_pos ((htest _ _).mpr htaken)] at hcloses
  · rwa [if_neg (mt (htest _ _).mp hnot)] at hcloses

theorem branchMeaning_beq : BranchMeaning .beq (fun x y => x = y) :=
  branchMeaning_of_branchIf (fun _ _ _ _ => rfl) equalWords_iff

theorem branchMeaning_bne : BranchMeaning .bne (fun x y => x ≠ y) :=
  branchMeaning_of_branchIf (test := fun x y => !equalWords x y) (fun _ _ _ _ => rfl) not_equalWords_iff

theorem branchMeaning_blt : BranchMeaning .blt (fun x y => x.toInt < y.toInt) :=
  branchMeaning_of_branchIf (fun _ _ _ _ => rfl) lessSigned_iff

theorem branchMeaning_bge : BranchMeaning .bge (fun x y => y.toInt ≤ x.toInt) :=
  branchMeaning_of_branchIf (test := fun x y => !lessSigned x y) (fun _ _ _ _ => rfl) not_lessSigned_iff

theorem branchMeaning_bltu : BranchMeaning .bltu (fun x y => x.toNat < y.toNat) :=
  branchMeaning_of_branchIf (fun _ _ _ _ => rfl) lessUnsigned_iff

theorem branchMeaning_bgeu : BranchMeaning .bgeu (fun x y => y.toNat ≤ x.toNat) :=
  branchMeaning_of_branchIf (test := fun x y => !lessUnsigned x y) (fun _ _ _ _ => rfl) not_lessUnsigned_iff

/-- Settles O23: the six rows are BRANCH rows of their funct3, and each instruction branches on a test that decides its
condition. -/
theorem branchesFollowTheirConditions : Obligations.BranchesFollowTheirConditions := by
  unfold Obligations.BranchesFollowTheirConditions
  exact ⟨rowMeans_beq, rowMeans_bne, rowMeans_blt, rowMeans_bge, rowMeans_bltu, rowMeans_bgeu,
    branchMeaning_beq, branchMeaning_bne, branchMeaning_blt, branchMeaning_bge, branchMeaning_bltu,
    branchMeaning_bgeu⟩

end Sys2Proof.Machine

/-! ## JAL (47_jump.md R177) -/

namespace Sys2Proof.Machine

/-- The opcode alone selects the row. -/
theorem rowMeans_jal : RowMeans 0x0000006F#32 0x0000007F#32 (fun w => .jal (rdField w) (immJ w)) := by
  intro p w h
  obtain ⟨hlow, hgroup⟩ := fields_of_opcode_mask h
  exact decode_jal p hlow hgroup

/-- The sum with an offset sign-extended from any width up to 32 is the exact sum modulo 2^32 (00_scope.md R6). -/
theorem add_signExtend_eq_ofInt {n : Nat} (hn : n ≤ 32) (x : Word) (o : BitVec n) :
    x + o.signExtend 32 = BitVec.ofInt 32 ((x.toNat : Int) + o.toInt) := by
  calc x + o.signExtend 32
      = BitVec.ofInt 32 x.toNat + BitVec.ofInt 32 (o.signExtend 32).toInt := by
        rw [BitVec.ofInt_natCast, BitVec.ofNat_toNat, BitVec.setWidth_eq, BitVec.ofInt_toInt]
    _ = BitVec.ofInt 32 ((x.toNat : Int) + o.toInt) := by
        rw [BitVec.toInt_signExtend_of_le hn, BitVec.ofInt_add]

theorem jalTarget_eq_ofInt (s : State) (o : BitVec 21) :
    jalTarget s o = BitVec.ofInt 32 ((s.pc.toNat : Int) + o.toInt) :=
  add_signExtend_eq_ofInt (by decide) s.pc o

/-- JAL links the address after its own and jumps to the exact sum of its own address and the offset, modulo 2^32. -/
theorem exec_jal_spec (rd : Reg) (o : BitVec 21) (s : State) :
    ∃ t, exec (.jal rd o) s = .next t ∧
      RegResult s t rd (s.pc + 4#32) (BitVec.ofInt 32 ((s.pc.toNat : Int) + o.toInt)) := by
  rw [← jalTarget_eq_ofInt]
  exact jumpAndLink_spec rd (jalTarget s o) s

/-- Settles O24: the opcode alone selects the row, and the instruction is `jumpAndLink` to `jalTarget`, the exact sum. -/
theorem jalLinksAndJumps : Obligations.JalLinksAndJumps := by
  unfold Obligations.JalLinksAndJumps
  exact ⟨rowMeans_jal, exec_jal_spec⟩

end Sys2Proof.Machine

/-! ## The transmit part of a poll (60_exceptions.md R217) -/

namespace Sys2Proof.Machine

/-- The receive part touches nothing that the transmit part reads or writes (60_exceptions.md R216). -/
theorem pollReceive_keeps_transmit (s : State) :
    (pollReceive s).uart.txdone = s.uart.txdone ∧ (pollReceive s).uart.dataOut = s.uart.dataOut ∧
      (pollReceive s).host.txlog = s.host.txlog := by
  unfold pollReceive
  split
  · exact ⟨rfl, rfl, rfl⟩
  · split <;> exact ⟨rfl, rfl, rfl⟩

@[simp] theorem pollTransmit_dataOut (s : State) : (pollTransmit s).uart.dataOut = s.uart.dataOut := by
  unfold pollTransmit
  split <;> rfl

theorem pollTransmit_txlog (s : State) :
    (pollTransmit s).host.txlog = s.host.txlog ++ if s.uart.txdone then [] else [s.uart.dataOut] := by
  unfold pollTransmit
  split
  · exact (List.append_nil _).symm
  · rfl

@[simp] theorem poll_txdone (s : State) : (poll s).uart.txdone = true := pollTransmit_txdone _

@[simp] theorem poll_dataOut (s : State) : (poll s).uart.dataOut = s.uart.dataOut := by
  obtain ⟨-, hdata, -⟩ := pollReceive_keeps_transmit { s with host := hostArrive s.host }
  exact (pollTransmit_dataOut _).trans hdata

/-- What a poll sends: the byte in `dataOut` when TXDONE is clear, and nothing otherwise. -/
theorem poll_txlog (s : State) :
    (poll s).host.txlog = s.host.txlog ++ if s.uart.txdone then [] else [s.uart.dataOut] := by
  obtain ⟨hdone, hdata, hlog⟩ := pollReceive_keeps_transmit { s with host := hostArrive s.host }
  unfold poll
  rw [pollTransmit_txlog, hdone, hdata, hlog, txlog_hostArrive]

/-- Settles O43: `poll_txlog` at either value of TXDONE, and the frame of a poll. -/
theorem pollTransmitsThePendingByte : Obligations.PollTransmitsThePendingByte := by
  unfold Obligations.PollTransmitsThePendingByte
  intro s
  have hclear (h : s.uart.txdone = false) : (poll s).host.txlog = s.host.txlog ++ [s.uart.dataOut] := by
    simp [poll_txlog, h]
  have hset (h : s.uart.txdone = true) : (poll s).host.txlog = s.host.txlog := by
    simp [poll_txlog, h]
  exact ⟨hclear, hset, poll_txdone s, poll_dataOut s, poll_regs s, poll_pc s, poll_mem s, poll_csr s, poll_halted s,
    poll_params s⟩

end Sys2Proof.Machine

/-! ## Everything an instruction leaves behind (40_cycle.md R96 to R98) -/

namespace Sys2Proof.Machine

/-- The next states an instruction can answer: a register result, a change of pc alone, a load that completes or traps,
a store some of whose bytes were accepted and that then completes or traps. -/
inductive Effect (i : Instr) (s : State) : State → Prop
  | result (rd : Reg) (v p : Word) (hd : destination i = some rd) (hstore : storeForm i = none)
      (hload : isLoad i = false) (hpc : transfersControl i = false → p = s.pc + 4#32) :
      Effect i s ((s.writeReg rd v).close p none)
  | flow (p : Word) (hstore : storeForm i = none) (hload : isLoad i = false)
      (hpc : transfersControl i = false → p = s.pc + 4#32) : Effect i s (s.close p none)
  | loaded (rd : Reg) (v : Word) (u : Uart) (hu : u = s.uart ∨ u = { s.uart with newdat := false })
      (hd : destination i = some rd) (hstore : storeForm i = none) (hload : isLoad i = true)
      (hcontrol : transfersControl i = false) :
      Effect i s (({ s with uart := u }.writeReg rd v).close (s.pc + 4#32) none)
  | loadTrap (k : ErrorKind) (u : Uart) (hu : u = s.uart ∨ u = { s.uart with newdat := false })
      (hk : k ∈ mayReport i) (hstore : storeForm i = none) (hload : isLoad i = true)
      (hcontrol : transfersControl i = false) : Effect i s ({ s with uart := u }.close (s.pc + 4#32) (some k))
  | store (rs1 : Reg) (imm : BitVec 12) (n : Nat) (bs : List Byte) (o : Option ErrorKind)
      (hstore : storeForm i = some (rs1, imm, n)) (hload : isLoad i = false) (hcontrol : transfersControl i = false)
      (hlen : bs.length ≤ n) (hwrap : (effectiveAddr s rs1 imm).toNat + bs.length ≤ 2 ^ 32)
      (ho : ∀ k, o = some k → k ∈ mayReport i) :
      Effect i s ((storeBytes bs (effectiveAddr s rs1 imm) s).2.close (s.pc + 4#32) o)

/-- The byte stores of an access do not move pc. -/
theorem pc_storeBytes (bs : List Byte) (a : Word) (s : State) : (storeBytes bs a s).2.pc = s.pc := by
  obtain ⟨m, u, h⟩ := storeBytes_frame bs a s
  rw [h]

/-- A load has the effect of one: it completes or traps, and its byte loads clear NEWDAT at most. -/
theorem effect_of_loadInto {i : Instr} {s t : State} {n : Nat} {f : Word → Word} {rd : Reg} {a : Word}
    (h : loadInto n f rd a s = .next t) (hload : isLoad i = true) (hd : destination i = some rd)
    (hstore : storeForm i = none) (hcontrol : transfersControl i = false)
    (hmis : n = 1 ∨ ErrorKind.misalignedAccess ∈ mayReport i) (hinacc : ErrorKind.inaccessibleMemory ∈ mayReport i) :
    Effect i s t := by
  obtain ⟨t', ht', hcases⟩ := loadInto_cases n f rd a s
  obtain rfl : t' = t := Host.Outcome.next.inj (ht'.symm.trans h)
  obtain ⟨u, hu, huart⟩ := loadBytes_state n a s
  rcases hcases with ⟨hal, rfl⟩ | ⟨-, v, -, rfl⟩ | ⟨-, -, rfl⟩
  · have hk : ErrorKind.misalignedAccess ∈ mayReport i := hmis.resolve_left fun h1 => by simp [h1, aligned_one] at hal
    exact .loadTrap _ s.uart (.inl rfl) hk hstore hload hcontrol
  · rw [memRead, hu]
    exact .loaded rd (f v) u huart hd hstore hload hcontrol
  · rw [memRead, hu]
    exact .loadTrap _ u huart hinacc hstore hload hcontrol

/-- A store has the effect of one: a misaligned one stores no byte, and an aligned access does not wrap. -/
theorem effect_of_storeFrom {i : Instr} {s t : State} {n : Nat} {v : Word} {rs1 : Reg} {imm : BitVec 12}
    (h : storeFrom n v (effectiveAddr s rs1 imm) s = .next t) (hload : isLoad i = false)
    (hstore : storeForm i = some (rs1, imm, n)) (hcontrol : transfersControl i = false)
    (hmis : n = 1 ∨ ErrorKind.misalignedAccess ∈ mayReport i) (hinacc : ErrorKind.inaccessibleMemory ∈ mayReport i)
    (hn : n ∣ 2 ^ 32) : Effect i s t := by
  obtain ⟨t', ht', hcases⟩ := storeFrom_cases n v (effectiveAddr s rs1 imm) s
  obtain rfl : t' = t := Host.Outcome.next.inj (ht'.symm.trans h)
  have accepted (ha : aligned n (effectiveAddr s rs1 imm) = true) (o : Option ErrorKind)
      (ho : ∀ k, o = some k → k ∈ mayReport i) :
      Effect i s ((memWrite (effectiveAddr s rs1 imm) n v s).2.close (s.pc + 4#32) o) :=
    .store rs1 imm n (leBytes n v) o hstore hload hcontrol (leBytes_length n v).le
      (by rw [leBytes_length]; exact aligned_bound hn ha) ho
  have hpc : (memWrite (effectiveAddr s rs1 imm) n v s).2.pc = s.pc := pc_storeBytes _ _ s
  rcases hcases with ⟨hal, rfl⟩ | ⟨ha, -, rfl⟩ | ⟨ha, -, rfl⟩
  · have hk : ErrorKind.misalignedAccess ∈ mayReport i := hmis.resolve_left fun h1 => by simp [h1, aligned_one] at hal
    exact .store rs1 imm n [] _ hstore hload hcontrol (Nat.zero_le n) (effectiveAddr s rs1 imm).isLt.le
      fun k h => Option.some.inj h ▸ hk
  · rw [State.retire, nextPc_eq, hpc]
    exact accepted ha none nofun
  · rw [State.raiseTrap, nextPc_eq, hpc]
    exact accepted ha _ fun k h => Option.some.inj h ▸ hinacc

/-- Everything an instruction can do (40_cycle.md R96 to R98). -/
theorem effect_of_exec {i : Instr} {s t : State} (h : exec i s = .next t) : Effect i s t := by
  rcases exec_cases i s with ⟨rd, v, p, he, hd, hstore, hload, hpc⟩ | ⟨p, he, hstore, hload, hpc⟩ |
    ⟨n, f, rd, a, he, hload, hd, hstore, hcontrol, hmis, hinacc⟩ |
    ⟨n, v, rs1, imm, he, hload, hstore, hcontrol, hmis, hinacc, hn⟩
  · obtain rfl := Host.Outcome.next.inj (he.symm.trans h)
    exact .result rd v p hd hstore hload hpc
  · obtain rfl := Host.Outcome.next.inj (he.symm.trans h)
    exact .flow p hstore hload hpc
  · exact effect_of_loadInto (he.symm.trans h) hload hd hstore hcontrol hmis hinacc
  · exact effect_of_storeFrom (he.symm.trans h) hload hstore hcontrol hmis hinacc hn

end Sys2Proof.Machine

/-! ## The invariant (10_state.md R11, R16, R20, R22; 60_exceptions.md R195) -/

namespace Sys2Proof.Machine

/-- The stores of an access leave everything but memory and the UART. -/
theorem storeBytes_keeps (bs : List Byte) (a : Word) (s : State) :
    (∀ r, (storeBytes bs a s).2.readReg r = s.readReg r) ∧ (storeBytes bs a s).2.csr = s.csr ∧
      (storeBytes bs a s).2.halted = s.halted ∧ (storeBytes bs a s).2.host = s.host ∧
      (storeBytes bs a s).2.params = s.params := by
  obtain ⟨m, u, h⟩ := storeBytes_frame bs a s
  rw [h]
  exact ⟨fun _ => rfl, rfl, rfl, rfl, rfl⟩

/-- No instruction changes the CSR table, the halted mark, the host channel or the configuration. -/
theorem Effect.keeps {i : Instr} {s t : State} (h : Effect i s t) :
    t.csr = s.csr ∧ t.halted = s.halted ∧ t.host = s.host ∧ t.params = s.params := by
  cases h with
  | result | flow | loaded | loadTrap => exact ⟨rfl, rfl, rfl, rfl⟩
  | store rs1 imm n bs =>
    obtain ⟨-, hcsr, hhalted, hhost, hparams⟩ := storeBytes_keeps bs (effectiveAddr s rs1 imm) s
    exact ⟨hcsr, hhalted, hhost, hparams⟩

/-- Every instruction forces x[0] (40_cycle.md R97). -/
theorem Effect.zero {i : Instr} {s t : State} (h : Effect i s t) : t.readReg 0 = 0#32 := by
  cases h <;> simp

/-- A report of an instruction is one of its listed kinds (60_exceptions.md R193). -/
theorem Effect.report {i : Instr} {s t : State} (h : Effect i s t) {k : ErrorKind} (hk : t.report = some k) :
    k ∈ mayReport i := by
  cases h with
  | result | flow | loaded => exact nomatch hk
  | loadTrap k' u hu hmem => exact Option.some.inj hk ▸ hmem
  | store rs1 imm n bs o hstore hload hcontrol hlen hwrap ho => exact ho k hk

/-- No instruction reports the fatal kind: it is a word's that is no instruction (60_exceptions.md R193). -/
theorem fatal_not_mem_mayReport (i : Instr) : ErrorKind.invalidInstructionEncoding ∉ mayReport i := by
  cases i <;> simp [mayReport]

/-- Every instruction keeps the canonical form of memory, and puts bytes into RAM only. -/
theorem Effect.memory {i : Instr} {s t : State} (h : Effect i s t) (hcanon : Memory.wf s.mem = true)
    (hcells : cellsStored s.params.map s.mem = true) :
    Memory.wf t.mem = true ∧ cellsStored s.params.map t.mem = true := by
  cases h with
  | result | flow | loaded | loadTrap => exact ⟨hcanon, hcells⟩
  | store rs1 imm n bs => exact wf_storeBytes bs (effectiveAddr s rs1 imm) s hcanon hcells

/-- An instruction keeps the invariant of a running machine. -/
theorem Effect.inv {i : Instr} {s t : State} (h : Effect i s t) (hs : s.Inv) (hrun : s.halted = false) : t.Inv := by
  obtain ⟨hcsr, hhalted, -, hparams⟩ := h.keeps
  obtain ⟨hcanon, hcells⟩ := h.memory hs.canon hs.cells
  refine ⟨hparams ▸ hs.params, hcsr ▸ hs.csr, h.zero, hcanon, hparams ▸ hcells, ?_⟩
  have hreport : t.report ≠ some .invalidInstructionEncoding := fun hk => fatal_not_mem_mayReport i (h.report hk)
  simp [hhalted, hrun, hreport]

/-- Closing a cycle of a running machine with a recoverable report keeps the invariant. -/
theorem inv_close {s : State} (hs : s.Inv) (hrun : s.halted = false) (p : Word) {k : ErrorKind}
    (hk : k ≠ .invalidInstructionEncoding) : (s.close p (some k)).Inv :=
  ⟨hs.params, hs.csr, by simp, hs.canon, hs.cells, by simp [hrun, hk]⟩

/-- Halting keeps the invariant: it sets the mark and the fatal report together. -/
theorem inv_halt {s : State} (hs : s.Inv) : s.halt.Inv :=
  ⟨hs.params, hs.csr, hs.zero, hs.canon, hs.cells, by simp⟩

/-- The poll and the fetch of a cycle change the UART and the host channel only. -/
theorem fetch_poll_frame (s : State) : ∃ u, (fetch (poll s)).2 = { s with uart := u, host := (poll s).host } := by
  obtain ⟨u, hfetch, -⟩ := fetch_frame (poll s)
  obtain ⟨u', host, hpoll⟩ := poll_frame s
  exact ⟨u, by rw [hfetch, hpoll]⟩

/-- The poll and the fetch of a cycle keep the invariant, which does not speak of the UART and the host channel. -/
theorem inv_fetch_poll {s : State} (hs : s.Inv) : (fetch (poll s)).2.Inv := by
  obtain ⟨u, h⟩ := fetch_poll_frame s
  rw [h]
  exact ⟨hs.params, hs.csr, hs.zero, hs.canon, hs.cells, hs.fatal⟩

/-- The poll and the fetch of a cycle leave the halted mark, the CSR table and the configuration; no instruction runs
before the host channel is the polled one. -/
theorem fetch_poll_keeps (s : State) :
    (fetch (poll s)).2.halted = s.halted ∧ (fetch (poll s)).2.csr = s.csr ∧ (fetch (poll s)).2.params = s.params ∧
      (fetch (poll s)).2.host = (poll s).host := by
  obtain ⟨u, h⟩ := fetch_poll_frame s
  rw [h]
  exact ⟨rfl, rfl, rfl, rfl⟩

/-- No step changes the CSR table or the configuration, and what it does to the host channel its poll does. -/
theorem step_keeps {s t : State} (h : step s = .next t) :
    t.csr = s.csr ∧ t.params = s.params ∧ t.host = (poll s).host := by
  obtain ⟨-, hcsr, hparams, hhost⟩ := fetch_poll_keeps s
  obtain ⟨-, -, ⟨-, rfl⟩ | ⟨w, -, ⟨-, rfl⟩ | ⟨-, rfl⟩ | ⟨i, -, hexec⟩⟩⟩ := step_cases h
  · exact ⟨hcsr, hparams, hhost⟩
  · exact ⟨hcsr, hparams, hhost⟩
  · exact ⟨hcsr, hparams, hhost⟩
  · obtain ⟨hcsr', -, hhost', hparams'⟩ := (effect_of_exec hexec).keeps
    exact ⟨hcsr'.trans hcsr, hparams'.trans hparams, hhost'.trans hhost⟩

/-- Every step keeps the invariant: a failed fetch and an illegal word close the cycle, a fatal word halts, and an
instruction has its effect. -/
theorem step_inv {s t : State} (hs : s.Inv) (h : step s = .next t) : t.Inv := by
  have hs1 := inv_fetch_poll hs
  obtain ⟨hrun, -, hcases⟩ := step_cases h
  have hrun1 : (fetch (poll s)).2.halted = false := (fetch_poll_keeps s).1.trans hrun
  rcases hcases with ⟨-, rfl⟩ | ⟨w, -, ⟨-, rfl⟩ | ⟨-, rfl⟩ | ⟨i, -, hexec⟩⟩
  · exact inv_close hs1 hrun1 _ (by decide)
  · exact inv_halt hs1
  · exact inv_close hs1 hrun1 _ (by decide)
  · exact (effect_of_exec hexec).inv hs1 hrun1

/-- Settles O54: `step_inv` and the frame of a step. -/
theorem everyStepKeepsTheInvariant : Obligations.EveryStepKeepsTheInvariant := by
  unfold Obligations.EveryStepKeepsTheInvariant
  intro s t hs h
  obtain ⟨hcsr, hparams, -⟩ := step_keeps h
  exact ⟨step_inv hs h, hparams, hcsr⟩

end Sys2Proof.Machine

/-! ## What instructions change and leave (10_state.md R10 to R22, 46_branch.md R173, 60_exceptions.md R193) -/

namespace Sys2Proof.Machine

/-- Only the destination register changes, x[0] apart (10_state.md R10 to R12). -/
theorem Effect.regs {i : Instr} {s t : State} (h : Effect i s t) {r : Reg} (h0 : r ≠ 0)
    (hr : destination i ≠ some r) : t.readReg r = s.readReg r := by
  cases h with
  | result rd v p hd | loaded rd v u hu hd =>
    have hne : rd ≠ r := fun e => hr (e ▸ hd)
    simp [h0, hne]
  | flow | loadTrap => simp [h0]
  | store rs1 imm n bs =>
    obtain ⟨hregs, -⟩ := storeBytes_keeps bs (effectiveAddr s rs1 imm) s
    simp [h0, hregs]

/-- An instruction that is no store leaves every byte (10_state.md R17). -/
theorem Effect.mem_of_not_store {i : Instr} {s t : State} (h : Effect i s t) (hi : storeForm i = none) :
    t.mem = s.mem := by
  cases h with
  | result | flow | loaded | loadTrap => rfl
  | store rs1 imm n bs o hstore => exact nomatch hi.symm.trans hstore

/-- A store leaves every byte outside its width at its effective address (44_store.md R140). -/
theorem Effect.read_outside_store {i : Instr} {s t : State} (h : Effect i s t) {rs1 : Reg} {imm : BitVec 12} {n : Nat}
    (hi : storeForm i = some (rs1, imm, n)) {x : Nat}
    (hx : x < (effectiveAddr s rs1 imm).toNat ∨ (effectiveAddr s rs1 imm).toNat + n ≤ x) :
    Memory.read t.mem x = Memory.read s.mem x := by
  cases h with
  | result rd v p hd hstore | loaded rd v u hu hd hstore => exact nomatch hi.symm.trans hstore
  | flow p hstore | loadTrap k u hu hk hstore => exact nomatch hi.symm.trans hstore
  | store rs1' imm' n' bs o hstore hload hcontrol hlen hwrap =>
    obtain ⟨rfl, rfl, rfl⟩ : rs1 = rs1' ∧ imm = imm' ∧ n = n' := by simpa using hi.symm.trans hstore
    exact read_storeBytes_ne bs _ s x hwrap (by omega)

/-- No instruction changes a byte of ROM (20_memory.md R35). -/
theorem Effect.read_rom {i : Instr} {s t : State} (h : Effect i s t) {x : Nat} (hx : inRom s.params.map x) :
    Memory.read t.mem x = Memory.read s.mem x := by
  cases h with
  | result | flow | loaded | loadTrap => rfl
  | store rs1 imm n bs => exact read_storeBytes_rom bs _ s x hx

/-- An instruction that is no load and no store leaves the UART (10_state.md R18, R19). -/
theorem Effect.uart_of_no_access {i : Instr} {s t : State} (h : Effect i s t) (hi : isLoad i = false)
    (hi' : storeForm i = none) : t.uart = s.uart := by
  cases h with
  | result | flow => rfl
  | loaded rd v u hu hd hstore hload | loadTrap k u hu hk hstore hload => exact nomatch hi.symm.trans hload
  | store rs1 imm n bs o hstore => exact nomatch hi'.symm.trans hstore

/-- A load clears NEWDAT at most (60_exceptions.md R209). -/
theorem Effect.uart_of_load {i : Instr} {s t : State} (h : Effect i s t) (hi : isLoad i = true) :
    t.uart = s.uart ∨ t.uart = { s.uart with newdat := false } := by
  cases h with
  | loaded rd v u hu | loadTrap k u hu => exact hu
  | result | flow => exact .inl rfl
  | store rs1 imm n bs o hstore hload => exact nomatch hi.symm.trans hload

/-- A store sets data_out and clears TXDONE at most (60_exceptions.md R212). -/
theorem Effect.uart_of_store {i : Instr} {s t : State} (h : Effect i s t) (hi : storeForm i ≠ none) :
    t.uart = s.uart ∨ ∃ b, t.uart = { s.uart with dataOut := b, txdone := false } := by
  cases h with
  | store rs1 imm n bs => exact uart_storeBytes bs _ s
  | result | flow => exact .inl rfl
  | loaded rd v u hu hd hstore | loadTrap k u hu hk hstore => exact absurd hstore hi

/-- An instruction that is no branch or jump moves pc by 4 (46_branch.md R173). -/
theorem Effect.pc_of_no_transfer {i : Instr} {s t : State} (h : Effect i s t) (hi : transfersControl i = false) :
    t.pc = s.pc + 4#32 := by
  cases h with
  | result rd v p hd hstore hload hpc | flow p hstore hload hpc => exact hpc hi
  | loaded | loadTrap | store => rfl

/-- A branch or a jump reports no trap (46_branch.md R173). -/
theorem Effect.report_of_transfer {i : Instr} {s t : State} (h : Effect i s t) (hi : transfersControl i = true) :
    t.report = none := by
  cases h with
  | result | flow | loaded => rfl
  | loadTrap k u hu hk hstore hload hcontrol => exact nomatch hi.symm.trans hcontrol
  | store rs1 imm n bs o hstore hload hcontrol => exact nomatch hi.symm.trans hcontrol

/-- Settles O45: every instruction ends by closing the cycle. -/
theorem noInstructionStops : Obligations.NoInstructionStops := by
  unfold Obligations.NoInstructionStops
  intro i s
  obtain ⟨u, p, o, h⟩ := exec_closes i s
  exact ⟨u.close p o, h⟩

/-- Settles O46: the report of an instruction's effect. -/
theorem onlyListedTrapsAreReported : Obligations.OnlyListedTrapsAreReported := by
  unfold Obligations.OnlyListedTrapsAreReported
  intro i s t k h hk
  exact (effect_of_exec h).report hk

/-- Settles O47: the registers of an instruction's effect, and its frame. -/
theorem onlyTheDestinationChanges : Obligations.OnlyTheDestinationChanges := by
  unfold Obligations.OnlyTheDestinationChanges
  intro i s t h
  have effect := effect_of_exec h
  exact ⟨fun r h0 hr => effect.regs h0 hr, effect.zero, effect.keeps⟩

/-- Settles O48: the memory of an instruction's effect, for a store and for any other instruction. -/
theorem onlyStoresChangeMemory : Obligations.OnlyStoresChangeMemory := by
  unfold Obligations.OnlyStoresChangeMemory
  intro i s t h
  have effect := effect_of_exec h
  exact ⟨fun hi x => by rw [effect.mem_of_not_store hi], fun rs1 imm n hi x hx => effect.read_outside_store hi hx⟩

/-- Settles O49: the UART of an instruction's effect, by the kind of access. -/
theorem onlyMemoryAccessesChangeTheUart : Obligations.OnlyMemoryAccessesChangeTheUart := by
  unfold Obligations.OnlyMemoryAccessesChangeTheUart
  intro i s t h
  have effect := effect_of_exec h
  exact ⟨effect.uart_of_no_access, effect.uart_of_load, effect.uart_of_store⟩

/-- Settles O50: the pc and the report of an instruction's effect. -/
theorem onlyBranchesAndJumpsMovePc : Obligations.OnlyBranchesAndJumpsMovePc := by
  unfold Obligations.OnlyBranchesAndJumpsMovePc
  intro i s t h
  have effect := effect_of_exec h
  exact ⟨effect.pc_of_no_transfer, effect.report_of_transfer⟩

/-- Settles O52: poll, fetch and the outcomes of a word that is no instruction leave memory, and an instruction's effect
leaves ROM. -/
theorem noStepChangesRom : Obligations.NoStepChangesRom := by
  unfold Obligations.NoStepChangesRom
  intro s t _ h x hx
  obtain ⟨u, hs1⟩ := fetch_poll_frame s
  have hmem : (fetch (poll s)).2.mem = s.mem := by rw [hs1]
  have hparams : (fetch (poll s)).2.params = s.params := by rw [hs1]
  obtain ⟨-, -, ⟨-, rfl⟩ | ⟨w, -, ⟨-, rfl⟩ | ⟨-, rfl⟩ | ⟨i, -, hexec⟩⟩⟩ := step_cases h
  · simp [hmem]
  · simp [hmem]
  · simp [hmem]
  · rw [(effect_of_exec hexec).read_rom (hparams ▸ hx), hmem]

end Sys2Proof.Machine

/-! ## The launch (70_reset_and_hazards.md R240 to R245) -/

namespace Sys2Proof.Machine

/-- A cell after a list of bytes is written lies in the list's range or is an old one. -/
theorem mem_writeList {m : List Host.Cell} {a : Nat} {bs : List Byte} {c : Host.Cell}
    (h : c ∈ Memory.writeList m a bs) : (a ≤ c.1 ∧ c.1 < a + bs.length) ∨ c ∈ m := by
  induction bs generalizing m a with
  | nil => exact .inr h
  | cons b bs ih =>
    rw [List.length_cons]
    rcases ih h with h | h
    · exact .inl (by omega)
    · refine (Memory.mem_write h).imp_left ?_
      rintro rfl
      simp only
      omega

/-- A launch at allowed parameters and with an allowed CSR table has the invariant: its image is cut at the end of
ROM. -/
theorem inv_launch {l : Launch} (hp : l.params.wf = true) (hc : Config.csrTableWf l.csrTable = true) :
    (State.launch l).Inv where
  params := hp
  csr := hc
  zero := by simp [State.launch, State.readReg]
  canon := Memory.wf_writeList _ _ rfl
  cells := by
    obtain ⟨hrange, -, -⟩ := (AddressMap_wf_iff _).mp (Params_wf_map hp)
    simp only [cellsStored, List.all_eq_true, decide_eq_true_eq]
    intro c hmem
    have hin := (mem_writeList hmem).resolve_right List.not_mem_nil
    rw [List.length_take, romSize] at hin
    exact .inl (show inRom l.params.map c.1 by omega)
  fatal := by simp [State.launch]

/-- The state after reset is a launch (70_reset_and_hazards.md R240). -/
theorem reset_eq_launch : State.reset = State.launch
    { params := Config.params, csrTable := Config.csrTable, romImage := [], initRegs := Vector.replicate 32 0#32,
      waiting := [], arrivals := [], later := .repeats [] } := by
  decide

/-- The listed CSR table is one that CSR_TABLE may be (60_exceptions.md R205). -/
theorem csrTable_wf : Config.csrTableWf Config.csrTable = true := by decide

/-- Settles O53: `inv_launch`, of which reset is a case. -/
theorem launchHasTheInvariant : Obligations.LaunchHasTheInvariant := by
  unfold Obligations.LaunchHasTheInvariant
  refine ⟨?_, fun l hp hc => inv_launch hp hc⟩
  rw [reset_eq_launch]
  exact inv_launch reference_wf csrTable_wf

/-- ROM after a launch holds the image from ROM_BASE on, and 0 beyond its end (10_state.md R16). -/
theorem read_launch_rom (l : Launch) {k : Nat} (h : inRom l.params.map (l.params.map.romBase + k)) :
    Memory.read (State.launch l).mem (l.params.map.romBase + k) = l.romImage.getD k 0x00#8 := by
  have hk : k < romSize l.params.map := by rw [romSize]; omega
  rw [State.launch, Memory.read_writeList rfl, List.length_take, Nat.add_sub_cancel_left, Memory.read_nil]
  by_cases hlen : k < l.romImage.length
  · rw [if_pos (by omega), List.getD_eq_getElem?_getD, List.getElem?_take_of_lt hk, List.getD_eq_getElem?_getD]
  · rw [if_neg (by omega), List.getD_eq_default _ _ (by omega)]

/-- RAM after a launch reads 0 (70_reset_and_hazards.md R243): the image lies in ROM, and the regions do not overlap. -/
theorem read_launch_ram {l : Launch} (hp : l.params.wf = true) {x : Nat} (h : inRam l.params.map x) :
    Memory.read (State.launch l).mem x = 0x00#8 := by
  obtain ⟨hrange, hdisjoint, -⟩ := (AddressMap_wf_iff _).mp (Params_wf_map hp)
  rw [State.launch, Memory.read_writeList rfl, List.length_take, if_neg, Memory.read_nil]
  rw [romSize]
  omega

/-- The registers after a launch are as given, with x[0] forced to 0 (70_reset_and_hazards.md R242). -/
theorem readReg_launch (l : Launch) (r : Reg) :
    (State.launch l).readReg r = if r = 0 then 0#32 else l.initRegs[r] :=
  readReg_forceZero { State.launch l with regs := l.initRegs } r

/-- Settles O55: the fields of a launch are what it is given, its registers and memory are the lemmas above, and reset
is a launch. -/
theorem stateAfterLaunch : Obligations.StateAfterLaunch := by
  unfold Obligations.StateAfterLaunch
  refine ⟨fun l hp => ?_, reset_eq_launch, rfl⟩
  refine ⟨rfl, rfl, by rw [readReg_launch, if_pos rfl], fun r hr => by rw [readReg_launch, if_neg hr],
    fun k => read_launch_rom l, fun x => read_launch_ram hp, rfl, rfl, rfl, rfl, rfl, rfl, rfl⟩

end Sys2Proof.Machine

/-! ## SYSTEM (48_system.md R180, R181) -/

namespace Sys2Proof.Machine

/-- The opcode alone selects the row: the 25 upper bits are no operands (48_system.md R180). -/
theorem rowMeans_system : RowMeans 0x00000073#32 0x0000007F#32 (fun _ => .system) := by
  intro p w h
  obtain ⟨hlow, hgroup⟩ := fields_of_opcode_mask h
  exact decode_system p hlow hgroup

/-- Settles O26: the opcode alone selects the row, and the instruction only closes its cycle. -/
theorem systemIsANoOp : Obligations.SystemIsANoOp := by
  unfold Obligations.SystemIsANoOp
  exact ⟨rowMeans_system, fun s => ⟨s.retire, rfl, closes_retire s⟩⟩

end Sys2Proof.Machine

/-! ## OP where funct7 is ignored (45_op.md R150, R153 to R156, R159, R160) -/

namespace Sys2Proof.Machine

/-- A row of the OP group whose funct3 alone selects it means, at the default decode parameters, what its decoder reads
from that funct3 (45_op.md R150). -/
theorem rowMeansByDefault_op {pattern : Word} {i : Word → Instr} (f3 : BitVec 3)
    (h0 : pattern.extractLsb' 0 2 = 0b11#2) (hg : opcodeGroup pattern = groupOp) (h3 : funct3 pattern = f3)
    (hi : ∀ w, funct3 w = f3 → decodeOp false w = .ok (i w)) : RowMeansByDefault pattern 0x0000707F#32 i := by
  intro w h
  obtain ⟨hlow, hgroup, hfunct3⟩ := fields_of_opcode_funct3_mask h
  calc decodeWord w = decodeOp false w := decode_op Config.decodeParams (hlow.trans h0) (hgroup.trans hg)
    _ = .ok (i w) := hi w (hfunct3.trans h3)

theorem rowMeansByDefault_sll :
    RowMeansByDefault 0x00001033#32 0x0000707F#32 (fun w => .sll (rdField w) (rs1Field w) (rs2Field w)) :=
  rowMeansByDefault_op 1#3 (by decide) (by decide) (by decide) fun w h3 => by simp [decodeOp, h3]

theorem rowMeansByDefault_slt :
    RowMeansByDefault 0x00002033#32 0x0000707F#32 (fun w => .slt (rdField w) (rs1Field w) (rs2Field w)) :=
  rowMeansByDefault_op 2#3 (by decide) (by decide) (by decide) fun w h3 => by simp [decodeOp, h3]

theorem rowMeansByDefault_sltu :
    RowMeansByDefault 0x00003033#32 0x0000707F#32 (fun w => .sltu (rdField w) (rs1Field w) (rs2Field w)) :=
  rowMeansByDefault_op 3#3 (by decide) (by decide) (by decide) fun w h3 => by simp [decodeOp, h3]

theorem rowMeansByDefault_xor :
    RowMeansByDefault 0x00004033#32 0x0000707F#32 (fun w => .xor (rdField w) (rs1Field w) (rs2Field w)) :=
  rowMeansByDefault_op 4#3 (by decide) (by decide) (by decide) fun w h3 => by simp [decodeOp, h3]

theorem rowMeansByDefault_or :
    RowMeansByDefault 0x00006033#32 0x0000707F#32 (fun w => .or (rdField w) (rs1Field w) (rs2Field w)) :=
  rowMeansByDefault_op 6#3 (by decide) (by decide) (by decide) fun w h3 => by simp [decodeOp, h3]

theorem rowMeansByDefault_and :
    RowMeansByDefault 0x00007033#32 0x0000707F#32 (fun w => .and (rdField w) (rs1Field w) (rs2Field w)) :=
  rowMeansByDefault_op 7#3 (by decide) (by decide) (by decide) fun w h3 => by simp [decodeOp, h3]

theorem shiftResult_sll (rs2 : Reg) :
    ShiftResult (fun rd rs1 => .sll rd rs1 rs2) (fun s => (s.readReg rs2).toNat % 32) leftShiftBit :=
  shiftResult_of_shiftAmount (shift := fun v n => v <<< n) (fun _ _ _ _ => rfl)
    getLsbD_shiftLeft_eq_leftShiftBit rs2

theorem regRegResult_slt : RegRegResult .slt (fun x y => if x.toInt < y.toInt then 1#32 else 0#32) :=
  regRegResult_of_writeResult (f := fun x y => truthWord (lessSigned x y)) (fun _ _ _ _ => rfl) truthWord_lessSigned

theorem regRegResult_sltu : RegRegResult .sltu (fun x y => if x.toNat < y.toNat then 1#32 else 0#32) :=
  regRegResult_of_writeResult (f := fun x y => truthWord (lessUnsigned x y)) (fun _ _ _ _ => rfl)
    truthWord_lessUnsigned

theorem regRegResult_xor : RegRegResult .xor (fun x y => x ^^^ y) :=
  regRegResult_of_writeResult (f := fun x y => x ^^^ y) (fun _ _ _ _ => rfl) fun _ _ => rfl

theorem regRegResult_or : RegRegResult .or (fun x y => x ||| y) :=
  regRegResult_of_writeResult (f := fun x y => x ||| y) (fun _ _ _ _ => rfl) fun _ _ => rfl

theorem regRegResult_and : RegRegResult .and (fun x y => x &&& y) :=
  regRegResult_of_writeResult (f := fun x y => x &&& y) (fun _ _ _ _ => rfl) fun _ _ => rfl

/-- Settles O21: at the default parameters funct3 alone selects each row, and each instruction writes its operation on
x[rs1] and x[rs2] to rd. -/
theorem opResultsWhereFunct7IsIgnored : Obligations.OpResultsWhereFunct7IsIgnored := by
  unfold Obligations.OpResultsWhereFunct7IsIgnored
  exact ⟨rowMeansByDefault_sll, rowMeansByDefault_slt, rowMeansByDefault_sltu, rowMeansByDefault_xor,
    rowMeansByDefault_or, rowMeansByDefault_and, shiftResult_sll, regRegResult_slt, regRegResult_sltu,
    regRegResult_xor, regRegResult_or, regRegResult_and⟩

end Sys2Proof.Machine

/-! ## Wrapping addresses and JALR (20_memory.md R43, 47_jump.md R175, R176) -/

namespace Sys2Proof.Machine

/-- The opcode alone selects the row at the default decode parameters (47_jump.md R175). -/
theorem rowMeansByDefault_jalr :
    RowMeansByDefault 0x00000067#32 0x0000007F#32 (fun w => .jalr (rdField w) (rs1Field w) (immI w)) := by
  intro w h
  obtain ⟨hlow, hgroup⟩ := fields_of_opcode_mask h
  calc decodeWord w = decodeJalr false w := decode_jalr Config.decodeParams hlow hgroup
    _ = .ok (.jalr (rdField w) (rs1Field w) (immI w)) := by simp [decodeJalr]

/-- The sum with an offset sign-extended from any width up to 32, as a number, is the exact sum modulo 2^32. -/
theorem toNat_add_signExtend {n : Nat} (hn : n ≤ 32) (x : Word) (o : BitVec n) :
    ((x + o.signExtend 32).toNat : Int) = ((x.toNat : Int) + o.toInt) % 2 ^ 32 := by
  rw [add_signExtend_eq_ofInt hn, BitVec.toNat_ofInt, Int.toNat_of_nonneg (Int.emod_nonneg _ (by decide))]
  rfl

/-- The mask of JALR's target clears bit 0 and no other (47_jump.md R176). -/
theorem getLsbD_jalrTarget (s : State) (rs1 : Reg) (imm : BitVec 12) {k : Nat} (hk : k < 32) :
    (jalrTarget s rs1 imm).getLsbD k = (decide (k ≠ 0) && (effectiveAddr s rs1 imm).getLsbD k) := by
  have hmask : (0xFFFFFFFE#32).getLsbD k = decide (k ≠ 0) := by
    interval_cases k <;> rfl
  rw [jalrTarget, BitVec.getLsbD_and, hmask, Bool.and_comm]
  rfl

/-- Clearing bit 0 of a word is rounding its number down to an even one. -/
theorem toNat_and_even_mask (x : Word) : (x &&& 0xFFFFFFFE#32).toNat = 2 * (x.toNat / 2) := by
  have h : x &&& 0xFFFFFFFE#32 = x >>> 1 <<< 1 := by
    rw [BitVec.shiftLeft_ushiftRight]
    rfl
  rw [h, BitVec.toNat_shiftLeft, BitVec.toNat_ushiftRight, Nat.shiftLeft_eq, Nat.shiftRight_eq_div_pow]
  omega

/-- JALR's target is the exact sum of the base and the offset with bit 0 cleared, modulo 2^32 (47_jump.md R176). -/
theorem jalrTarget_eq_ofInt (s : State) (rs1 : Reg) (imm : BitVec 12) :
    jalrTarget s rs1 imm = BitVec.ofInt 32 (2 * (((s.readReg rs1).toNat + imm.toInt) / 2)) := by
  have hsum : ((effectiveAddr s rs1 imm).toNat : Int) = ((s.readReg rs1).toNat + imm.toInt) % 2 ^ 32 :=
    toNat_add_signExtend (by decide) _ imm
  apply BitVec.eq_of_toNat_eq
  rw [show jalrTarget s rs1 imm = effectiveAddr s rs1 imm &&& 0xFFFFFFFE#32 from rfl, toNat_and_even_mask,
    BitVec.toNat_ofInt]
  omega

/-- JALR links the address after its own; its target is computed from the registers before the link is written. -/
theorem exec_jalr_spec (rd rs1 : Reg) (imm : BitVec 12) (s : State) :
    ∃ t, exec (.jalr rd rs1 imm) s = .next t ∧
      RegResult s t rd (s.pc + 4#32) (BitVec.ofInt 32 (2 * (((s.readReg rs1).toNat + imm.toInt) / 2))) := by
  rw [← jalrTarget_eq_ofInt]
  exact jumpAndLink_spec rd (jalrTarget s rs1 imm) s

/-- Settles O25: the opcode alone selects the row, and the instruction is `jumpAndLink` to `jalrTarget`, the exact sum
with bit 0 cleared. -/
theorem jalrLinksAndJumps : Obligations.JalrLinksAndJumps := by
  unfold Obligations.JalrLinksAndJumps
  exact ⟨rowMeansByDefault_jalr, exec_jalr_spec⟩

/-- Settles O27: each address is a word plus a sign-extended offset. -/
theorem addressesWrapModulo : Obligations.AddressesWrapModulo := by
  unfold Obligations.AddressesWrapModulo
  intro s rs1 imm o oj
  exact ⟨toNat_add_signExtend (by decide) _ imm, toNat_add_signExtend (by decide) _ o,
    toNat_add_signExtend (by decide) _ oj, fun k hk => getLsbD_jalrTarget s rs1 imm hk⟩

end Sys2Proof.Machine

/-! ## Decoding what the encoder writes (30_encoding.md R62 to R70) -/

namespace Sys2Proof.Machine

section Encoded

variable (p : DecodeParams) (f7 : BitVec 7) (imm : BitVec 12) (sh : BitVec 5) (f : BitVec 20)
variable (rd rs1 rs2 : Reg) (f3 : BitVec 3)

theorem decode_encodeI_load :
    decodeWordWith p (encodeI imm rs1 f3 rd groupLoad) = decodeLoad (encodeI imm rs1 f3 rd groupLoad) := by
  obtain ⟨hlow, hgroup, -⟩ := encodeI_fields imm rd rs1 f3 groupLoad
  exact decode_load p hlow hgroup

theorem decode_encodeI_opImm :
    decodeWordWith p (encodeI imm rs1 f3 rd groupOpImm) = decodeOpImm (encodeI imm rs1 f3 rd groupOpImm) := by
  obtain ⟨hlow, hgroup, -⟩ := encodeI_fields imm rd rs1 f3 groupOpImm
  exact decode_opImm p hlow hgroup

theorem decode_encodeI_jalr :
    decodeWordWith p (encodeI imm rs1 f3 rd groupJalr) =
      decodeJalr p.jalrFunct3Strict (encodeI imm rs1 f3 rd groupJalr) := by
  obtain ⟨hlow, hgroup, -⟩ := encodeI_fields imm rd rs1 f3 groupJalr
  exact decode_jalr p hlow hgroup

theorem decode_encodeShift :
    decodeWordWith p (encodeShift f7 sh rs1 f3 rd) = decodeOpImm (encodeShift f7 sh rs1 f3 rd) := by
  obtain ⟨hlow, hgroup, -⟩ := encodeShift_fields f7 sh rd rs1 f3
  exact decode_opImm p hlow hgroup

theorem decode_encodeS :
    decodeWordWith p (encodeS imm rs2 rs1 f3) = decodeStore (encodeS imm rs2 rs1 f3) := by
  obtain ⟨hlow, hgroup, -⟩ := encodeS_fields imm rs1 rs2 f3
  exact decode_store p hlow hgroup

theorem decode_encodeR_op :
    decodeWordWith p (encodeR f7 rs2 rs1 f3 rd groupOp) =
      decodeOp p.opFunct7Strict (encodeR f7 rs2 rs1 f3 rd groupOp) := by
  obtain ⟨hlow, hgroup, -⟩ := encodeR_fields f7 rd rs1 rs2 f3 groupOp
  exact decode_op p hlow hgroup

theorem decode_encodeB {o : BitVec 13} (h : o.getLsbD 0 = false) :
    decodeWordWith p (encodeB o rs2 rs1 f3) = decodeBranch (encodeB o rs2 rs1 f3) := by
  obtain ⟨hlow, hgroup, -⟩ := encodeB_fields o rs1 rs2 f3 h
  exact decode_branch p hlow hgroup

theorem decode_encodeU_lui : decodeWordWith p (encodeU f rd groupLui) = .ok (.lui rd f) := by
  obtain ⟨hlow, hgroup, hrd, hfield⟩ := encodeU_fields f rd groupLui
  rw [decode_lui p hlow hgroup, hrd, hfield]

theorem decode_encodeU_auipc : decodeWordWith p (encodeU f rd groupAuipc) = .ok (.auipc rd f) := by
  obtain ⟨hlow, hgroup, hrd, hfield⟩ := encodeU_fields f rd groupAuipc
  rw [decode_auipc p hlow hgroup, hrd, hfield]

theorem decode_encodeJ {o : BitVec 21} (h : o.getLsbD 0 = false) :
    decodeWordWith p (encodeJ o rd) = .ok (.jal rd o) := by
  obtain ⟨hlow, hgroup, hrd, himm⟩ := encodeJ_fields o rd h
  rw [decode_jal p hlow hgroup, hrd, himm]

end Encoded

/-- Decoding the word of a well-formed instruction gives it back, at every setting of the decode parameters: the word
carries the group its format writes, and the group's decoder reads the operands from the fields they were written to.
The fields a strict setting checks are written as 0. -/
theorem decode_encode (p : DecodeParams) (i : Instr) (h : i.wellFormed = true) :
    decodeWordWith p (encode i) = .ok i := by
  cases i
  case lb | lh | lw | lbu | lhu => simp [encode, decode_encodeI_load, decodeLoad, encodeI_fields]
  case addi | slti | sltiu | xori | ori | andi => simp [encode, decode_encodeI_opImm, decodeOpImm, encodeI_fields]
  case slli | srli | srai => simp [encode, decode_encodeShift, decodeOpImm, encodeShift_fields]
  case auipc rd f => exact decode_encodeU_auipc p f rd
  case lui rd f => exact decode_encodeU_lui p f rd
  case sb | sh | sw => simp [encode, decode_encodeS, decodeStore, encodeS_fields]
  case add | sub | sll | slt | sltu | xor | srl | sra | or | and =>
    simp [encode, decode_encodeR_op, decodeOp, encodeR_fields]
  case beq | bne | blt | bge | bltu | bgeu =>
    rw [Instr.wellFormed, Bool.not_eq_true'] at h
    simp [encode, decode_encodeB _ _ _ _ h, decodeBranch, encodeB_fields _ _ _ _ h]
  case jalr => simp [encode, decode_encodeI_jalr, decodeJalr, encodeI_fields]
  case jal rd o =>
    rw [Instr.wellFormed, Bool.not_eq_true'] at h
    exact decode_encodeJ p rd h
  case system => exact rowMeans_system p _ rfl

/-- Settles O1: `decode_encode`, and the byte order undone by the byte decoder. -/
theorem decodeOfEncodeIsTheInstruction : Obligations.DecodeOfEncodeIsTheInstruction := by
  unfold Obligations.DecodeOfEncodeIsTheInstruction
  intro p i rest h
  have hword := decode_encode p i h
  exact ⟨hword, by rw [decodeBytesWith_leBytes, hword]⟩

/-- Settles O8: ten words, each evaluated by the decoder. -/
theorem specWordsDecodeAsWritten : Obligations.SpecWordsDecodeAsWritten := by
  unfold Obligations.SpecWordsDecodeAsWritten
  exact ⟨rfl, rfl, rfl, rfl, rfl, rfl, rfl, rfl, rfl, rfl⟩

end Sys2Proof.Machine

/-! ## The immediates (30_encoding.md R63 to R68) -/

namespace Sys2Proof.Machine

/-- A bit vector is known by its number. -/
theorem eq_ofNat_of_toNat {n k : Nat} {x : BitVec n} (h : x.toNat = k) : x = BitVec.ofNat n k := by
  rw [← h, BitVec.ofNat_toNat, BitVec.setWidth_eq]

theorem toNat_immI (w : Word) : (immI w).toNat = bitRange w 31 20 := toNat_extractLsb'_eq_bitRange w 31 20

theorem toNat_immS (w : Word) : (immS w).toNat = bitRange w 31 25 <<< 5 ||| bitRange w 11 7 := by
  rw [immS, BitVec.toNat_append, ← toNat_extractLsb'_eq_bitRange, ← toNat_extractLsb'_eq_bitRange]

theorem toNat_immB (w : Word) : (immB w).toNat =
    bitRange w 31 31 <<< 12 ||| bitRange w 7 7 <<< 11 ||| bitRange w 30 25 <<< 5 ||| bitRange w 11 8 <<< 1 := by
  rw [immB, BitVec.toNat_append, BitVec.toNat_append, BitVec.toNat_append, BitVec.toNat_append]
  simp only [Nat.shiftLeft_or_distrib, ← Nat.shiftLeft_add, Nat.reduceAdd, ← toNat_extractLsb'_eq_bitRange,
    BitVec.toNat_ofNat, Nat.zero_mod, Nat.or_zero, Nat.reduceSub]

theorem toNat_immJ (w : Word) : (immJ w).toNat =
    bitRange w 31 31 <<< 20 ||| bitRange w 19 12 <<< 12 ||| bitRange w 20 20 <<< 11 ||| bitRange w 30 21 <<< 1 := by
  rw [immJ, BitVec.toNat_append, BitVec.toNat_append, BitVec.toNat_append, BitVec.toNat_append]
  simp only [Nat.shiftLeft_or_distrib, ← Nat.shiftLeft_add, Nat.reduceAdd, ← toNat_extractLsb'_eq_bitRange,
    BitVec.toNat_ofNat, Nat.zero_mod, Nat.or_zero, Nat.reduceSub]

theorem toNat_fieldU (w : Word) : (fieldU w).toNat = bitRange w 31 12 := toNat_extractLsb'_eq_bitRange w 31 12

theorem toNat_shamtField (w : Word) : (shamtField w).toNat = bitRange w 24 20 := toNat_extractLsb'_eq_bitRange w 24 20

/-- The signed value of a 12-bit immediate lies in the range its rule gives. -/
theorem sext12_range (imm : BitVec 12) : -2048 ≤ (sext12 imm).toInt ∧ (sext12 imm).toInt ≤ 2047 := by
  have hlo := BitVec.le_toInt imm
  have hhi := BitVec.toInt_lt (x := imm)
  rw [toInt_sext12]
  omega

/-- An assembled offset ends in a 0 bit (30_encoding.md R65, R67). -/
theorem getLsbD_immB_zero (w : Word) : (immB w).getLsbD 0 = false := by
  rw [immB, BitVec.getLsbD_append, if_pos Nat.one_pos]
  rfl

theorem getLsbD_immJ_zero (w : Word) : (immJ w).getLsbD 0 = false := by
  rw [immJ, BitVec.getLsbD_append, if_pos Nat.one_pos]
  rfl

/-- A bit vector whose bit 0 is 0 has an even signed value. -/
theorem toInt_even {n : Nat} (hn : 0 < n) {o : BitVec n} (h : o.getLsbD 0 = false) : o.toInt % 2 = 0 := by
  obtain ⟨m, rfl⟩ : ∃ m, n = m + 1 := ⟨n - 1, by omega⟩
  have heven : o.toNat % 2 = 0 := by
    simpa [BitVec.getLsbD, Nat.testBit_zero] using h
  rw [BitVec.toInt_eq_toNat_cond]
  split <;> omega

/-- The signed value of a B offset is even and lies in the range its rule gives. -/
theorem sext13_immB_range (w : Word) :
    (sext13 (immB w)).toInt % 2 = 0 ∧ -4096 ≤ (sext13 (immB w)).toInt ∧ (sext13 (immB w)).toInt ≤ 4094 := by
  have heven := toInt_even (by decide) (getLsbD_immB_zero w)
  have hlo := BitVec.le_toInt (immB w)
  have hhi := BitVec.toInt_lt (x := immB w)
  rw [sext13, BitVec.toInt_signExtend_of_le (by decide)]
  omega

/-- The signed value of a J offset is even and lies in the range its rule gives. -/
theorem sext21_immJ_range (w : Word) :
    (sext21 (immJ w)).toInt % 2 = 0 ∧ -1048576 ≤ (sext21 (immJ w)).toInt ∧ (sext21 (immJ w)).toInt ≤ 1048574 := by
  have heven := toInt_even (by decide) (getLsbD_immJ_zero w)
  have hlo := BitVec.le_toInt (immJ w)
  have hhi := BitVec.toInt_lt (x := immJ w)
  rw [sext21, BitVec.toInt_signExtend_of_le (by decide)]
  omega

/-- Settles O4: each immediate is known by its number, the listed assembly, and its range is that of its width and its
evenness. -/
theorem immediatesAreAssembledAsListed : Obligations.ImmediatesAreAssembledAsListed := by
  unfold Obligations.ImmediatesAreAssembledAsListed
  intro w
  exact ⟨congrArg sext12 (eq_ofNat_of_toNat (toNat_immI w)), sext12_range _,
    congrArg sext12 (eq_ofNat_of_toNat (toNat_immS w)), sext12_range _,
    congrArg sext13 (eq_ofNat_of_toNat (toNat_immB w)), sext13_immB_range w,
    ⟨toNat_fieldU w, upperImm_fieldU w⟩,
    congrArg sext21 (eq_ofNat_of_toNat (toNat_immJ w)), sext21_immJ_range w, toNat_shamtField w⟩

end Sys2Proof.Machine

/-! ## The decoder's answers, group by group (30_encoding.md R70 to R77) -/

namespace Sys2Proof.Machine

/-- The groups the dispatch table lists, each with its decoder's answer (30_encoding.md R69, R70). -/
inductive ListedGroup (p : DecodeParams) (w : Word) : Prop
  | load (h : opcodeGroup w = groupLoad) (hd : decodeWordWith p w = decodeLoad w)
  | opImm (h : opcodeGroup w = groupOpImm) (hd : decodeWordWith p w = decodeOpImm w)
  | auipc (h : opcodeGroup w = groupAuipc) (hd : decodeWordWith p w = .ok (.auipc (rdField w) (fieldU w)))
  | store (h : opcodeGroup w = groupStore) (hd : decodeWordWith p w = decodeStore w)
  | op (h : opcodeGroup w = groupOp) (hd : decodeWordWith p w = decodeOp p.opFunct7Strict w)
  | lui (h : opcodeGroup w = groupLui) (hd : decodeWordWith p w = .ok (.lui (rdField w) (fieldU w)))
  | branch (h : opcodeGroup w = groupBranch) (hd : decodeWordWith p w = decodeBranch w)
  | jalr (h : opcodeGroup w = groupJalr) (hd : decodeWordWith p w = decodeJalr p.jalrFunct3Strict w)
  | jal (h : opcodeGroup w = groupJal) (hd : decodeWordWith p w = .ok (.jal (rdField w) (immJ w)))
  | system (h : opcodeGroup w = groupSystem) (hd : decodeWordWith p w = .ok .system)

/-- The groups of accepted words that the dispatch table does not list (30_encoding.md R72). -/
def unlistedGroups : List (BitVec 5) :=
  [0x01#5, 0x02#5, 0x03#5, 0x06#5, 0x09#5, 0x0A#5, 0x0B#5, 0x0E#5, 0x10#5, 0x11#5, 0x12#5, 0x13#5, 0x14#5, 0x15#5,
    0x16#5, 0x1A#5, 0x1D#5, 0x1E#5]

/-- An accepted word is of a listed group or of an unlisted one: its group does not end in 0b111. -/
theorem group_cases_of_accepted (p : DecodeParams) {w : Word} (h : accepted w = true) :
    ListedGroup p w ∨
      opcodeGroup w ∈ unlistedGroups ∧ decodeWordWith p w = .error .unlistedGroup := by
  obtain ⟨hlow, hne⟩ := (accepted_iff w).mp h
  rw [← extract_opcodeGroup] at hne
  by_cases hload : opcodeGroup w = groupLoad
  · exact .inl (.load hload (decode_load p hlow hload))
  by_cases hopImm : opcodeGroup w = groupOpImm
  · exact .inl (.opImm hopImm (decode_opImm p hlow hopImm))
  by_cases hauipc : opcodeGroup w = groupAuipc
  · exact .inl (.auipc hauipc (decode_auipc p hlow hauipc))
  by_cases hstore : opcodeGroup w = groupStore
  · exact .inl (.store hstore (decode_store p hlow hstore))
  by_cases hop : opcodeGroup w = groupOp
  · exact .inl (.op hop (decode_op p hlow hop))
  by_cases hlui : opcodeGroup w = groupLui
  · exact .inl (.lui hlui (decode_lui p hlow hlui))
  by_cases hbranch : opcodeGroup w = groupBranch
  · exact .inl (.branch hbranch (decode_branch p hlow hbranch))
  by_cases hjalr : opcodeGroup w = groupJalr
  · exact .inl (.jalr hjalr (decode_jalr p hlow hjalr))
  by_cases hjal : opcodeGroup w = groupJal
  · exact .inl (.jal hjal (decode_jal p hlow hjal))
  by_cases hsystem : opcodeGroup w = groupSystem
  · exact .inl (.system hsystem (decode_system p hlow hsystem))
  refine .inr ⟨?_, by simp [decodeWordWith, h, hload, hopImm, hauipc, hstore, hop, hlui, hbranch, hjalr, hjal, hsystem]⟩
  have rest : ∀ g : BitVec 5, g.extractLsb' 0 3 ≠ 0b111#3 → g ≠ groupLoad → g ≠ groupOpImm → g ≠ groupAuipc →
      g ≠ groupStore → g ≠ groupOp → g ≠ groupLui → g ≠ groupBranch → g ≠ groupJalr → g ≠ groupJal →
      g ≠ groupSystem → g ∈ unlistedGroups := by decide
  exact rest _ hne hload hopImm hauipc hstore hop hlui hbranch hjalr hjal hsystem

/-- A word that decodes to an instruction is accepted. -/
theorem accepted_of_decode_ok {p : DecodeParams} {w : Word} {i : Instr} (h : decodeWordWith p w = .ok i) :
    accepted w = true := by
  rcases decodeWordWith_cases p w with ⟨-, hfatal⟩ | ⟨ha, -⟩
  · exact nomatch h.symm.trans hfatal
  · exact ha

/-- A word that decodes to an instruction is of a listed group. -/
theorem listedGroup_of_decode_ok {p : DecodeParams} {w : Word} {i : Instr} (h : decodeWordWith p w = .ok i) :
    ListedGroup p w :=
  (group_cases_of_accepted p (accepted_of_decode_ok h)).resolve_right fun hu => by simp [h] at hu

/-! ### Well-formedness of what the decoder gives -/

theorem wellFormed_of_decodeLoad {w : Word} {i : Instr} (h : decodeLoad w = .ok i) : i.wellFormed = true := by
  unfold decodeLoad at h
  split_ifs at h <;> cases h <;> rfl

theorem wellFormed_of_decodeOpImm {w : Word} {i : Instr} (h : decodeOpImm w = .ok i) : i.wellFormed = true := by
  unfold decodeOpImm at h
  split_ifs at h <;> cases h <;> rfl

theorem wellFormed_of_decodeStore {w : Word} {i : Instr} (h : decodeStore w = .ok i) : i.wellFormed = true := by
  unfold decodeStore at h
  split_ifs at h <;> cases h <;> rfl

theorem wellFormed_of_decodeOp {b : Bool} {w : Word} {i : Instr} (h : decodeOp b w = .ok i) : i.wellFormed = true := by
  unfold decodeOp at h
  split_ifs at h <;> cases h <;> rfl

theorem wellFormed_of_decodeJalr {b : Bool} {w : Word} {i : Instr} (h : decodeJalr b w = .ok i) :
    i.wellFormed = true := by
  unfold decodeJalr at h
  split_ifs at h
  cases h
  rfl

theorem wellFormed_of_decodeBranch {w : Word} {i : Instr} (h : decodeBranch w = .ok i) : i.wellFormed = true := by
  have heven : (!(immB w).getLsbD 0) = true := by rw [getLsbD_immB_zero, Bool.not_false]
  unfold decodeBranch at h
  split_ifs at h <;> cases h <;> exact heven

/-- Settles O6: only branches and JAL have a condition, and the offsets the decoder assembles end in a 0 bit. -/
theorem decodedInstructionsAreWellFormed : Obligations.DecodedInstructionsAreWellFormed := by
  unfold Obligations.DecodedInstructionsAreWellFormed
  intro p w i h
  cases listedGroup_of_decode_ok h with
  | load _ hd => exact wellFormed_of_decodeLoad (hd.symm.trans h)
  | opImm _ hd => exact wellFormed_of_decodeOpImm (hd.symm.trans h)
  | store _ hd => exact wellFormed_of_decodeStore (hd.symm.trans h)
  | op _ hd => exact wellFormed_of_decodeOp (hd.symm.trans h)
  | branch _ hd => exact wellFormed_of_decodeBranch (hd.symm.trans h)
  | jalr _ hd => exact wellFormed_of_decodeJalr (hd.symm.trans h)
  | auipc _ hd | lui _ hd | system _ hd =>
    cases hd.symm.trans h
    rfl
  | jal _ hd =>
    cases hd.symm.trans h
    rw [Instr.wellFormed, getLsbD_immJ_zero, Bool.not_false]

end Sys2Proof.Machine

/-! ## Every word's outcome by its bits (30_encoding.md R60, R71 to R73, R77) -/

namespace Sys2Proof.Machine

/-- A word is fatal exactly when length validation rejects it (30_encoding.md R60). -/
theorem fatalWord_iff (w : Word) : FatalWord w ↔ accepted w = false := by
  have hlow : bitRange w 1 0 = 3 ↔ w.extractLsb' 0 2 = 0b11#2 := by
    rw [← toNat_extractLsb'_eq_bitRange, BitVec.toNat_eq]
    rfl
  have hgroup : bitRange w 4 2 = 7 ↔ w.extractLsb' 2 3 = 0b111#3 := by
    rw [← toNat_extractLsb'_eq_bitRange, BitVec.toNat_eq]
    rfl
  rw [FatalWord, ← Bool.not_eq_true, accepted_iff, ← hlow, ne_eq, ne_eq, ← hgroup]
  tauto

theorem not_fatalWord_iff (w : Word) : ¬ FatalWord w ↔ accepted w = true := by
  rw [fatalWord_iff, Bool.not_eq_false]

/-- The low two bits under a mask. -/
theorem and_mask_low (w : Word) : w &&& 0x00000003#32 = (w.extractLsb' 0 2).setWidth 32 := by
  apply BitVec.eq_of_getLsbD_eq
  intro i hi
  simp only [BitVec.getLsbD_and, BitVec.getLsbD_setWidth, BitVec.getLsbD_extractLsb']
  interval_cases i <;> simp

/-- Bits 4:2 under a mask. -/
theorem and_mask_length (w : Word) : w &&& 0x0000001C#32 = (w.extractLsb' 2 3).setWidth 32 <<< 2 := by
  apply BitVec.eq_of_getLsbD_eq
  intro i hi
  simp only [BitVec.getLsbD_and, BitVec.getLsbD_shiftLeft, BitVec.getLsbD_setWidth, BitVec.getLsbD_extractLsb']
  interval_cases i <;> simp

/-- Length validation by masks (30_encoding.md R60). -/
theorem accepted_iff_masks (w : Word) : accepted w = true ↔
    w &&& 0x00000003#32 = 0x00000003#32 ∧ w &&& 0x0000001C#32 ≠ 0x0000001C#32 := by
  have hlow : w &&& 0x00000003#32 = 0x00000003#32 ↔ w.extractLsb' 0 2 = 0b11#2 :=
    ⟨fun h => extract_of_mask h 0 2 (by decide), fun h => by rw [and_mask_low, h]; rfl⟩
  have hgroup : w &&& 0x0000001C#32 = 0x0000001C#32 ↔ w.extractLsb' 2 3 = 0b111#3 :=
    ⟨fun h => extract_of_mask h 2 3 (by decide), fun h => by rw [and_mask_length, h]; rfl⟩
  rw [accepted_iff, hlow, ne_eq, ne_eq, hgroup]

/-- The decoder rejects as fatal exactly the words that length validation does. -/
theorem decode_invalidEncoding_iff (p : DecodeParams) (w : Word) :
    decodeWordWith p w = .error .invalidEncoding ↔ FatalWord w := by
  rw [fatalWord_iff]
  rcases decodeWordWith_cases p w with ⟨ha, h⟩ | ⟨ha, ⟨i, h⟩ | h | h⟩ <;> simp [ha, h]

/-! ### Unlisted groups -/

/-- The rule's list of unlisted groups, as numbers (30_encoding.md R72). -/
theorem unlistedGroupWord_iff (w : Word) :
    UnlistedGroupWord w ↔ accepted w = true ∧ opcodeGroup w ∈ unlistedGroups := by
  rw [UnlistedGroupWord, not_fatalWord_iff, ← opcodeGroup_eq_bitRange,
    ← List.mem_map_of_injective (BitVec.toNat_injective (n := 5))]
  rfl

theorem ListedGroup.not_mem_unlistedGroups {p : DecodeParams} {w : Word} (h : ListedGroup p w) :
    opcodeGroup w ∉ unlistedGroups := by
  cases h with
  | load h | opImm h | auipc h | store h | op h | lui h | branch h | jalr h | jal h | system h =>
    rw [h]
    decide

/-- A word of a listed group decodes to an instruction or is an unlisted function. -/
theorem ListedGroup.decode_cases {p : DecodeParams} {w : Word} (h : ListedGroup p w) :
    (∃ i, decodeWordWith p w = .ok i) ∨ decodeWordWith p w = .error .unlistedFunction := by
  cases h with
  | load _ hd => exact hd ▸ decodeLoad_cases w
  | opImm _ hd => exact hd ▸ decodeOpImm_cases w
  | store _ hd => exact hd ▸ decodeStore_cases w
  | op _ hd => exact hd ▸ decodeOp_cases _ w
  | branch _ hd => exact hd ▸ decodeBranch_cases w
  | jalr _ hd => exact hd ▸ decodeJalr_cases _ w
  | auipc _ hd | lui _ hd | jal _ hd | system _ hd => exact .inl ⟨_, hd⟩

/-- The decoder rejects as of an unlisted group exactly the accepted words of those groups (30_encoding.md R72). -/
theorem decode_unlistedGroup_iff (p : DecodeParams) (w : Word) :
    decodeWordWith p w = .error .unlistedGroup ↔ UnlistedGroupWord w := by
  rw [unlistedGroupWord_iff]
  cases ha : accepted w with
  | false => simp [(decode_invalidEncoding_iff p w).mpr ((fatalWord_iff w).mpr ha)]
  | true =>
    rcases group_cases_of_accepted p ha with hlisted | ⟨hmem, hd⟩
    · rcases hlisted.decode_cases with ⟨i, hd⟩ | hd <;> simp [hd, hlisted.not_mem_unlistedGroups]
    · simp [hmem, hd]

/-! ### Unlisted functions, group by group (30_encoding.md R71) -/

/-- funct3 as a number of three bits, one value at a time. -/
theorem funct3_cases (w : Word) : funct3 w = 0#3 ∨ funct3 w = 1#3 ∨ funct3 w = 2#3 ∨ funct3 w = 3#3 ∨ funct3 w = 4#3 ∨
    funct3 w = 5#3 ∨ funct3 w = 6#3 ∨ funct3 w = 7#3 := by
  generalize funct3 w = f
  revert f
  decide

theorem decodeLoad_unlisted_iff (w : Word) :
    decodeLoad w = .error .unlistedFunction ↔ bitRange w 14 12 ∈ [3, 6, 7] := by
  rw [← funct3_eq_bitRange]
  rcases funct3_cases w with h | h | h | h | h | h | h | h <;> simp [decodeLoad, h]

theorem decodeStore_unlisted_iff (w : Word) :
    decodeStore w = .error .unlistedFunction ↔ bitRange w 14 12 ∈ [3, 4, 5, 6, 7] := by
  rw [← funct3_eq_bitRange]
  rcases funct3_cases w with h | h | h | h | h | h | h | h <;> simp [decodeStore, h]

theorem decodeBranch_unlisted_iff (w : Word) :
    decodeBranch w = .error .unlistedFunction ↔ bitRange w 14 12 ∈ [2, 3] := by
  rw [← funct3_eq_bitRange]
  rcases funct3_cases w with h | h | h | h | h | h | h | h <;> simp [decodeBranch, h]

/-- funct7 at a value is its number at that value. -/
theorem funct7_eq_iff (w : Word) (v : BitVec 7) : funct7 w = v ↔ bitRange w 31 25 = v.toNat := by
  rw [← funct7_eq_bitRange, BitVec.toNat_eq]

/-- A decoder that lists two values of a field rejects all others. -/
theorem ite_ok_ite_ok_eq_error_iff {c d : Prop} [Decidable c] [Decidable d] {i j : Instr} {e : DecodeError} :
    (if c then Except.ok i else if d then .ok j else .error e) = .error e ↔ ¬ c ∧ ¬ d := by
  split_ifs <;> simp [*]

theorem decodeOpImm_unlisted_iff (w : Word) : decodeOpImm w = .error .unlistedFunction ↔
    (bitRange w 14 12 = 1 ∧ bitRange w 31 25 ≠ 0x00) ∨ (bitRange w 14 12 = 5 ∧ bitRange w 31 25 ∉ [0x00, 0x20]) := by
  rw [← funct3_eq_bitRange]
  rcases funct3_cases w with h | h | h | h | h | h | h | h <;>
    simp [decodeOpImm, h, funct7_eq_iff, ite_ok_ite_ok_eq_error_iff]

theorem decodeOp_unlisted_iff (strict : Bool) (w : Word) : decodeOp strict w = .error .unlistedFunction ↔
    (bitRange w 14 12 ∈ [0, 5] ∧ bitRange w 31 25 ∉ [0x00, 0x20]) ∨
      (strict = true ∧ bitRange w 14 12 ∉ [0, 5] ∧ bitRange w 31 25 ≠ 0x00) := by
  rw [← funct3_eq_bitRange]
  rcases funct3_cases w with h | h | h | h | h | h | h | h <;>
    simp [decodeOp, h, funct7_eq_iff, ite_ok_ite_ok_eq_error_iff]

theorem decodeJalr_unlisted_iff (strict : Bool) (w : Word) :
    decodeJalr strict w = .error .unlistedFunction ↔ strict = true ∧ bitRange w 14 12 ≠ 0 := by
  rw [← funct3_eq_bitRange]
  rcases funct3_cases w with h | h | h | h | h | h | h | h <;> simp [decodeJalr, h]

/-- In a listed group the unlisted functions are the listed ranges of funct3 and funct7, and those a strict parameter
adds (30_encoding.md R71, 45_op.md R150, 47_jump.md R175). -/
theorem ListedGroup.unlistedFunction_iff {p : DecodeParams} {w : Word} (h : ListedGroup p w) (ha : accepted w = true) :
    decodeWordWith p w = .error .unlistedFunction ↔ UnlistedFunctionWord w ∨ StrictlyIllegalWord p w := by
  have hfatal : ¬ FatalWord w := (not_fatalWord_iff w).mpr ha
  have number {g : BitVec 5} (hg : opcodeGroup w = g) : bitRange w 6 2 = g.toNat := by
    rw [← opcodeGroup_eq_bitRange, hg]
  simp only [UnlistedFunctionWord, StrictlyIllegalWord, hfatal, not_false_eq_true, true_and]
  cases h with
  | load hg hd => simp [hd, decodeLoad_unlisted_iff, number hg, groupLoad]
  | opImm hg hd => simp [hd, decodeOpImm_unlisted_iff, number hg, groupOpImm]
  | store hg hd => simp [hd, decodeStore_unlisted_iff, number hg, groupStore]
  | op hg hd => simp [hd, decodeOp_unlisted_iff, number hg, groupOp]
  | branch hg hd => simp [hd, decodeBranch_unlisted_iff, number hg, groupBranch]
  | jalr hg hd => simp [hd, decodeJalr_unlisted_iff, number hg, groupJalr]
  | auipc hg hd => simp [hd, number hg, groupAuipc]
  | lui hg hd => simp [hd, number hg, groupLui]
  | jal hg hd => simp [hd, number hg, groupJal]
  | system hg hd => simp [hd, number hg, groupSystem]

/-- An accepted word of an unlisted group has no unlisted function. -/
theorem not_unlistedFunction_of_mem_unlistedGroups (p : DecodeParams) {w : Word} (h : opcodeGroup w ∈ unlistedGroups) :
    ¬ (UnlistedFunctionWord w ∨ StrictlyIllegalWord p w) := by
  have apart : ∀ g ∈ unlistedGroups, g.toNat ∉ [0x00, 0x04, 0x08, 0x0C, 0x18, 0x19] := by decide
  have hg := apart _ h
  rw [opcodeGroup_eq_bitRange] at hg
  simp only [List.mem_cons, List.not_mem_nil, or_false, not_or] at hg
  simp [UnlistedFunctionWord, StrictlyIllegalWord, hg]

/-- The decoder rejects as unlisted functions exactly the words listed as such, and those a strict parameter adds. -/
theorem decode_unlistedFunction_iff (p : DecodeParams) (w : Word) :
    decodeWordWith p w = .error .unlistedFunction ↔ UnlistedFunctionWord w ∨ StrictlyIllegalWord p w := by
  cases ha : accepted w with
  | false =>
    have hfatal : FatalWord w := (fatalWord_iff w).mpr ha
    simp [(decode_invalidEncoding_iff p w).mpr hfatal, UnlistedFunctionWord, StrictlyIllegalWord, hfatal]
  | true =>
    rcases group_cases_of_accepted p ha with hlisted | ⟨hmem, hd⟩
    · exact hlisted.unlistedFunction_iff ha
    · simpa [hd] using not_unlistedFunction_of_mem_unlistedGroups p hmem

/-- A word decodes to an instruction exactly when the decoder gives none of its three rejections. -/
theorem decode_ok_iff (p : DecodeParams) (w : Word) : (∃ i, decodeWordWith p w = .ok i) ↔
    ¬ FatalWord w ∧ ¬ UnlistedGroupWord w ∧ ¬ UnlistedFunctionWord w ∧ ¬ StrictlyIllegalWord p w := by
  rw [← not_or (p := UnlistedFunctionWord w), ← decode_invalidEncoding_iff p, ← decode_unlistedGroup_iff p,
    ← decode_unlistedFunction_iff]
  rcases decodeWordWith_cases p w with ⟨-, h⟩ | ⟨-, ⟨i, h⟩ | h | h⟩ <;> simp [h]

/-- Settles O5: length validation by masks, and the decoder's four answers by the bits of the word. -/
theorem everyWordHasItsOutcome : Obligations.EveryWordHasItsOutcome := by
  unfold Obligations.EveryWordHasItsOutcome
  intro p w
  exact ⟨accepted_iff_masks w, decode_invalidEncoding_iff p w, decode_unlistedGroup_iff p w,
    decode_unlistedFunction_iff p w, decode_ok_iff p w⟩

end Sys2Proof.Machine

/-! ## The decode parameters (45_op.md R150, 47_jump.md R175) -/

namespace Sys2Proof.Machine

/-- The parameters act on their own two groups only: settings for which the OP and the JALR decoder answer alike decode
alike. -/
theorem decodeWordWith_congr {p q : DecodeParams} {w : Word}
    (hop : opcodeGroup w = groupOp → decodeOp p.opFunct7Strict w = decodeOp q.opFunct7Strict w)
    (hjalr : opcodeGroup w = groupJalr → decodeJalr p.jalrFunct3Strict w = decodeJalr q.jalrFunct3Strict w) :
    decodeWordWith p w = decodeWordWith q w := by
  unfold decodeWordWith
  by_cases h1 : opcodeGroup w = groupOp
  · rw [hop h1]
    simp [h1]
  · by_cases h2 : opcodeGroup w = groupJalr
    · rw [hjalr h2]
      simp [h2, show groupJalr ≠ groupOp by decide]
    · simp only [if_neg h1, if_neg h2]

/-- OP words are the only ones OP_FUNCT7_STRICT acts on. -/
theorem decodeWordWith_congr_op {p q : DecodeParams} {w : Word} (hg : opcodeGroup w = groupOp)
    (h : decodeOp p.opFunct7Strict w = decodeOp q.opFunct7Strict w) : decodeWordWith p w = decodeWordWith q w :=
  decodeWordWith_congr (fun _ => h) fun hj => absurd (hg.symm.trans hj) (by decide)

/-- JALR words are the only ones JALR_FUNCT3_STRICT acts on. -/
theorem decodeWordWith_congr_jalr {p q : DecodeParams} {w : Word} (hg : opcodeGroup w = groupJalr)
    (h : decodeJalr p.jalrFunct3Strict w = decodeJalr q.jalrFunct3Strict w) : decodeWordWith p w = decodeWordWith q w :=
  decodeWordWith_congr (fun ho => absurd (hg.symm.trans ho) (by decide)) fun _ => h

theorem decodeOp_of_funct7_zero (b c : Bool) {w : Word} (h : funct7 w = 0x00#7) : decodeOp b w = decodeOp c w := by
  simp [decodeOp, h]

theorem decodeOp_of_funct7_selects (b c : Bool) {w : Word} (h : funct3 w = 0#3 ∨ funct3 w = 5#3) :
    decodeOp b w = decodeOp c w := by
  rcases h with h | h <;> simp [decodeOp, h]

theorem decodeJalr_of_funct3_zero (b c : Bool) {w : Word} (h : funct3 w = 0#3) : decodeJalr b w = decodeJalr c w := by
  simp [decodeJalr, h]

/-- An accepted OP word of the six whose funct7 is not 0 is an unlisted function under OP_FUNCT7_STRICT. -/
theorem decode_op_strict {p : DecodeParams} {w : Word} (ha : accepted w = true) (hg : opcodeGroup w = groupOp)
    (hstrict : p.opFunct7Strict = true) (h0 : funct3 w ≠ 0#3) (h5 : funct3 w ≠ 5#3) (h7 : funct7 w ≠ 0x00#7) :
    decodeWordWith p w = .error .unlistedFunction := by
  obtain ⟨hlow, -⟩ := (accepted_iff w).mp ha
  rw [decode_op p hlow hg]
  simp [decodeOp, hstrict, h0, h5, h7]

/-- An accepted JALR word whose funct3 is not 0 is an unlisted function under JALR_FUNCT3_STRICT. -/
theorem decode_jalr_strict {p : DecodeParams} {w : Word} (ha : accepted w = true) (hg : opcodeGroup w = groupJalr)
    (hstrict : p.jalrFunct3Strict = true) (h3 : funct3 w ≠ 0#3) :
    decodeWordWith p w = .error .unlistedFunction := by
  obtain ⟨hlow, -⟩ := (accepted_iff w).mp ha
  rw [decode_jalr p hlow hg]
  simp [decodeJalr, hstrict, h3]

/-- A field that a mask leaves whole is the word's own. -/
theorem extract_and_mask (w : Word) {m : Word} (lo len : Nat) (hm : m.extractLsb' lo len = BitVec.allOnes len) :
    (w &&& m).extractLsb' lo len = w.extractLsb' lo len := by
  rw [BitVec.extractLsb'_and, hm, BitVec.and_allOnes]

/-- A mask that leaves bits 6:0 whole keeps what length validation and dispatch read. -/
theorem accepted_and_mask (w : Word) {m : Word} (hlow : m.extractLsb' 0 2 = BitVec.allOnes 2)
    (hlen : m.extractLsb' 2 3 = BitVec.allOnes 3) : accepted (w &&& m) = accepted w := by
  rw [accepted, accepted, extract_and_mask w 0 2 hlow, extract_and_mask w 2 3 hlen]

/-- A fatal word does not decode, whatever its group. -/
theorem decodeWord_of_not_accepted {w : Word} (h : accepted w = false) : decodeWord w = .error .invalidEncoding :=
  (decode_invalidEncoding_iff _ w).mpr ((fatalWord_iff w).mpr h)

/-- By default funct7 of the six OP rows is ignored (decision D2): clearing it changes no field they read. -/
theorem decodeWord_clear_funct7 {w : Word} (hg : opcodeGroup w = groupOp) (h0 : funct3 w ≠ 0#3) (h5 : funct3 w ≠ 5#3) :
    decodeWord w = decodeWord (w &&& 0x01FFFFFF#32) := by
  have haccepted : accepted (w &&& 0x01FFFFFF#32) = accepted w := accepted_and_mask w (by decide) (by decide)
  cases ha : accepted w with
  | false => rw [decodeWord_of_not_accepted ha, decodeWord_of_not_accepted (haccepted.trans ha)]
  | true =>
    obtain ⟨hlow, -⟩ := (accepted_iff w).mp ha
    have hlow' := extract_and_mask w (m := 0x01FFFFFF#32) 0 2 (by decide)
    have hgroup : opcodeGroup (w &&& 0x01FFFFFF#32) = opcodeGroup w := extract_and_mask w 2 5 (by decide)
    have h3 : funct3 (w &&& 0x01FFFFFF#32) = funct3 w := extract_and_mask w 12 3 (by decide)
    have hrd : rdField (w &&& 0x01FFFFFF#32) = rdField w := congrArg regOfBits (extract_and_mask w 7 5 (by decide))
    have hrs1 : rs1Field (w &&& 0x01FFFFFF#32) = rs1Field w := congrArg regOfBits (extract_and_mask w 15 5 (by decide))
    have hrs2 : rs2Field (w &&& 0x01FFFFFF#32) = rs2Field w := congrArg regOfBits (extract_and_mask w 20 5 (by decide))
    rw [decodeWord, decodeWord, decode_op _ hlow hg, decode_op _ (hlow'.trans hlow) (hgroup.trans hg)]
    simp [decodeOp, Config.decodeParams, h0, h5, h3, hrd, hrs1, hrs2]

/-- By default funct3 of JALR is ignored (decision D3): clearing it changes no field the row reads. -/
theorem decodeWord_clear_funct3 {w : Word} (hg : opcodeGroup w = groupJalr) :
    decodeWord w = decodeWord (w &&& 0xFFFF8FFF#32) := by
  have haccepted : accepted (w &&& 0xFFFF8FFF#32) = accepted w := accepted_and_mask w (by decide) (by decide)
  cases ha : accepted w with
  | false => rw [decodeWord_of_not_accepted ha, decodeWord_of_not_accepted (haccepted.trans ha)]
  | true =>
    obtain ⟨hlow, -⟩ := (accepted_iff w).mp ha
    have hlow' := extract_and_mask w (m := 0xFFFF8FFF#32) 0 2 (by decide)
    have hgroup : opcodeGroup (w &&& 0xFFFF8FFF#32) = opcodeGroup w := extract_and_mask w 2 5 (by decide)
    have hrd : rdField (w &&& 0xFFFF8FFF#32) = rdField w := congrArg regOfBits (extract_and_mask w 7 5 (by decide))
    have hrs1 : rs1Field (w &&& 0xFFFF8FFF#32) = rs1Field w := congrArg regOfBits (extract_and_mask w 15 5 (by decide))
    have himm : immI (w &&& 0xFFFF8FFF#32) = immI w := extract_and_mask w 20 12 (by decide)
    rw [decodeWord, decodeWord, decode_jalr _ hlow hg, decode_jalr _ (hlow'.trans hlow) (hgroup.trans hg)]
    simp [decodeJalr, Config.decodeParams, hrd, hrs1, himm]

/-- Settles O7: the parameters enter the decoder through the OP and the JALR decoder alone, and there only where the
field they check is not 0. -/
theorem decodeParametersAsTheRulesSay : Obligations.DecodeParametersAsTheRulesSay := by
  unfold Obligations.DecodeParametersAsTheRulesSay
  exact ⟨fun p q w hj h => decodeWordWith_congr (fun _ => by rw [h]) fun hg => absurd hg hj,
    fun p q w ho h => decodeWordWith_congr (fun hg => absurd hg ho) fun _ => by rw [h],
    fun p w ho hj => decodeWordWith_congr (fun hg => absurd hg ho) fun hg => absurd hg hj,
    fun p w hg h => decodeWordWith_congr_op hg (decodeOp_of_funct7_zero _ _ h),
    fun p w hg h => decodeWordWith_congr_op hg (decodeOp_of_funct7_selects _ _ h),
    fun p w hg h => decodeWordWith_congr_op hg (congrArg (decodeOp · w) h),
    fun p w hg h => decodeWordWith_congr_jalr hg (decodeJalr_of_funct3_zero _ _ h),
    fun p w hg h => decodeWordWith_congr_jalr hg (congrArg (decodeJalr · w) h),
    fun p w => decode_op_strict, fun p w => decode_jalr_strict,
    fun w => decodeWord_clear_funct7, fun w => decodeWord_clear_funct3⟩

end Sys2Proof.Machine

/-! ## The decoder and the opcode table (30_encoding.md R70, spec/opcode_table.json) -/

namespace Sys2Proof.Machine

/-! ### Rows to instructions -/

theorem rowMeans_lh : RowMeans 0x00001003#32 0x0000707F#32 (fun w => .lh (rdField w) (rs1Field w) (immI w)) :=
  rowMeans_load (by decide) (by decide) fun w h => by
    have h3 : funct3 w = 1#3 := h
    simp [decodeLoad, h3]

theorem rowMeans_lw : RowMeans 0x00002003#32 0x0000707F#32 (fun w => .lw (rdField w) (rs1Field w) (immI w)) :=
  rowMeans_load (by decide) (by decide) fun w h => by
    have h3 : funct3 w = 2#3 := h
    simp [decodeLoad, h3]

theorem rowMeans_lhu : RowMeans 0x00005003#32 0x0000707F#32 (fun w => .lhu (rdField w) (rs1Field w) (immI w)) :=
  rowMeans_load (by decide) (by decide) fun w h => by
    have h3 : funct3 w = 5#3 := h
    simp [decodeLoad, h3]

theorem rowMeans_sh : RowMeans 0x00001023#32 0x0000707F#32 (fun w => .sh (rs1Field w) (rs2Field w) (immS w)) :=
  rowMeans_store (by decide) (by decide) fun w h => by
    have h3 : funct3 w = 1#3 := h
    simp [decodeStore, h3]

theorem rowMeans_sw : RowMeans 0x00002023#32 0x0000707F#32 (fun w => .sw (rs1Field w) (rs2Field w) (immS w)) :=
  rowMeans_store (by decide) (by decide) fun w h => by
    have h3 : funct3 w = 2#3 := h
    simp [decodeStore, h3]

/-- Every word a row matches decodes to an instruction with the row's mnemonic. -/
def RowDecodes (r : OpcodeRow) : Prop :=
  ∀ w : Word, w &&& r.mask = r.pattern → ∃ i, decodeWord w = .ok i ∧ i.mnemonic = r.mnemonic

theorem rowDecodes_of_rowMeansByDefault {name : String} {pattern mask : Word} {i : Word → Instr}
    (h : RowMeansByDefault pattern mask i) (hname : ∀ w, (i w).mnemonic = name) : RowDecodes ⟨name, pattern, mask⟩ :=
  fun w hw => ⟨i w, h w hw, hname w⟩

theorem rowDecodes_of_rowMeans {name : String} {pattern mask : Word} {i : Word → Instr}
    (h : RowMeans pattern mask i) (hname : ∀ w, (i w).mnemonic = name) : RowDecodes ⟨name, pattern, mask⟩ :=
  rowDecodes_of_rowMeansByDefault (h Config.decodeParams) hname

theorem rowDecodes_opcodeRowsImm : ∀ r ∈ opcodeRowsImm, RowDecodes r := by
  simp only [opcodeRowsImm, List.forall_mem_cons, List.not_mem_nil, false_imp_iff, implies_true, and_true]
  exact ⟨rowDecodes_of_rowMeans rowMeans_lb fun _ => rfl, rowDecodes_of_rowMeans rowMeans_lh fun _ => rfl,
    rowDecodes_of_rowMeans rowMeans_lw fun _ => rfl, rowDecodes_of_rowMeans rowMeans_lbu fun _ => rfl,
    rowDecodes_of_rowMeans rowMeans_lhu fun _ => rfl, rowDecodes_of_rowMeans rowMeans_addi fun _ => rfl,
    rowDecodes_of_rowMeans rowMeans_slti fun _ => rfl, rowDecodes_of_rowMeans rowMeans_sltiu fun _ => rfl,
    rowDecodes_of_rowMeans rowMeans_xori fun _ => rfl, rowDecodes_of_rowMeans rowMeans_ori fun _ => rfl,
    rowDecodes_of_rowMeans rowMeans_andi fun _ => rfl, rowDecodes_of_rowMeans rowMeans_slli fun _ => rfl,
    rowDecodes_of_rowMeans rowMeans_srli fun _ => rfl, rowDecodes_of_rowMeans rowMeans_srai fun _ => rfl⟩

theorem rowDecodes_opcodeRowsReg : ∀ r ∈ opcodeRowsReg, RowDecodes r := by
  simp only [opcodeRowsReg, List.forall_mem_cons, List.not_mem_nil, false_imp_iff, implies_true, and_true]
  exact ⟨rowDecodes_of_rowMeans rowMeans_auipc fun _ => rfl, rowDecodes_of_rowMeans rowMeans_sb fun _ => rfl,
    rowDecodes_of_rowMeans rowMeans_sh fun _ => rfl, rowDecodes_of_rowMeans rowMeans_sw fun _ => rfl,
    rowDecodes_of_rowMeans rowMeans_add fun _ => rfl, rowDecodes_of_rowMeans rowMeans_sub fun _ => rfl,
    rowDecodes_of_rowMeansByDefault rowMeansByDefault_sll fun _ => rfl,
    rowDecodes_of_rowMeansByDefault rowMeansByDefault_slt fun _ => rfl,
    rowDecodes_of_rowMeansByDefault rowMeansByDefault_sltu fun _ => rfl,
    rowDecodes_of_rowMeansByDefault rowMeansByDefault_xor fun _ => rfl,
    rowDecodes_of_rowMeans rowMeans_srl fun _ => rfl, rowDecodes_of_rowMeans rowMeans_sra fun _ => rfl,
    rowDecodes_of_rowMeansByDefault rowMeansByDefault_or fun _ => rfl,
    rowDecodes_of_rowMeansByDefault rowMeansByDefault_and fun _ => rfl,
    rowDecodes_of_rowMeans rowMeans_lui fun _ => rfl⟩

theorem rowDecodes_opcodeRowsControl : ∀ r ∈ opcodeRowsControl, RowDecodes r := by
  simp only [opcodeRowsControl, List.forall_mem_cons, List.not_mem_nil, false_imp_iff, implies_true, and_true]
  exact ⟨rowDecodes_of_rowMeans rowMeans_beq fun _ => rfl, rowDecodes_of_rowMeans rowMeans_bne fun _ => rfl,
    rowDecodes_of_rowMeans rowMeans_blt fun _ => rfl, rowDecodes_of_rowMeans rowMeans_bge fun _ => rfl,
    rowDecodes_of_rowMeans rowMeans_bltu fun _ => rfl, rowDecodes_of_rowMeans rowMeans_bgeu fun _ => rfl,
    rowDecodes_of_rowMeansByDefault rowMeansByDefault_jalr fun _ => rfl,
    rowDecodes_of_rowMeans rowMeans_jal fun _ => rfl, rowDecodes_of_rowMeans rowMeans_system fun _ => rfl⟩

theorem rowDecodes_opcodeRows {r : OpcodeRow} (h : r ∈ opcodeRows) : RowDecodes r := by
  rw [opcodeRows, List.mem_append, List.mem_append] at h
  rcases h with (h | h) | h
  · exact rowDecodes_opcodeRowsImm r h
  · exact rowDecodes_opcodeRowsReg r h
  · exact rowDecodes_opcodeRowsControl r h

/-! ### Instructions to rows -/

/-- A row of the table with the instruction's mnemonic matches the word. -/
def HasRow (w : Word) (i : Instr) : Prop :=
  ∃ r ∈ opcodeRows, r.mnemonic = i.mnemonic ∧ w &&& r.mask = r.pattern

section Rows

variable {w : Word} (hlow : w.extractLsb' 0 2 = 0b11#2)

include hlow

/-- What the mask of opcode and funct3 leaves of a word whose fields are known. -/
theorem masked_of_funct3 {g : BitVec 5} {f3 : BitVec 3} (hg : opcodeGroup w = g) (h3 : funct3 w = f3) :
    w &&& 0x0000707F#32 = f3.setWidth 32 <<< 12 ||| g.setWidth 32 <<< 2 ||| 3#32 := by
  rw [and_mask_opcode_funct3, hlow, ← hg, ← h3]
  rfl

/-- What the mask of opcode, funct3 and funct7 leaves of a word whose fields are known. -/
theorem masked_of_funct7 {g : BitVec 5} {f3 : BitVec 3} {f7 : BitVec 7} (hg : opcodeGroup w = g) (h3 : funct3 w = f3)
    (h7 : funct7 w = f7) :
    w &&& 0xFE00707F#32 = f7.setWidth 32 <<< 25 ||| f3.setWidth 32 <<< 12 ||| g.setWidth 32 <<< 2 ||| 3#32 := by
  rw [and_mask_opcode_funct3_funct7, hlow, ← hg, ← h3, ← h7]
  rfl

/-- What the mask of the opcode leaves of a word whose group is known. -/
theorem masked_of_group {g : BitVec 5} (hg : opcodeGroup w = g) :
    w &&& 0x0000007F#32 = g.setWidth 32 <<< 2 ||| 3#32 := by
  rw [and_mask_opcode, hlow, ← hg]
  rfl

theorem hasRow_of_decodeLoad (hg : opcodeGroup w = groupLoad) {i : Instr} (h : decodeLoad w = .ok i) : HasRow w i := by
  unfold decodeLoad at h
  split_ifs at h with h0 h1 h2 h4 h5 <;> cases h
  · exact ⟨⟨"LB", 0x00000003, 0x0000707F⟩, by decide, rfl, masked_of_funct3 hlow hg h0⟩
  · exact ⟨⟨"LH", 0x00001003, 0x0000707F⟩, by decide, rfl, masked_of_funct3 hlow hg h1⟩
  · exact ⟨⟨"LW", 0x00002003, 0x0000707F⟩, by decide, rfl, masked_of_funct3 hlow hg h2⟩
  · exact ⟨⟨"LBU", 0x00004003, 0x0000707F⟩, by decide, rfl, masked_of_funct3 hlow hg h4⟩
  · exact ⟨⟨"LHU", 0x00005003, 0x0000707F⟩, by decide, rfl, masked_of_funct3 hlow hg h5⟩

theorem hasRow_of_decodeStore (hg : opcodeGroup w = groupStore) {i : Instr} (h : decodeStore w = .ok i) :
    HasRow w i := by
  unfold decodeStore at h
  split_ifs at h with h0 h1 h2 <;> cases h
  · exact ⟨⟨"SB", 0x00000023, 0x0000707F⟩, by decide, rfl, masked_of_funct3 hlow hg h0⟩
  · exact ⟨⟨"SH", 0x00001023, 0x0000707F⟩, by decide, rfl, masked_of_funct3 hlow hg h1⟩
  · exact ⟨⟨"SW", 0x00002023, 0x0000707F⟩, by decide, rfl, masked_of_funct3 hlow hg h2⟩

theorem hasRow_of_decodeBranch (hg : opcodeGroup w = groupBranch) {i : Instr} (h : decodeBranch w = .ok i) :
    HasRow w i := by
  unfold decodeBranch at h
  split_ifs at h with h0 h1 h4 h5 h6 h7 <;> cases h
  · exact ⟨⟨"BEQ", 0x00000063, 0x0000707F⟩, by decide, rfl, masked_of_funct3 hlow hg h0⟩
  · exact ⟨⟨"BNE", 0x00001063, 0x0000707F⟩, by decide, rfl, masked_of_funct3 hlow hg h1⟩
  · exact ⟨⟨"BLT", 0x00004063, 0x0000707F⟩, by decide, rfl, masked_of_funct3 hlow hg h4⟩
  · exact ⟨⟨"BGE", 0x00005063, 0x0000707F⟩, by decide, rfl, masked_of_funct3 hlow hg h5⟩
  · exact ⟨⟨"BLTU", 0x00006063, 0x0000707F⟩, by decide, rfl, masked_of_funct3 hlow hg h6⟩
  · exact ⟨⟨"BGEU", 0x00007063, 0x0000707F⟩, by decide, rfl, masked_of_funct3 hlow hg h7⟩

omit hlow in
/-- The value of funct3 that a decoder's last arm does not test. -/
theorem funct3_eq_seven (h0 : funct3 w ≠ 0#3) (h1 : funct3 w ≠ 1#3) (h2 : funct3 w ≠ 2#3) (h3 : funct3 w ≠ 3#3)
    (h4 : funct3 w ≠ 4#3) (h5 : funct3 w ≠ 5#3) (h6 : funct3 w ≠ 6#3) : funct3 w = 7#3 := by
  have h := funct3_cases w
  simpa [h0, h1, h2, h3, h4, h5, h6] using h

theorem hasRow_of_decodeOpImm (hg : opcodeGroup w = groupOpImm) {i : Instr} (h : decodeOpImm w = .ok i) :
    HasRow w i := by
  unfold decodeOpImm at h
  split_ifs at h with h0 h1 h1f h2 h3 h4 h5 h5f h5f' h6 <;> cases h
  · exact ⟨⟨"ADDI", 0x00000013, 0x0000707F⟩, by decide, rfl, masked_of_funct3 hlow hg h0⟩
  · exact ⟨⟨"SLLI", 0x00001013, 0xFE00707F⟩, by decide, rfl, masked_of_funct7 hlow hg h1 h1f⟩
  · exact ⟨⟨"SLTI", 0x00002013, 0x0000707F⟩, by decide, rfl, masked_of_funct3 hlow hg h2⟩
  · exact ⟨⟨"SLTIU", 0x00003013, 0x0000707F⟩, by decide, rfl, masked_of_funct3 hlow hg h3⟩
  · exact ⟨⟨"XORI", 0x00004013, 0x0000707F⟩, by decide, rfl, masked_of_funct3 hlow hg h4⟩
  · exact ⟨⟨"SRLI", 0x00005013, 0xFE00707F⟩, by decide, rfl, masked_of_funct7 hlow hg h5 h5f⟩
  · exact ⟨⟨"SRAI", 0x40005013, 0xFE00707F⟩, by decide, rfl, masked_of_funct7 hlow hg h5 h5f'⟩
  · exact ⟨⟨"ORI", 0x00006013, 0x0000707F⟩, by decide, rfl, masked_of_funct3 hlow hg h6⟩
  · exact ⟨⟨"ANDI", 0x00007013, 0x0000707F⟩, by decide, rfl,
      masked_of_funct3 hlow hg (funct3_eq_seven h0 h1 h2 h3 h4 h5 h6)⟩

theorem hasRow_of_decodeOp (hg : opcodeGroup w = groupOp) {strict : Bool} {i : Instr} (h : decodeOp strict w = .ok i) :
    HasRow w i := by
  unfold decodeOp at h
  split_ifs at h with h0 h0f h0f' h5 h5f h5f' hs h1 h2 h3 h4 h6 <;> cases h
  · exact ⟨⟨"ADD", 0x00000033, 0xFE00707F⟩, by decide, rfl, masked_of_funct7 hlow hg h0 h0f⟩
  · exact ⟨⟨"SUB", 0x40000033, 0xFE00707F⟩, by decide, rfl, masked_of_funct7 hlow hg h0 h0f'⟩
  · exact ⟨⟨"SRL", 0x00005033, 0xFE00707F⟩, by decide, rfl, masked_of_funct7 hlow hg h5 h5f⟩
  · exact ⟨⟨"SRA", 0x40005033, 0xFE00707F⟩, by decide, rfl, masked_of_funct7 hlow hg h5 h5f'⟩
  · exact ⟨⟨"SLL", 0x00001033, 0x0000707F⟩, by decide, rfl, masked_of_funct3 hlow hg h1⟩
  · exact ⟨⟨"SLT", 0x00002033, 0x0000707F⟩, by decide, rfl, masked_of_funct3 hlow hg h2⟩
  · exact ⟨⟨"SLTU", 0x00003033, 0x0000707F⟩, by decide, rfl, masked_of_funct3 hlow hg h3⟩
  · exact ⟨⟨"XOR", 0x00004033, 0x0000707F⟩, by decide, rfl, masked_of_funct3 hlow hg h4⟩
  · exact ⟨⟨"OR", 0x00006033, 0x0000707F⟩, by decide, rfl, masked_of_funct3 hlow hg h6⟩
  · exact ⟨⟨"AND", 0x00007033, 0x0000707F⟩, by decide, rfl,
      masked_of_funct3 hlow hg (funct3_eq_seven h0 h1 h2 h3 h4 h5 h6)⟩

theorem hasRow_of_decodeJalr (hg : opcodeGroup w = groupJalr) {strict : Bool} {i : Instr}
    (h : decodeJalr strict w = .ok i) : HasRow w i := by
  unfold decodeJalr at h
  split_ifs at h
  cases h
  exact ⟨⟨"JALR", 0x00000067, 0x0000007F⟩, by decide, rfl, masked_of_group hlow hg⟩

end Rows

/-- Whatever decodes is matched by its own row, at every setting of the decode parameters. -/
theorem hasRow_of_decode {p : DecodeParams} {w : Word} {i : Instr} (h : decodeWordWith p w = .ok i) : HasRow w i := by
  obtain ⟨hlow, -⟩ := (accepted_iff w).mp (accepted_of_decode_ok h)
  cases listedGroup_of_decode_ok h with
  | load hg hd => exact hasRow_of_decodeLoad hlow hg (hd.symm.trans h)
  | opImm hg hd => exact hasRow_of_decodeOpImm hlow hg (hd.symm.trans h)
  | store hg hd => exact hasRow_of_decodeStore hlow hg (hd.symm.trans h)
  | op hg hd => exact hasRow_of_decodeOp hlow hg (hd.symm.trans h)
  | branch hg hd => exact hasRow_of_decodeBranch hlow hg (hd.symm.trans h)
  | jalr hg hd => exact hasRow_of_decodeJalr hlow hg (hd.symm.trans h)
  | auipc hg hd =>
    cases hd.symm.trans h
    exact ⟨⟨"AUIPC", 0x00000017, 0x0000007F⟩, by decide, rfl, masked_of_group hlow hg⟩
  | lui hg hd =>
    cases hd.symm.trans h
    exact ⟨⟨"LUI", 0x00000037, 0x0000007F⟩, by decide, rfl, masked_of_group hlow hg⟩
  | jal hg hd =>
    cases hd.symm.trans h
    exact ⟨⟨"JAL", 0x0000006F, 0x0000007F⟩, by decide, rfl, masked_of_group hlow hg⟩
  | system hg hd =>
    cases hd.symm.trans h
    exact ⟨⟨"SYSTEM", 0x00000073, 0x0000007F⟩, by decide, rfl, masked_of_group hlow hg⟩

/-- Settles O2: from an instruction to its row by the groups of the decoder, and from a row to its instruction by what
the 38 rows mean. -/
theorem decoderAgreesWithTheOpcodeTable : Obligations.DecoderAgreesWithTheOpcodeTable := by
  unfold Obligations.DecoderAgreesWithTheOpcodeTable
  exact ⟨fun w i h => hasRow_of_decode h, fun w r hr hw => rowDecodes_opcodeRows hr w hw⟩

end Sys2Proof.Machine

/-! ## Fetching (40_cycle.md R92, R93; 20_memory.md R38, R45) -/

namespace Sys2Proof.Machine

/-- The number of a list of bytes has 8 bits for each. -/
theorem leNat_lt (bs : List Byte) : leNat bs < 2 ^ (8 * bs.length) := by
  induction bs with
  | nil => exact Nat.one_pos
  | cons b bs ih =>
    have hb := b.isLt
    rw [leNat, List.length_cons, Nat.mul_succ, Nat.pow_add]
    omega

/-- The word of four bytes has their number. -/
theorem toNat_ofNat_leNat {bs : List Byte} (h : bs.length = 4) : (BitVec.ofNat 32 (leNat bs)).toNat = leNat bs := by
  have hlt := leNat_lt bs
  rw [h] at hlt
  exact Nat.mod_eq_of_lt hlt

/-- Where a word is fetched, its four bytes are seen. -/
theorem fetch_some {s s1 : State} {w : Word} (hm : s.params.map.wf = true) (h : fetch s = (some w, s1)) :
    ∃ bs : List Byte, bs.length = 4 ∧ (∀ k, k < 4 → seenByte s (byteAddr s.pc k) = bs[k]?) ∧
      w.toNat = leNat bs ∧ s1 = afterLoads s s.pc 4 := by
  rcases fetch_cases hm with ⟨bs, hlen, hseen, hfetch⟩ | ⟨k, -, -, -, hfetch⟩
  · cases h.symm.trans hfetch
    exact ⟨bs, hlen, hseen, toNat_ofNat_leNat hlen, rfl⟩
  · exact nomatch h.symm.trans hfetch

/-- A fetch fails at the first of its bytes that no region holds, with what the loads of the bytes before it did. -/
theorem fetch_fails {s : State} (hm : s.params.map.wf = true) {k : Nat} (hk : k < 4)
    (hseen : ∀ j, j < k → ¬ unmapped s.params.map (byteAddr s.pc j)) (hnone : unmapped s.params.map (byteAddr s.pc k)) :
    fetch s = (none, afterLoads s s.pc k) :=
  memRead_fails hm (by decide) hk (fun j hj => (seenByte_none_iff hm _).not.mpr (hseen j hj))
    ((seenByte_none_iff hm _).mpr hnone)

/-- A fetch one of whose bytes no region holds fails at the first such byte. -/
theorem fetch_of_unmapped {s : State} (hm : s.params.map.wf = true) {k : Nat} (hk : k < 4)
    (h : unmapped s.params.map (byteAddr s.pc k)) : ∃ j, fetch s = (none, afterLoads s s.pc j) := by
  rcases fetch_cases hm with ⟨bs, hlen, hseen, -⟩ | ⟨j, -, -, -, hfetch⟩
  · have hnone := (seenByte_none_iff hm _).mpr h
    rw [hseen k hk, List.getElem?_eq_none_iff] at hnone
    omega
  · exact ⟨j, hfetch⟩

/-- A fetch gives no word exactly where no region holds one of its bytes. -/
theorem fetch_none_iff {s : State} (hm : s.params.map.wf = true) :
    (fetch s).1 = none ↔ ∃ k, k < 4 ∧ unmapped s.params.map (byteAddr s.pc k) := by
  constructor
  · intro h
    rcases fetch_cases hm with ⟨bs, -, -, hfetch⟩ | ⟨k, hk, -, hunmapped, -⟩
    · rw [hfetch] at h
      exact nomatch h
    · exact ⟨k, hk, hunmapped⟩
  · rintro ⟨k, hk, h⟩
    obtain ⟨j, hfetch⟩ := fetch_of_unmapped hm hk h
    rw [hfetch]

/-- Settles O16: a fetch is a four-byte access, whose value is that of the bytes it sees. -/
theorem fetchedWordIsTheFourBytesAtPc : Obligations.FetchedWordIsTheFourBytesAtPc := by
  unfold Obligations.FetchedWordIsTheFourBytesAtPc
  refine ⟨fun s s1 w hm h => ?_, fun s hm => ⟨fun hstored => ?_, fetch_none_iff hm⟩⟩
  · obtain ⟨bs, hlen, hseen, hw, hs1⟩ := fetch_some hm h
    obtain ⟨b0, b1, b2, b3, rfl⟩ := List.length_eq_four.mp hlen
    refine ⟨⟨b0, b1, b2, b3, hseen 0 (by decide), hseen 1 (by decide), hseen 2 (by decide), hseen 3 (by decide), ?_⟩,
      hs1⟩
    rw [hw]
    simp only [leNat]
    omega
  · refine ⟨_, fetch_stored hm hstored, ?_⟩
    rw [leWord_eq_leNat, toNat_ofNat_leNat (by simp [State.bytesAtPc])]

end Sys2Proof.Machine

/-! ## A step whose fetch fails (40_cycle.md R92, 60_exceptions.md R196) -/

namespace Sys2Proof.Machine

/-- A step whose fetch gives no word keeps its pc (40_cycle.md R92). -/
theorem step_of_fetch_none {s s1 : State} (hrun : s.halted = false) (hmay : s.mayFetch)
    (h : fetch (poll s) = (none, s1)) : step s = .next s1.fetchTrap := by
  rw [step_running hrun hmay, fetchAndRun, h]

section FailedFetch

variable {s : State} (hm : s.params.map.wf = true) (hrun : s.halted = false) (hmay : s.mayFetch)

include hm hrun hmay

/-- Where byte `k` of the fetch is the first that no region holds. -/
theorem step_fetch_fails {k : Nat} (hk : k < 4) (hseen : ∀ j, j < k → ¬ unmapped s.params.map (byteAddr s.pc j))
    (hnone : unmapped s.params.map (byteAddr s.pc k)) :
    ∃ t, step s = .next t ∧ Closes (afterLoads (poll s) s.pc k) t s.pc (some .inaccessibleMemory) := by
  have hfetch := fetch_fails (s := poll s) (k := k) (by rwa [poll_params]) hk
    (by rwa [poll_params, poll_pc]) (by rwa [poll_params, poll_pc])
  rw [poll_pc] at hfetch
  refine ⟨_, step_of_fetch_none hrun hmay hfetch, ?_⟩
  have hcloses := closes_fetchTrap (afterLoads (poll s) s.pc k)
  rwa [pc_afterLoads, poll_pc] at hcloses

omit hrun hmay in
/-- The window's addresses are mapped. -/
theorem not_unmapped_of_inUart {x : Nat} (h : x = s.params.map.uartBase ∨ x = s.params.map.uartBase + 1) :
    ¬ unmapped s.params.map x :=
  fun ⟨_, _, huart⟩ => huart ((inUart_iff hm x).mpr h)

omit hm hrun hmay in
/-- Loads from UART_BASE on, past DATA, have consumed the received byte. -/
theorem afterLoads_past_data {a : Word} {n : Nat} (h : a.toNat = s.params.map.uartBase ∧ 1 < n ∨
    a.toNat = s.params.map.uartBase + 1 ∧ 0 < n) :
    afterLoads s a n = { s with uart := { s.uart with newdat := false } } := by
  have ha := a.isLt
  rw [afterLoads, if_pos (by omega)]

/-- A fetch from UART_BASE that fails behind the window has consumed the received byte. -/
theorem step_fetch_fails_uartBase (hpc : s.pc.toNat = s.params.map.uartBase)
    (hnone : unmapped s.params.map (byteAddr s.pc 2)) :
    ∃ t, step s = .next t ∧
      Closes { poll s with uart := { (poll s).uart with newdat := false } } t s.pc (some .inaccessibleMemory) := by
  obtain ⟨hranged, -, hwindow⟩ := (AddressMap_wf_iff _).mp hm
  have hdata : byteAddr s.pc 1 = s.params.map.uartBase + 1 := by
    rw [byteAddr_eq (by omega), hpc]
  rw [← afterLoads_past_data (s := poll s) (a := s.pc) (n := 2) (.inl ⟨by rwa [poll_params], by decide⟩)]
  refine step_fetch_fails hm hrun hmay (by decide) (fun j hj => not_unmapped_of_inUart hm ?_) hnone
  interval_cases j
  · exact .inl (by rw [byteAddr_zero, hpc])
  · exact .inr hdata

/-- A fetch from the address of DATA that fails behind the window has consumed the received byte. -/
theorem step_fetch_fails_uartData (hpc : s.pc.toNat = s.params.map.uartBase + 1)
    (hnone : unmapped s.params.map (byteAddr s.pc 1)) :
    ∃ t, step s = .next t ∧
      Closes { poll s with uart := { (poll s).uart with newdat := false } } t s.pc (some .inaccessibleMemory) := by
  rw [← afterLoads_past_data (s := poll s) (a := s.pc) (n := 1) (.inr ⟨by rwa [poll_params], by decide⟩)]
  refine step_fetch_fails hm hrun hmay (by decide) (fun j hj => not_unmapped_of_inUart hm ?_) hnone
  obtain rfl := Nat.lt_one_iff.mp hj
  exact .inr (by rw [byteAddr_zero, hpc])

/-- A fetch from an unmapped pc changes nothing but the report and x[0]. -/
theorem step_fetch_unmapped (hnone : unmapped s.params.map s.pc.toNat) :
    ∃ t, step s = .next t ∧ Closes (poll s) t s.pc (some .inaccessibleMemory) := by
  have h := step_fetch_fails hm hrun hmay (k := 0) (by decide) nofun (by rwa [byteAddr_zero])
  rwa [afterLoads_zero] at h

end FailedFetch

/-- Settles O11: the general clause is `step_fetch_fails`, and the three others are cases of it. -/
theorem failedFetchKeepsPc : Obligations.FailedFetchKeepsPc := by
  unfold Obligations.FailedFetchKeepsPc
  intro s hm hrun hmay
  exact ⟨step_fetch_unmapped hm hrun hmay, step_fetch_fails_uartBase hm hrun hmay,
    step_fetch_fails_uartData hm hrun hmay, fun k hk => step_fetch_fails hm hrun hmay hk⟩

/-- The loads of an access change the UART alone. -/
theorem afterLoads_frame (s : State) (a : Word) (n : Nat) : ∃ u, afterLoads s a n = { s with uart := u } := by
  unfold afterLoads
  split
  · exact ⟨_, rfl⟩
  · exact ⟨s.uart, rfl⟩

/-- `t` is `s` as far as a fetch can see that no region answers: the same pc, configuration, registers (x[0] apart) and
memory, and running (60_exceptions.md R196). -/
structure SameFetch (s t : State) : Prop where
  pc     : t.pc = s.pc
  halted : t.halted = s.halted
  params : t.params = s.params
  regs   : ∀ r : Reg, r ≠ 0 → t.readReg r = s.readReg r
  mem    : t.mem = s.mem

/-- A step whose fetch fails leads to a state with the same fetch, and reports. -/
theorem step_of_unmapped {s : State} (hm : s.params.map.wf = true) (hrun : s.halted = false) (hmay : s.mayFetch)
    {k : Nat} (hk : k < 4) (h : unmapped s.params.map (byteAddr s.pc k)) :
    ∃ t, step s = .next t ∧ SameFetch s t ∧ t.report = some .inaccessibleMemory := by
  obtain ⟨j, hfetch⟩ := fetch_of_unmapped (s := poll s) (by rwa [poll_params]) hk (by rwa [poll_params, poll_pc])
  obtain ⟨u, hu⟩ := afterLoads_frame (poll s) (poll s).pc j
  rw [hu] at hfetch
  refine ⟨_, step_of_fetch_none hrun hmay hfetch, ⟨poll_pc s, poll_halted s, poll_params s, fun r hr => ?_, poll_mem s⟩,
    rfl⟩
  rw [readReg_fetchTrap, if_neg hr, readReg_withUart, poll_readReg]

theorem SameFetch.refl (s : State) : SameFetch s s := ⟨rfl, rfl, rfl, fun _ _ => rfl, rfl⟩

theorem SameFetch.trans {s t u : State} (h : SameFetch s t) (h' : SameFetch t u) : SameFetch s u :=
  ⟨h'.pc.trans h.pc, h'.halted.trans h.halted, h'.params.trans h.params,
    fun r hr => (h'.regs r hr).trans (h.regs r hr), h'.mem.trans h.mem⟩

/-- The step of a state with the same failing fetch fails again. -/
theorem SameFetch.step_fails {s t : State} (hm : s.params.map.wf = true) (hrun : s.halted = false) (hmay : s.mayFetch)
    {k : Nat} (hk : k < 4) (h : unmapped s.params.map (byteAddr s.pc k)) (hsame : SameFetch s t) :
    ∃ u, step t = .next u ∧ SameFetch t u ∧ u.report = some .inaccessibleMemory :=
  step_of_unmapped (by rwa [hsame.params]) (hsame.halted.trans hrun) (by rwa [State.mayFetch, hsame.pc, hsame.params])
    hk (by rwa [hsame.params, hsame.pc])

/-- Settles O12: having the same fetch is kept along a run, since each step fails again. -/
theorem failedFetchRepeatsForEver : Obligations.FailedFetchRepeatsForEver := by
  unfold Obligations.FailedFetchRepeatsForEver
  intro s t k hm hrun hmay hk h hreach
  have hsame : SameFetch s t := by
    refine reaches_induction hreach (SameFetch.refl s) fun u v hu huv => ?_
    obtain ⟨v', hv', hsame, -⟩ := hu.step_fails hm hrun hmay hk h
    obtain rfl := Host.Outcome.next.inj (hv'.symm.trans huv)
    exact hu.trans hsame
  obtain ⟨u, hu, hnext, hreport⟩ := hsame.step_fails hm hrun hmay hk h
  exact ⟨hsame.pc, hsame.halted.trans hrun, hsame.regs, hsame.mem, u, hu, hnext.pc.trans hsame.pc, hreport⟩

end Sys2Proof.Machine

/-! ## A step whose fetch gives a word (40_cycle.md R93 to R95; 30_encoding.md R71 to R73) -/

namespace Sys2Proof.Machine

/-- A running machine that fetches a word runs it. -/
theorem step_of_fetch_some {s s1 : State} {w : Word} (hrun : s.halted = false) (hmay : s.mayFetch)
    (h : fetch (poll s) = (some w, s1)) : step s = runWord w s1 := by
  rw [step_running hrun hmay, fetchAndRun, h]

/-- The poll and the fetch that gave a result leave the pc and the configuration. -/
theorem fetched_keeps {s s1 : State} {o : Option Word} (h : fetch (poll s) = (o, s1)) :
    s1.pc = s.pc ∧ s1.params = s.params := by
  obtain ⟨u, hu⟩ := fetch_poll_frame s
  rw [h] at hu
  rw [show s1 = _ from hu]
  exact ⟨rfl, rfl⟩

/-- A word that decodes is executed on the state the fetch left (40_cycle.md R95). -/
theorem step_of_fetch_decode {s s1 : State} {w : Word} {i : Instr} (hrun : s.halted = false) (hmay : s.mayFetch)
    (h : fetch (poll s) = (some w, s1)) (hd : decodeWordWith s.params.decode w = .ok i) : step s = exec i s1 := by
  obtain ⟨-, hparams⟩ := fetched_keeps h
  rw [step_running hrun hmay]
  exact fetchAndRun_ok h (by rwa [hparams])

/-- Four bytes that decode are a word that does. -/
theorem decode_leWord_of_decodeBytes {p : DecodeParams} {bs : List Byte} {i : Instr} (hlen : bs.length = 4)
    (h : decodeBytesWith p bs = .ok (i, [])) : decodeWordWith p (leWord bs) = .ok i := by
  obtain ⟨b0, b1, b2, b3, rfl⟩ := List.length_eq_four.mp hlen
  rw [decodeBytesWith] at h
  split at h
  · rename_i j hj
    obtain ⟨rfl, -⟩ := Prod.mk.inj (Except.ok.inj h)
    exact hj
  · exact nomatch h

/-- In ROM or RAM the four bytes at pc are fetched with no side effect, and what they decode to is executed on the
polled state. -/
theorem step_of_pcStored {s : State} {i : Instr} (hm : s.params.map.wf = true) (hrun : s.halted = false)
    (hmay : s.mayFetch) (hstored : s.pcStored) (hd : decodeWordWith s.params.decode (leWord s.bytesAtPc) = .ok i) :
    step s = exec i (poll s) := by
  have hfetch := fetch_stored (s := poll s) (by rwa [poll_params]) (by simpa [State.pcStored] using hstored)
  have hbytes : (poll s).bytesAtPc = s.bytesAtPc := by simp [State.bytesAtPc]
  rw [hbytes] at hfetch
  exact step_of_fetch_decode hrun hmay hfetch hd

/-- Settles O9: `step_of_pcStored` at the bytes' word, and `step_of_fetch_decode`. -/
theorem stepRunsTheDecodedInstruction : Obligations.StepRunsTheDecodedInstruction := by
  unfold Obligations.StepRunsTheDecodedInstruction
  intro s i hm hrun hmay
  exact ⟨fun hstored hd => step_of_pcStored hm hrun hmay hstored
      (decode_leWord_of_decodeBytes (by simp [State.bytesAtPc]) hd),
    fun w s1 hfetch hd => step_of_fetch_decode hrun hmay hfetch hd⟩

/-- A halted machine has no further cycle (10_state.md R21, decision D9). -/
theorem step_halted {s : State} (h : s.halted = true) : step s = .fault .halted := by
  simp [step, cycle, h]

/-- A fatal word halts the machine (40_cycle.md R94). -/
theorem step_of_fatalWord {s s1 : State} {w : Word} (hrun : s.halted = false) (hmay : s.mayFetch)
    (h : fetch (poll s) = (some w, s1)) (hw : FatalWord w) : step s = .next s1.halt := by
  have hd := (decode_invalidEncoding_iff s1.params.decode w).mpr hw
  rw [step_of_fetch_some hrun hmay h, runWord, hd]

/-- Settles O13: a fatal word's step halts, a halted machine's is the fault, and `step_cases` starts from a running
one. -/
theorem fatalWordHaltsForGood : Obligations.FatalWordHaltsForGood := by
  unfold Obligations.FatalWordHaltsForGood
  refine ⟨fun s s1 w hrun hmay hfetch hw => ?_, fun s => step_halted, fun s t h => ?_⟩
  · exact ⟨s1.halt, step_of_fatalWord hrun hmay hfetch hw, rfl, step_halted rfl⟩
  · obtain ⟨hrun, -⟩ := step_cases h
    exact hrun

/-- The words that are accepted but no instruction are those the decoder rejects as unlisted. -/
theorem decode_of_illegal {p : DecodeParams} {w : Word}
    (h : UnlistedGroupWord w ∨ UnlistedFunctionWord w ∨ StrictlyIllegalWord p w) :
    decodeWordWith p w = .error .unlistedGroup ∨ decodeWordWith p w = .error .unlistedFunction :=
  h.imp (decode_unlistedGroup_iff p w).mpr (decode_unlistedFunction_iff p w).mpr

/-- Settles O14: such a word is run as an IllegalInstruction trap. -/
theorem illegalWordsAreSkipped : Obligations.IllegalWordsAreSkipped := by
  unfold Obligations.IllegalWordsAreSkipped
  intro s s1 w hrun hmay hfetch hw
  obtain ⟨hpc, hparams⟩ := fetched_keeps hfetch
  have htrap : runWord w s1 = .next (s1.raiseTrap .illegalInstruction) := by
    rcases decode_of_illegal hw with hd | hd <;> simp [runWord, hparams, hd]
  refine ⟨_, (step_of_fetch_some hrun hmay hfetch).trans htrap, ?_⟩
  rw [← hpc]
  exact closes_raiseTrap s1 _

/-- Settles O15: the policy `fault` stops the cycle, and under `bytewise` the cycle fetches as at any other pc. -/
theorem misalignedPcFollowsThePolicy : Obligations.MisalignedPcFollowsThePolicy := by
  unfold Obligations.MisalignedPcFollowsThePolicy
  refine ⟨rfl, fun s hm hrun hpc => ⟨fun hfault => ?_, fun i hbytewise hstored hd => ?_,
    fun i w s1 hbytewise hfetch hd => ?_, fun s1 hbytewise hfetch => ?_⟩⟩
  · exact step_misaligned hrun (by simp [State.mayFetch, hpc, hfault])
  · exact step_of_pcStored hm hrun (.inr hbytewise) hstored
      (decode_leWord_of_decodeBytes (by simp [State.bytesAtPc]) hd)
  · exact step_of_fetch_decode hrun (.inr hbytewise) hfetch hd
  · obtain ⟨hs1pc, -⟩ := fetched_keeps hfetch
    refine ⟨_, step_of_fetch_none hrun (.inr hbytewise) hfetch, ?_⟩
    rw [← hs1pc]
    exact closes_fetchTrap s1

end Sys2Proof.Machine

/-! ## A placed word (assumption log 23) -/

namespace Sys2Proof.Machine

/-- A 32-bit table word is its number (spec/opcode_table.json). -/
theorem tableWord_eq_ofNat (w : Nat) : tableWord 32 w = BitVec.ofNat 32 w := by
  apply BitVec.eq_of_toNat_eq
  simp [tableWord]

/-- What the table's decoder reads from a word is what the word decodes to at the default parameters. -/
theorem decodeWord_of_decodeTableWord {w : Nat} {i : Instr} (h : decodeTableWord 32 w = some i) :
    decodeWord (BitVec.ofNat 32 w) = .ok i := by
  have hbytes : decodeBytes (leBytes 4 (tableWord 32 w)) =
      match decodeWord (tableWord 32 w) with
      | .ok i => .ok (i, [])
      | .error e => .error e := decodeBytesWith_leBytes Config.decodeParams (tableWord 32 w) []
  rw [decodeTableWord, hbytes, tableWord_eq_ofNat] at h
  cases hd : decodeWord (BitVec.ofNat 32 w) with
  | ok j => simpa [hd] using h
  | error e => simp [hd] at h

section Placed

variable {s : State} (hp : s.params.wf = true)
  (hplace : (∀ k, k < 4 → stored s.params.map (s.params.resetPc.toNat + k)) ∨
    (s.pc.toNat % 4 = 0 ∧ ∀ k, k < 4 → stored s.params.map (s.pc.toNat + k)))

/-- A pc at a word of ROM or RAM is where a word is placed. -/
theorem placePc_of_stored (ha : s.pc.toNat % 4 = 0) (h : ∀ k, k < 4 → stored s.params.map (s.pc.toNat + k)) :
    placePc s = s.pc := by
  have hf : fetchable s.params.map s.pc = true := (fetchable_iff _ _).mpr ⟨by simp [aligned, ha], h⟩
  rw [placePc, if_pos hf]

include hp hplace

/-- A word is placed where it can be fetched: RESET_PC is a multiple of 4 (70_reset_and_hazards.md R241). -/
theorem fetchable_placePc : fetchable s.params.map (placePc s) = true := by
  by_cases hf : fetchable s.params.map s.pc = true
  · rwa [placePc, if_pos hf]
  · have hreset : s.params.resetPc.toNat % 4 = 0 := by
      simp only [Params.wf, Bool.and_eq_true, decide_eq_true_eq] at hp
      obtain ⟨-, hreset, -⟩ := hp
      exact hreset
    rw [placePc, if_neg hf, fetchable_iff]
    refine ⟨by simp [aligned, hreset], hplace.resolve_right fun ⟨hpc, hstored⟩ => hf ?_⟩
    exact (fetchable_iff _ _).mpr ⟨by simp [aligned, hpc], hstored⟩

/-- The step after placing a word executes what the word decodes to. -/
theorem step_placeWord (hw : Memory.wf s.mem = true) {v : Word} {i : Instr}
    (hd : decodeWordWith s.params.decode v = .ok i) : step (placeWord s v) = exec i (poll (placeWord s v)) := by
  have hm := Params_wf_map hp
  obtain ⟨haligned, hstored⟩ := (fetchable_iff _ _).mp (fetchable_placePc hp hplace)
  have haddr (k : Nat) (hk : k < 4) : byteAddr (placePc s) k = (placePc s).toNat + k :=
    byteAddr_eq (stored_lt hm (hstored k hk))
  have hbytes : (placeWord s v).bytesAtPc = leBytes 4 v := by
    rw [leBytes_eq_bytesOf, bytesOf, State.bytesAtPc]
    refine List.map_congr_left fun k hk => ?_
    have hk4 := List.mem_range.mp hk
    change Memory.read (Memory.writeList s.mem _ (leBytes 4 v)) (byteAddr (placePc s) k) = _
    rw [haddr k hk4, Memory.read_writeList hw, if_pos (by rw [leBytes_length]; omega), Nat.add_sub_cancel_left,
      leBytes_eq_bytesOf, List.getD_eq_getElem?_getD, bytesOf_getElem? hk4, Option.getD_some]
  refine step_of_pcStored hm rfl (.inl (by simpa [aligned, placeWord] using haligned)) (fun k hk => ?_) ?_
  · change stored s.params.map (byteAddr (placePc s) k)
    rw [haddr k hk]
    exact hstored k hk
  · rwa [hbytes, leWord_leBytes]

end Placed

/-- Settles O10: `step_placeWord`, and placing writes pc, memory and the halted mark only. -/
theorem placedWordRunsNext : Obligations.PlacedWordRunsNext := by
  unfold Obligations.PlacedWordRunsNext
  intro s w hp hw hplace
  have hrun (i : Instr) (hd : decodeWordWith s.params.decode (BitVec.ofNat 32 w) = .ok i) :
      step (s.withFetchWord 32 w) = exec i (poll (s.withFetchWord 32 w)) := by
    rw [State.withFetchWord, tableWord_eq_ofNat]
    exact step_placeWord hp hplace hw hd
  refine ⟨hrun, fun i hdefault hd => hrun i ?_, rfl, rfl, rfl, rfl, rfl, rfl, placePc_of_stored, fun x hx => ?_⟩
  · rw [hdefault]
    exact decodeWord_of_decodeTableWord hd
  · exact Memory.read_writeList_ne _ _ _ _ (by rwa [leBytes_length])

end Sys2Proof.Machine

/-! ## Halfword and word loads at every address (41_load.md R110 to R115; 20_memory.md R39, R40, R55) -/

namespace Sys2Proof.Machine

theorem aligned_iff (n : Nat) (a : Word) : aligned n a = true ↔ a.toNat % n = 0 := beq_iff_eq

/-- No byte of an aligned access wraps (20_memory.md R43). -/
theorem byteAddr_of_aligned {n k : Nat} (hn : n ∣ 2 ^ 32) {a : Word} (ha : aligned n a = true) (hk : k < n) :
    byteAddr a k = a.toNat + k := by
  have hbound := aligned_bound hn ha
  exact byteAddr_eq (by omega)

/-- A load that is not aligned traps before any byte access (20_memory.md R39). -/
theorem loadInto_of_misaligned {n : Nat} {a : Word} (ha : a.toNat % n ≠ 0) (f : Word → Word) (rd : Reg) (s : State) :
    ∃ t, loadInto n f rd a s = .next t ∧ Closes s t (s.pc + 4#32) (some .misalignedAccess) :=
  ⟨s.raiseTrap .misalignedAccess, by simp [loadInto, aligned, ha], closes_raiseTrap s _⟩

/-- An `n`-byte load whose extension is `ext` on the number read has the meaning of a load: its access is aligned or
traps, and then sees every byte or fails at the first it does not see. -/
theorem loadMeaning_of_loadInto {n : Nat} {mk : Reg → Reg → BitVec 12 → Instr} {f : Word → Word} {ext : Nat → Word}
    (hn : n ∣ 2 ^ 32) (hlt : n < 2 ^ 32)
    (hexec : ∀ rd rs1 imm s, exec (mk rd rs1 imm) s = loadInto n f rd (effectiveAddr s rs1 imm) s)
    (hext : ∀ m, f (BitVec.ofNat 32 m) = ext m) : LoadMeaning n mk ext := by
  rintro rd rs1 imm s a rfl hm
  refine ⟨fun ha => ?_, fun bs ha hlen hseen => ?_, fun k ha hk hseen hnone => ?_⟩
  all_goals rw [hexec]
  · exact loadInto_of_misaligned ha f rd s
  · have hal := (aligned_iff n _).mpr ha
    have hread := memRead_seen hm hlt hlen fun k hk => by rw [byteAddr_of_aligned hn hal hk, hseen k hk]
    rw [← hext, ← pc_afterLoads s (effectiveAddr s rs1 imm) n]
    exact loadInto_of_memRead_some hal hread f rd
  · have hal := (aligned_iff n _).mpr ha
    have hread := memRead_fails hm hlt hk
      (fun j hj => by rw [byteAddr_of_aligned hn hal (hj.trans hk)]; exact hseen j hj)
      (by rw [byteAddr_of_aligned hn hal hk]; exact hnone)
    rw [← pc_afterLoads s (effectiveAddr s rs1 imm) k]
    exact loadInto_of_memRead_none hal hread f rd

theorem loadMeaning_lh : LoadMeaning 2 .lh (fun n => (BitVec.ofNat 16 n).signExtend 32) :=
  loadMeaning_of_loadInto (f := sext16) (by decide) (by decide) (fun _ _ _ _ => rfl) fun m => by
    rw [sext16, BitVec.setWidth_ofNat_of_le (by decide)]

theorem loadMeaning_lhu : LoadMeaning 2 .lhu (fun n => (BitVec.ofNat 16 n).setWidth 32) :=
  loadMeaning_of_loadInto (f := zext16) (by decide) (by decide) (fun _ _ _ _ => rfl) fun m => by
    rw [zext16, BitVec.setWidth_ofNat_of_le (by decide)]

theorem loadMeaning_lw : LoadMeaning 4 .lw (fun n => BitVec.ofNat 32 n) :=
  loadMeaning_of_loadInto (f := id) (by decide) (by decide) (fun _ _ _ _ => rfl) fun _ => rfl

/-- The window's base is a multiple of 2 (20_memory.md R31). -/
theorem aligned_uartBase {m : AddressMap} (hm : m.wf = true) {a : Word} (h : a.toNat = m.uartBase) :
    aligned 2 a = true := by
  obtain ⟨-, -, -, heven⟩ := (AddressMap_wf_iff _).mp hm
  rw [aligned_iff, h, heven]

/-- A halfword load at UART_BASE reads DATA above STATUS and consumes the received byte (20_memory.md R55). -/
theorem loadInto_uartBase {s : State} (hm : s.params.map.wf = true) {a : Word} (h : a.toNat = s.params.map.uartBase)
    (f : Word → Word) (rd : Reg) :
    ∃ t, loadInto 2 f rd a s = .next t ∧ RegResult { s with uart := { s.uart with newdat := false } } t rd
      (f ((s.uart.dataIn ++ statusByte s.params s.uart).setWidth 32)) (s.pc + 4#32) :=
  loadInto_of_memRead_some (aligned_uartBase hm h) (memRead_uart_two hm h) f rd

/-- `sext_16` of a halfword's word is the halfword sign-extended (00_scope.md R6). -/
theorem sext16_setWidth (v : BitVec 16) : sext16 (v.setWidth 32) = v.signExtend 32 := by
  simp [sext16]

/-- `zext_16` of a halfword's word is the halfword zero-extended (00_scope.md R6). -/
theorem zext16_setWidth (v : BitVec 16) : zext16 (v.setWidth 32) = v.setWidth 32 := by
  simp [zext16]

/-- Settles O29: both rows are LOAD rows, both instructions are the two-byte load at their own extension, and at
UART_BASE that load sees the whole window. -/
theorem halfwordLoadsAtEveryAddress : Obligations.HalfwordLoadsAtEveryAddress := by
  unfold Obligations.HalfwordLoadsAtEveryAddress
  refine ⟨rowMeans_lh, rowMeans_lhu, loadMeaning_lh, loadMeaning_lhu, fun rd rs1 imm s hm h => ⟨?_, ?_⟩⟩
  · rw [← sext16_setWidth]
    exact loadInto_uartBase hm h sext16 rd
  · rw [← zext16_setWidth]
    exact loadInto_uartBase hm h zext16 rd

/-- A word load at UART_BASE that fails behind the window has consumed the received byte (20_memory.md R55). -/
theorem exec_lw_uartBase {s : State} (hm : s.params.map.wf = true) {rs1 : Reg} {imm : BitVec 12}
    (ha : (effectiveAddr s rs1 imm).toNat % 4 = 0) (h : (effectiveAddr s rs1 imm).toNat = s.params.map.uartBase)
    (hnone : unmapped s.params.map ((effectiveAddr s rs1 imm).toNat + 2)) (rd : Reg) :
    ∃ t, exec (.lw rd rs1 imm) s = .next t ∧
      Closes { s with uart := { s.uart with newdat := false } } t (s.pc + 4#32) (some .inaccessibleMemory) := by
  obtain ⟨-, -, hfail⟩ := loadMeaning_lw rd rs1 imm s _ rfl hm
  rw [← afterLoads_past_data (a := effectiveAddr s rs1 imm) (n := 2) (.inl ⟨h, by decide⟩)]
  refine hfail 2 ha (by decide) (fun j hj => (seenByte_none_iff hm _).not.mpr (not_unmapped_of_inUart hm ?_))
    ((seenByte_none_iff hm _).mpr hnone)
  omega

/-- Settles O30: the row is a LOAD row, the instruction is the four-byte load, and the last clause is its failure at the
byte behind the window. -/
theorem wordLoadAtEveryAddress : Obligations.WordLoadAtEveryAddress := by
  unfold Obligations.WordLoadAtEveryAddress
  refine ⟨rowMeans_lw, loadMeaning_lw, ?_⟩
  rintro rd rs1 imm s _ rfl hm ha h hnone
  exact exec_lw_uartBase hm ha h hnone rd

end Sys2Proof.Machine

/-! ## Halfword and word stores at every address (44_store.md R140 to R143; 20_memory.md R39, R41, R55) -/

namespace Sys2Proof.Machine

/-- The accepted bytes of a store do not move pc, so that a trap after them is what `StoreResult` says. -/
theorem storeResult_raiseTrap {s u : State} {a : Nat} {bs : List Byte} (h : Stored s u a bs) (k : ErrorKind) :
    StoreResult s (u.raiseTrap k) a bs (some k) := by
  have hpc : u.pc = s.pc := by
    obtain ⟨m, uart, rfl⟩ := h.frame
    rfl
  rw [State.raiseTrap, State.nextPc, hpc]
  exact storeResult_close h (some k)

/-- A store that is not aligned traps before any byte access (20_memory.md R39). -/
theorem storeFrom_of_misaligned {n : Nat} {a : Word} (ha : a.toNat % n ≠ 0) (v : Word) (s : State) :
    ∃ t, storeFrom n v a s = .next t ∧ Closes s t (s.pc + 4#32) (some .misalignedAccess) :=
  ⟨s.raiseTrap .misalignedAccess, by simp [storeFrom, aligned, ha], closes_raiseTrap s _⟩

/-- An `n`-byte store of x[rs2] has the meaning of a store: its access is aligned or traps, and then every byte is
accepted or the first that is not ends it. -/
theorem storeMeaning_of_storeFrom {n : Nat} {mk : Reg → Reg → BitVec 12 → Instr} (hn : n ∣ 2 ^ 32)
    (hexec : ∀ rs1 rs2 imm s, exec (mk rs1 rs2 imm) s = storeFrom n (s.readReg rs2) (effectiveAddr s rs1 imm) s) :
    StoreMeaning n mk := by
  rintro rs1 rs2 imm s a rfl hm hw
  refine ⟨fun ha => ?_, fun ha hs => ?_, fun k ha hk hs hnot => ?_⟩
  all_goals rw [hexec]
  · exact storeFrom_of_misaligned ha _ s
  · have hal := (aligned_iff n _).mpr ha
    obtain ⟨u, hu, hstored⟩ := memWrite_stored (s.readReg rs2) hm hw (aligned_bound hn hal) (Nat.le_refl n) hs
      fun h => absurd h (Nat.lt_irrefl n)
    rw [decide_eq_true rfl] at hu
    exact ⟨_, storeFrom_of_memWrite_true hal hu, storeResult_retire hstored⟩
  · have hal := (aligned_iff n _).mpr ha
    obtain ⟨u, hu, hstored⟩ := memWrite_stored (s.readReg rs2) hm hw (aligned_bound hn hal) hk.le hs fun _ => hnot
    rw [decide_eq_false hk.ne] at hu
    exact ⟨_, storeFrom_of_memWrite_false hal hu, storeResult_raiseTrap hstored _⟩

theorem storeMeaning_sh : StoreMeaning 2 .sh := storeMeaning_of_storeFrom (by decide) fun _ _ _ _ => rfl

theorem storeMeaning_sw : StoreMeaning 4 .sw := storeMeaning_of_storeFrom (by decide) fun _ _ _ _ => rfl

/-- Bits 15:8 of a word, as the second byte of a store takes them (20_memory.md R41). -/
theorem setWidth_shiftRight_eight (v : Word) : (v >>> 8).setWidth 8 = v.extractLsb' 8 8 := by
  apply BitVec.eq_of_toNat_eq
  simp [BitVec.extractLsb'_toNat]

/-- SH at UART_BASE queues bits 15:8: its byte 0 goes to STATUS, which ignores it (20_memory.md R55). -/
theorem exec_sh_uartBase {s : State} (hm : s.params.map.wf = true) {rs1 : Reg} {imm : BitVec 12}
    (h : (effectiveAddr s rs1 imm).toNat = s.params.map.uartBase) (rs2 : Reg) :
    ∃ t, exec (.sh rs1 rs2 imm) s = .next t ∧
      Closes { s with uart := { s.uart with dataOut := (s.readReg rs2).extractLsb' 8 8, txdone := false } } t
        (s.pc + 4#32) none := by
  rw [← setWidth_shiftRight_eight]
  exact ⟨_, storeFrom_of_memWrite_true (aligned_uartBase hm h) (memWrite_uart_two hm h _), closes_retire _⟩

/-- SW at UART_BASE queues bits 15:8 and fails behind the window (20_memory.md R41, R55). -/
theorem exec_sw_uartBase {s : State} (hm : s.params.map.wf = true) {rs1 : Reg} {imm : BitVec 12}
    (ha : (effectiveAddr s rs1 imm).toNat % 4 = 0) (h : (effectiveAddr s rs1 imm).toNat = s.params.map.uartBase)
    (hnot : ¬ storable s.params.map ((effectiveAddr s rs1 imm).toNat + 2)) (rs2 : Reg) :
    ∃ t, exec (.sw rs1 rs2 imm) s = .next t ∧
      Closes { s with uart := { s.uart with dataOut := (s.readReg rs2).extractLsb' 8 8, txdone := false } } t
        (s.pc + 4#32) (some .inaccessibleMemory) := by
  rw [← setWidth_shiftRight_eight]
  exact ⟨_, storeFrom_of_memWrite_false ((aligned_iff 4 _).mpr ha) (memWrite_uart_four hm h hnot ha _),
    closes_raiseTrap _ _⟩

/-- Settles O32: the row is a STORE row, the instruction is the two-byte store, and at UART_BASE it writes the whole
window. -/
theorem halfwordStoreAtEveryAddress : Obligations.HalfwordStoreAtEveryAddress := by
  unfold Obligations.HalfwordStoreAtEveryAddress
  refine ⟨rowMeans_sh, storeMeaning_sh, ?_⟩
  rintro rs1 rs2 imm s _ rfl hm h
  exact exec_sh_uartBase hm h rs2

/-- Settles O33: the row is a STORE row, the instruction is the four-byte store, and at UART_BASE it fails behind the
window. -/
theorem wordStoreAtEveryAddress : Obligations.WordStoreAtEveryAddress := by
  unfold Obligations.WordStoreAtEveryAddress
  refine ⟨rowMeans_sw, storeMeaning_sw, ?_⟩
  rintro rs1 rs2 imm s _ rfl hm ha h hnot
  exact exec_sw_uartBase hm ha h hnot rs2

end Sys2Proof.Machine

/-! ## A stored word read back (20_memory.md R38, R51; 70_reset_and_hazards.md R251) -/

namespace Sys2Proof.Machine

section StoredWord

variable {s : State} {rs1 : Reg} {imm : BitVec 12} (hm : s.params.map.wf = true) (hw : Memory.wf s.mem = true)
  (ha : (effectiveAddr s rs1 imm).toNat % 4 = 0)
  (hram : ∀ k, k < 4 → inRam s.params.map ((effectiveAddr s rs1 imm).toNat + k))

include hm hw ha hram

/-- SW to RAM stores the four bytes of x[rs2]. -/
theorem exec_sw_ram (rs2 : Reg) : ∃ t, exec (.sw rs1 rs2 imm) s = .next t ∧
    StoreResult s t (effectiveAddr s rs1 imm).toNat (bytesOf 4 (s.readReg rs2)) none := by
  obtain ⟨-, hstore, -⟩ := storeMeaning_sw rs1 rs2 imm s _ rfl hm hw
  exact hstore ha fun k hk => .inl (hram k hk)

omit hm hw ha in
/-- Each stored byte is read at its address. -/
theorem StoreResult.read_byte {t : State} {v : Word} {o : Option ErrorKind}
    (h : StoreResult s t (effectiveAddr s rs1 imm).toNat (bytesOf 4 v) o) {k : Nat} (hk : k < 4) :
    Memory.read t.mem ((effectiveAddr s rs1 imm).toNat + k) = v.extractLsb' (8 * k) 8 := by
  have hbyte := h.bytes k (by rwa [bytesOf_length]) (hram k hk)
  rw [bytesOf_getElem? hk] at hbyte
  exact (Option.some.inj hbyte).symm

omit hw ha in
/-- A four-byte access at the store's address, in any state with that map and memory, reads the stored word and changes
nothing. -/
theorem StoreResult.memRead_word {t u : State} {v : Word} {o : Option ErrorKind}
    (h : StoreResult s t (effectiveAddr s rs1 imm).toNat (bytesOf 4 v) o) (hp : u.params = s.params)
    (hmem : u.mem = t.mem) : memRead (effectiveAddr s rs1 imm) 4 u = (some v, u) := by
  rw [memRead_stored (by rwa [hp]) (by decide) fun k hk => by rw [hp]; exact .inr (hram k hk)]
  have hbytes : (List.range 4).map (fun k => Memory.read u.mem ((effectiveAddr s rs1 imm).toNat + k)) =
      leBytes 4 v := by
    rw [leBytes_eq_bytesOf, bytesOf, hmem]
    exact List.map_congr_left fun k hk => h.read_byte hram (List.mem_range.mp hk)
  rw [hbytes, ← leWord_eq_leNat, leWord_leBytes]

end StoredWord

/-- A store leaves every register where x[0] was 0, so that an address through the same base is the same. -/
theorem StoreResult.effectiveAddr_eq {s t : State} {a : Nat} {bs : List Byte} {o : Option ErrorKind}
    (h : StoreResult s t a bs o) (h0 : s.readReg 0 = 0#32) (rs1 : Reg) (imm : BitVec 12) :
    effectiveAddr t rs1 imm = effectiveAddr s rs1 imm := by
  have hreg : t.readReg rs1 = s.readReg rs1 := by
    by_cases hr : rs1 = 0
    · rw [hr, h.zero, h0]
    · exact h.regs rs1 hr
  rw [effectiveAddr, effectiveAddr, hreg]

/-- Settles O34: the load's access reads the word the store's access wrote. -/
theorem storedWordIsLoadedBack : Obligations.StoredWordIsLoadedBack := by
  unfold Obligations.StoredWordIsLoadedBack
  intro rs1 rs2 rd imm s hm hw h0 ha hram hrd
  obtain ⟨t, ht, hstore⟩ := exec_sw_ram hm hw ha hram rs2
  have hread := hstore.memRead_word hm hram hstore.params rfl
  obtain ⟨u, hu, hresult⟩ := loadInto_of_memRead_some ((aligned_iff 4 _).mpr ha) hread id rd
  rw [← hstore.effectiveAddr_eq h0 rs1 imm] at hu
  exact ⟨t, u, ht, hu, hresult.result hrd⟩

/-- Settles O36: a fetch is the four-byte access at pc. -/
theorem storedWordIsFetchedNext : Obligations.StoredWordIsFetchedNext := by
  unfold Obligations.StoredWordIsFetchedNext
  intro rs1 rs2 imm s hm hw ha hram
  obtain ⟨t, ht, hstore⟩ := exec_sw_ram hm hw ha hram rs2
  refine ⟨t, ht, fun u hp hmem hpc => ?_⟩
  rw [fetch, hpc]
  exact hstore.memRead_word hm hram hp hmem

/-- The two bytes of a halfword of a word, low byte first, are the halfword (20_memory.md R38). -/
theorem ofNat_leNat_halfword (v : Word) {j : Nat} (hj : j < 2) :
    BitVec.ofNat 16 (leNat [v.extractLsb' (8 * (2 * j)) 8, v.extractLsb' (8 * (2 * j + 1)) 8]) =
      v.extractLsb' (16 * j) 16 := by
  apply BitVec.eq_of_toNat_eq
  simp only [leNat, BitVec.toNat_ofNat, BitVec.extractLsb'_toNat, Nat.shiftRight_eq_div_pow]
  interval_cases j <;> omega

/-- Settles O35: a byte load sees the stored byte at its address, and a halfword load the two stored bytes of its
halfword. -/
theorem storedWordIsLittleEndian : Obligations.StoredWordIsLittleEndian := by
  unfold Obligations.StoredWordIsLittleEndian
  intro rs1 rs2 imm s hm hw ha hram
  obtain ⟨t, ht, hstore⟩ := exec_sw_ram hm hw ha hram rs2
  have hmt : t.params.map.wf = true := by rwa [hstore.params]
  have hramt (k : Nat) (hk : k < 4) : stored t.params.map ((effectiveAddr s rs1 imm).toNat + k) := by
    rw [hstore.params]
    exact .inr (hram k hk)
  refine ⟨t, ht, fun rd r imm' hrd => ⟨fun k hk haddr => ?_, fun j hj haddr => ?_⟩⟩
  · obtain ⟨hload, -⟩ := byteLoadMeaning_lbu rd r imm' t _ rfl hmt
    obtain ⟨u, hu, hresult⟩ := hload (haddr ▸ hramt k hk)
    refine ⟨u, hu, (hresult.result hrd).trans ?_⟩
    rw [haddr, hstore.read_byte hram hk]
  · obtain ⟨-, hload, -⟩ := loadMeaning_lhu rd r imm' t _ rfl hmt
    obtain ⟨u, hu, hresult⟩ := hload [(s.readReg rs2).extractLsb' (8 * (2 * j)) 8,
      (s.readReg rs2).extractLsb' (8 * (2 * j + 1)) 8] (by omega) rfl fun k hk => by
        rw [haddr, Nat.add_assoc, seenByte_stored (hramt _ (by omega)), hstore.read_byte hram (by omega)]
        interval_cases k <;> rfl
    exact ⟨u, hu, (hresult.result hrd).trans (congrArg (BitVec.setWidth 32) (ofNat_leNat_halfword _ hj))⟩

end Sys2Proof.Machine

/-! ## The address map (20_memory.md R31, R32, R54) -/

namespace Sys2Proof.Machine

/-- The bounds of a region contain an address. -/
def regionContains (r : Region) (a : Word) : Prop := r.first ≤ a.toNat ∧ a.toNat ≤ r.last

/-- In a table no two regions of which contain an address, the region found is the one that contains it, whatever the
table's order (20_memory.md R32). -/
theorem regionIn_eq_some_iff {table : List Region} {a : Word}
    (h : ∀ r ∈ table, ∀ r' ∈ table, regionContains r a → regionContains r' a → r = r') (r : Region) :
    regionIn table a = some r ↔ r ∈ table ∧ regionContains r a := by
  have found {r : Region} (hr : regionIn table a = some r) : r ∈ table ∧ regionContains r a :=
    ⟨List.mem_of_find?_eq_some hr, by have hr' := List.find?_some hr; simpa [regionContains] using hr'⟩
  refine ⟨found, fun ⟨hmem, hr⟩ => ?_⟩
  have hsome : (regionIn table a).isSome = true :=
    List.find?_isSome.mpr ⟨r, hmem, by simpa [regionContains] using hr⟩
  obtain ⟨r', hfind⟩ := Option.isSome_iff_exists.mp hsome
  obtain ⟨hmem', hr'⟩ := found hfind
  rw [hfind, h r hmem r' hmem' hr hr']

/-- At most one region of an allowed map contains an address: the regions do not overlap (20_memory.md R31). -/
theorem regionsOf_unique {m : AddressMap} (hm : m.wf = true) (a : Word) :
    ∀ r ∈ regionsOf m, ∀ r' ∈ regionsOf m, regionContains r a → regionContains r' a → r = r' := by
  obtain ⟨-, hdisjoint, -⟩ := (AddressMap_wf_iff _).mp hm
  simp only [regionsOf, List.forall_mem_cons, List.not_mem_nil, false_imp_iff, implies_true, and_true,
    regionContains, true_and]
  refine ⟨⟨?_, ?_⟩, ⟨?_, ?_⟩, ?_, ?_⟩ <;> intro h h' <;> omega

/-- Lookup finds the region that contains the address. -/
theorem regionAt_eq_some_iff {m : AddressMap} (hm : m.wf = true) (a : Word) (r : Region) :
    regionAt m a = some r ↔ r ∈ regionsOf m ∧ regionContains r a :=
  regionIn_eq_some_iff (regionsOf_unique hm a) r

/-- Lookup in the regions of an allowed map does not depend on their order. -/
theorem regionIn_perm {m : AddressMap} (hm : m.wf = true) (a : Word) {table : List Region}
    (hperm : table.Perm (regionsOf m)) : regionIn table a = regionAt m a := by
  have hunique : ∀ r ∈ table, ∀ r' ∈ table, regionContains r a → regionContains r' a → r = r' := fun r hr r' hr' =>
    regionsOf_unique hm a r (hperm.mem_iff.mp hr) r' (hperm.mem_iff.mp hr')
  ext1 r
  rw [regionIn_eq_some_iff hunique, regionAt_eq_some_iff hm, hperm.mem_iff]

/-- Lookup finds no region exactly at unmapped addresses (20_memory.md R54). -/
theorem regionAt_none_iff (m : AddressMap) (a : Word) : regionAt m a = none ↔ unmapped m a.toNat := by
  rw [regionAt_eq]
  split_ifs with hrom hram huart <;> simp only [false_iff, true_iff]
  · exact fun ⟨hnot, _, _⟩ => hnot hrom
  · exact fun ⟨_, hnot, _⟩ => hnot hram
  · exact fun ⟨_, _, hnot⟩ => hnot huart
  · exact ⟨hrom, hram, huart⟩

/-- Settles O38: the reference map by evaluation, and any allowed map by `regionIn_eq_some_iff`. -/
theorem regionLookupIsUnambiguous : Obligations.RegionLookupIsUnambiguous := by
  unfold Obligations.RegionLookupIsUnambiguous
  refine ⟨⟨Params_wf_map reference_wf, by decide, reference_wf, rfl⟩, fun m a hm => ⟨fun r hr hfirst hlast => ?_,
    fun table hperm => regionIn_perm hm a hperm, regionAt_none_iff m a⟩⟩
  exact (regionAt_eq_some_iff hm a r).mpr ⟨hr, hfirst, hlast⟩

end Sys2Proof.Machine

/-! ## The status byte (60_exceptions.md R211) -/

namespace Sys2Proof.Machine

/-- Settles O39: the byte is one of four at the default masks, and one of eight at the allowed ones. -/
theorem statusByteLayout : Obligations.StatusByteLayout := by
  unfold Obligations.StatusByteLayout
  refine ⟨fun u => ?_, fun p u hp => ?_⟩
  · cases hn : u.newdat <;> cases ht : u.txdone <;>
      simp [statusByte, hn, ht, Config.params, Config.uartNewdatMask, Config.uartTxdoneMask]
  · simp only [Params.wf, Bool.and_eq_true, decide_eq_true_eq] at hp
    obtain ⟨-, -, ⟨hmask, hmask'⟩ | ⟨hmask, hmask'⟩⟩ := hp
    all_goals cases hn : u.newdat <;> cases ht : u.txdone <;> simp [statusByte, hn, ht, hmask, hmask']

end Sys2Proof.Machine

/-! ## The receive part of a poll and the host (60_exceptions.md R214, R216; 70_reset_and_hazards.md R262) -/

namespace Sys2Proof.Machine

/-- The transmit part touches nothing that the receive part writes (60_exceptions.md R217). -/
theorem pollTransmit_keeps_receive (s : State) :
    (pollTransmit s).uart.dataIn = s.uart.dataIn ∧ (pollTransmit s).uart.newdat = s.uart.newdat ∧
      (pollTransmit s).host.rxq = s.host.rxq := by
  unfold pollTransmit
  split <;> exact ⟨rfl, rfl, rfl⟩

/-- What a poll receives is what its receive part does to the queue with the host's latest send (60_exceptions.md
R216). -/
theorem poll_receive (s : State) :
    (poll s).uart.dataIn = (pollReceive { s with host := hostArrive s.host }).uart.dataIn ∧
      (poll s).uart.newdat = (pollReceive { s with host := hostArrive s.host }).uart.newdat ∧
      (poll s).host.rxq = (pollReceive { s with host := hostArrive s.host }).host.rxq :=
  pollTransmit_keeps_receive _

/-- With NEWDAT set a poll receives nothing. -/
theorem poll_of_newdat {s : State} (h : s.uart.newdat = true) :
    (poll s).uart.dataIn = s.uart.dataIn ∧ (poll s).uart.newdat = true ∧
      (poll s).host.rxq = s.host.rxq ++ s.host.sends := by
  obtain ⟨hdata, hnewdat, hrxq⟩ := poll_receive s
  rw [hdata, hnewdat, hrxq, pollReceive, if_pos h]
  exact ⟨rfl, h, rfl⟩

/-- With NEWDAT clear and nothing waiting a poll receives nothing. -/
theorem poll_of_no_data {s : State} (h : s.uart.newdat = false) (hq : s.host.rxq ++ s.host.sends = []) :
    (poll s).uart.dataIn = s.uart.dataIn ∧ (poll s).uart.newdat = false ∧ (poll s).host.rxq = [] := by
  obtain ⟨hdata, hnewdat, hrxq⟩ := poll_receive s
  rw [hdata, hnewdat, hrxq, pollReceive]
  simp [h, hq]

/-- With NEWDAT clear a poll takes the oldest waiting byte and drains the rest. -/
theorem poll_of_data {s : State} {b : Byte} {rest : List Byte} (h : s.uart.newdat = false)
    (hq : s.host.rxq ++ s.host.sends = b :: rest) :
    (poll s).uart.dataIn = b ∧ (poll s).uart.newdat = true ∧ (poll s).host.rxq = [] := by
  obtain ⟨hdata, hnewdat, hrxq⟩ := poll_receive s
  rw [hdata, hnewdat, hrxq, pollReceive]
  simp [h, hq]

/-- Settles O40: one lemma for each case of the receive part, and `poll_host` for the host. -/
theorem pollReceivesTheOldestByte : Obligations.PollReceivesTheOldestByte := by
  unfold Obligations.PollReceivesTheOldestByte
  rintro s _ rfl
  obtain ⟨q, x, hhost⟩ := poll_host s
  exact ⟨poll_of_newdat, poll_of_no_data, fun b rest => poll_of_data, by rw [hhost], by rw [hhost]⟩

/-! ### What a host goes on to send -/

/-- Moving on by a poll drops the first of the listed sends. -/
theorem sentAt_cons (q x bs : List Byte) (a : List (List Byte)) (u : HostLater) (n : Nat) :
    HostChannel.sentAt ⟨q, x, bs :: a, u⟩ (n + 1) = HostChannel.sentAt ⟨q, x, a, u⟩ n :=
  (sentAt_advance _ n).symm

/-- Moving on by a poll with no sends listed moves on what the host does for ever. -/
theorem sentAt_nil (q x : List Byte) (u : HostLater) (n : Nat) :
    HostChannel.sentAt ⟨q, x, [], u⟩ (n + 1) = HostChannel.sentAt ⟨q, x, [], u.advance⟩ n :=
  (sentAt_advance _ n).symm

/-- The listed sends come first, in order. -/
theorem sentAt_arrivals (h : HostChannel) (n : Nat) (hn : n < h.arrivals.length) :
    h.sentAt n = h.arrivals.getD n [] := by
  obtain ⟨q, x, a, u⟩ := h
  induction a generalizing n with
  | nil => exact absurd hn (Nat.not_lt_zero n)
  | cons bs a ih =>
    cases n with
    | zero => rfl
    | succ n =>
      rw [sentAt_cons, ih n (Nat.lt_of_succ_lt_succ hn)]
      rfl

/-- After the listed sends comes what the host does for ever. -/
theorem sentAt_later (h : HostChannel) (n : Nat) :
    h.sentAt (h.arrivals.length + n) = HostChannel.sentAt { h with arrivals := [] } n := by
  obtain ⟨q, x, a, u⟩ := h
  induction a with
  | nil => exact congrArg _ (Nat.zero_add n)
  | cons bs a ih => rw [List.length_cons, Nat.add_right_comm, sentAt_cons, ih]

/-- A host that repeats its sends starts again after the last: each poll rotates the list by one. -/
theorem sentAt_repeats (q x : List Byte) (l : List (List Byte)) (n : Nat) :
    HostChannel.sentAt ⟨q, x, [], .repeats l⟩ n = l.getD (n % l.length) [] := by
  induction n generalizing l with
  | zero =>
    rw [Nat.zero_mod]
    exact List.headD_eq_getD ..
  | succ n ih =>
    rw [sentAt_nil, advance_repeats, ih]
    cases l with
    | nil => rfl
    | cons bs l =>
      have hrotate : (bs :: l).tail ++ (bs :: l).take 1 = (bs :: l).rotate 1 := by simp
      rw [hrotate, List.length_rotate, List.getD_eq_getElem?_getD, List.getD_eq_getElem?_getD,
        List.getElem?_rotate (Nat.mod_lt _ (by simp)), Nat.mod_add_mod]

/-- A host that nothing constrains sends a free value at every poll. -/
theorem sentAt_free (q x : List Byte) (k n : Nat) :
    HostChannel.sentAt ⟨q, x, [], .free k⟩ n = Config.hostSends (k + n) := by
  induction n generalizing k with
  | zero => rfl
  | succ n ih => rw [sentAt_nil, advance_free, ih, Nat.add_right_comm, Nat.add_assoc]

/-- A step uses up one send of the host, whatever it runs. -/
theorem step_sentAt {s t : State} (h : step s = .next t) (n : Nat) : t.host.sentAt n = s.host.sentAt (n + 1) := by
  obtain ⟨-, -, hhost⟩ := step_keeps h
  rw [hhost, poll_sentAt]

/-- Settles O41: the listed sends, then what the host does for ever, in its two forms; and one step is one poll. -/
theorem hostBehavioursAreUnconstrained : Obligations.HostBehavioursAreUnconstrained := by
  unfold Obligations.HostBehavioursAreUnconstrained
  refine ⟨sentAt_arrivals, fun h l n hl => ?_, fun h k n hk => ?_, fun s t => step_sentAt⟩
  · rw [sentAt_later, hl, sentAt_repeats]
  · rw [sentAt_later, hk, sentAt_free]

/-! ### Polling loops -/

/-- No instruction sets NEWDAT: only a poll does (60_exceptions.md R209, R216). -/
theorem Effect.newdat {i : Instr} {s t : State} (h : Effect i s t) (hs : s.uart.newdat = false) :
    t.uart.newdat = false := by
  cases hload : isLoad i with
  | true => rcases h.uart_of_load hload with hu | hu <;> simp [hu, hs]
  | false =>
    cases hstore : storeForm i with
    | none => rw [h.uart_of_no_access hload hstore, hs]
    | some form => rcases h.uart_of_store (by simp [hstore]) with hu | ⟨b, hu⟩ <;> simp [hu, hs]

/-- A fetch leaves the UART or clears NEWDAT (20_memory.md R45). -/
theorem fetch_uart (s : State) :
    (fetch s).2.uart = s.uart ∨ (fetch s).2.uart = { s.uart with newdat := false } := by
  obtain ⟨u, h, hu⟩ := fetch_frame s
  rw [h]
  exact hu

/-- A step whose poll left NEWDAT clear ends with it clear. -/
theorem step_newdat {s t : State} (h : step s = .next t) (hs : (poll s).uart.newdat = false) :
    t.uart.newdat = false := by
  have hfetch : (fetch (poll s)).2.uart.newdat = false := by
    rcases fetch_uart (poll s) with hu | hu <;> simp [hu, hs]
  obtain ⟨-, -, ⟨-, rfl⟩ | ⟨w, -, ⟨-, rfl⟩ | ⟨-, rfl⟩ | ⟨i, -, hexec⟩⟩⟩ := step_cases h
  · exact hfetch
  · exact hfetch
  · exact hfetch
  · exact (effect_of_exec hexec).newdat hfetch

/-- The host sends before every poll. -/
def HostChannel.Endless (h : HostChannel) : Prop := ∀ n, h.sentAt n ≠ []

/-- The host never sends, nothing waits, and NEWDAT is clear. -/
structure State.Quiet (s : State) : Prop where
  silent : ∀ n, s.host.sentAt n = []
  rxq    : s.host.rxq = []
  newdat : s.uart.newdat = false

theorem step_endless {s t : State} (hs : s.host.Endless) (h : step s = .next t) : t.host.Endless := fun n => by
  rw [step_sentAt h]
  exact hs (n + 1)

/-- After the poll of a host that sends before it NEWDAT is set. -/
theorem poll_newdat_of_endless {s : State} (hs : s.host.Endless) : (poll s).uart.newdat = true := by
  have hsends : s.host.sends ≠ [] := hs 0
  cases hn : s.uart.newdat with
  | true =>
    obtain ⟨-, h, -⟩ := poll_of_newdat hn
    exact h
  | false =>
    obtain ⟨b, rest, hq⟩ := List.exists_cons_of_ne_nil (List.append_ne_nil_of_right_ne_nil s.host.rxq hsends)
    obtain ⟨-, h, -⟩ := poll_of_data hn hq
    exact h

/-- The poll of a quiet machine receives nothing. -/
theorem poll_of_quiet {s : State} (hs : s.Quiet) : (poll s).uart.newdat = false ∧ (poll s).host.rxq = [] := by
  have hsends : s.host.sends = [] := hs.silent 0
  obtain ⟨-, h⟩ := poll_of_no_data hs.newdat (by rw [hs.rxq, hsends, List.append_nil])
  exact h

theorem step_quiet {s t : State} (hs : s.Quiet) (h : step s = .next t) : t.Quiet := by
  obtain ⟨hnewdat, hrxq⟩ := poll_of_quiet hs
  obtain ⟨-, -, hhost⟩ := step_keeps h
  exact ⟨fun n => (step_sentAt h n).trans (hs.silent (n + 1)), by rw [hhost, hrxq], step_newdat h hnewdat⟩

/-- Settles O42: an endless sender stays one and a quiet machine stays one along every run, and each has a witness. -/
theorem noPollingLoopIsSureToEnd : Obligations.NoPollingLoopIsSureToEnd := by
  unfold Obligations.NoPollingLoopIsSureToEnd
  refine ⟨⟨⟨[], [], [], .repeats [[0x00#8]]⟩, fun n => ?_⟩, fun s t hs hreach => ?_,
    ⟨HostChannel.silent, fun n => sentAt_repeats [] [] [] n⟩, fun s t hsent hrxq hnewdat hreach => ?_⟩
  · rw [sentAt_repeats, List.length_singleton, Nat.mod_one]
    exact List.cons_ne_nil _ _
  · have ht : t.host.Endless := reaches_induction hreach hs fun u v hu huv => step_endless hu huv
    exact ⟨poll_newdat_of_endless ht, ht⟩
  · have ht : t.Quiet := reaches_induction hreach ⟨hsent, hrxq, hnewdat⟩ fun u v hu huv => step_quiet hu huv
    obtain ⟨hpoll, -⟩ := poll_of_quiet ht
    exact ⟨hpoll, ht.rxq⟩

/-! ### The transmitted bytes -/

/-- A step sends what its poll sends. -/
theorem step_txlog {s t : State} (h : step s = .next t) :
    t.host.txlog = s.host.txlog ++ if s.uart.txdone then [] else [s.uart.dataOut] := by
  obtain ⟨-, -, hhost⟩ := step_keeps h
  rw [hhost, poll_txlog]

/-- Every instruction runs with TXDONE set: the poll set it, and a fetch does not clear it (60_exceptions.md R219). -/
theorem fetch_poll_txdone (s : State) : (fetch (poll s)).2.uart.txdone = true := by
  rcases fetch_uart (poll s) with h | h <;> simp [h]

/-- Settles O44: `step_txlog` at this step and at the next. -/
theorem queuedByteIsSentByTheNextCycle : Obligations.QueuedByteIsSentByTheNextCycle := by
  unfold Obligations.QueuedByteIsSentByTheNextCycle
  intro s t h
  refine ⟨step_txlog h, fetch_poll_txdone s, fun hdone u hu => ?_⟩
  rw [step_txlog hu, hdone]
  rfl

end Sys2Proof.Machine

/-! ## The CSR file (60_exceptions.md R204 to R207) -/

namespace Sys2Proof.Machine

/-- Keyed lookup finds nothing where no entry has the address (60_exceptions.md R204). -/
theorem csrEntry_of_unknown {table : List CsrEntry} {a : BitVec 12} (h : ∀ e ∈ table, e.addr ≠ a) :
    csrEntry table a = none :=
  List.find?_eq_none.mpr fun e he => by simpa using h e he

/-- Keyed lookup finds the entry that alone has its address. -/
theorem csrEntry_of_unique {table : List CsrEntry} {e : CsrEntry} (he : e ∈ table)
    (hunique : ∀ e' ∈ table, e'.addr = e.addr → e' = e) : csrEntry table e.addr = some e := by
  have hsome : (csrEntry table e.addr).isSome = true := List.find?_isSome.mpr ⟨e, he, beq_self_eq_true e.addr⟩
  obtain ⟨e', hfind⟩ := Option.isSome_iff_exists.mp hsome
  have haddr := List.find?_some hfind
  rw [hfind, hunique e' (List.mem_of_find?_eq_some hfind) (by simpa using haddr)]

/-- An unknown address answers InvalidRegister in both directions (decision D14). -/
theorem csr_unknown {s : State} {a : BitVec 12} (h : ∀ e ∈ s.csr, e.addr ≠ a) (v : Word) :
    csrGet a s = .error .invalidRegister ∧ csrSet a v s = .error .invalidRegister := by
  have hentry := csrEntry_of_unknown h
  exact ⟨by simp [csrGet, hentry], by simp [csrSet, hentry]⟩

/-- What the handlers of an entry that alone has its address answer (60_exceptions.md R206). -/
theorem csr_handlers {s : State} {e : CsrEntry} (he : e ∈ s.csr) (hunique : ∀ e' ∈ s.csr, e'.addr = e.addr → e' = e)
    (v : Word) :
    (e.get = none → csrGet e.addr s = .error .invalidRegister) ∧
      (∀ c, e.get = some (.constant c) → csrGet e.addr s = .ok c) ∧
      (e.set = none → csrSet e.addr v s = .error .invalidRegister) ∧
      (e.set = some .ignore → csrSet e.addr v s = .ok s) := by
  have hentry := csrEntry_of_unique he hunique
  exact ⟨fun h => by simp [csrGet, hentry, h], fun c h => by simp [csrGet, hentry, h],
    fun h => by simp [csrSet, hentry, h], fun h => by simp [csrSet, hentry, h]⟩

/-- The four identification registers, as the listed table has them (60_exceptions.md R205, R207). -/
theorem identification_entry {a : BitVec 12} (h : a ∈ [0xF11#12, 0xF12#12, 0xF13#12, 0xF14#12]) :
    ∃ e ∈ Config.csrTable, e.addr = a ∧ e.get = some (.constant 0#32) ∧ e.set = some .ignore := by
  simp only [List.mem_cons, List.not_mem_nil, or_false] at h
  rcases h with rfl | rfl | rfl | rfl <;> decide

/-- In every table that CSR_TABLE may be they are the listed entries, alone at their addresses, so that they read 0 and
ignore writes (60_exceptions.md R207). -/
theorem csr_identification {s : State} (hs : Config.csrTableWf s.csr = true) {a : BitVec 12}
    (ha : a ∈ [0xF11#12, 0xF12#12, 0xF13#12, 0xF14#12]) (v : Word) :
    csrGet a s = .ok 0#32 ∧ csrSet a v s = .ok s := by
  simp only [Config.csrTableWf, decide_eq_true_eq] at hs
  obtain ⟨hlisted, -, hnodup⟩ := hs
  obtain ⟨e, he, rfl, hget, hset⟩ := identification_entry ha
  have hmem : e ∈ s.csr := (hlisted e he).resolve_left (by simp [hget])
  obtain ⟨-, hconstant, -, hignore⟩ :=
    csr_handlers hmem (fun e' he' haddr => List.inj_on_of_nodup_map hnodup he' hmem haddr) v
  exact ⟨hconstant 0#32 hget, hignore hset⟩

/-- Settles O56: the lemmas above, and the listed table by evaluation. -/
theorem csrFileContract : Obligations.CsrFileContract := by
  unfold Obligations.CsrFileContract
  exact ⟨fun s a v h => csr_unknown h v, fun s e v he hunique => csr_handlers he hunique v, csrTable_wf,
    fun s a v hs ha => csr_identification hs ha v⟩

end Sys2Proof.Machine

/-! ## What no step reads: the CSR table and the earlier report (10_state.md R20, 60_exceptions.md R192) -/

namespace Sys2Proof.Machine

/-- The state with another CSR table and another report. -/
def State.relabel (c : List CsrEntry) (o : Option ErrorKind) (s : State) : State := { s with csr := c, report := o }

/-- An outcome whose next state has another CSR table. -/
def outcomeWithCsr (c : List CsrEntry) : Host.Outcome State Fault Refusal → Host.Outcome State Fault Refusal
  | .next t => .next { t with csr := c }
  | .fault f => .fault f
  | .refused r => .refused r

section Relabel

variable (c : List CsrEntry) (o : Option ErrorKind) (s : State)

/-! ### The accesses -/

theorem loadByte_relabel (a : Word) :
    loadByte a (s.relabel c o) = (loadByte a s).map fun r => (r.1, r.2.relabel c o) := by
  unfold loadByte State.relabel
  dsimp only
  split
  · rfl
  · split
    · split <;> rfl
    · rfl

theorem storeByte_relabel (a : Word) (b : Byte) :
    storeByte a b (s.relabel c o) = (storeByte a b s).map (State.relabel c o) := by
  unfold storeByte State.relabel
  dsimp only
  split
  · rfl
  · split
    · split <;> rfl
    · rfl

theorem loadBytes_relabel (n : Nat) (a : Word) :
    loadBytes n a (s.relabel c o) = ((loadBytes n a s).1, (loadBytes n a s).2.relabel c o) := by
  induction n generalizing a s with
  | zero => rfl
  | succ n ih =>
    rw [loadBytes, loadBytes, loadByte_relabel]
    cases loadByte a s with
    | error e => rfl
    | ok r => simp [Except.map, ih]

theorem storeBytes_relabel (bs : List Byte) (a : Word) :
    storeBytes bs a (s.relabel c o) = ((storeBytes bs a s).1, (storeBytes bs a s).2.relabel c o) := by
  induction bs generalizing a s with
  | nil => rfl
  | cons b bs ih =>
    rw [storeBytes, storeBytes, storeByte_relabel]
    cases storeByte a b s with
    | error e => rfl
    | ok s1 => simp [Except.map, ih]

theorem memRead_relabel (a : Word) (n : Nat) :
    memRead a n (s.relabel c o) = ((memRead a n s).1, (memRead a n s).2.relabel c o) := by
  rw [memRead, loadBytes_relabel]
  rfl

theorem memWrite_relabel (a : Word) (n : Nat) (v : Word) :
    memWrite a n v (s.relabel c o) = ((memWrite a n v s).1, (memWrite a n v s).2.relabel c o) :=
  storeBytes_relabel c o s (leBytes n v) a

/-! ### The instructions -/

theorem loadInto_relabel (n : Nat) (f : Word → Word) (rd : Reg) (a : Word) :
    loadInto n f rd a (s.relabel c o) = outcomeWithCsr c (loadInto n f rd a s) := by
  unfold loadInto
  rw [memRead_relabel]
  rcases memRead a n s with ⟨_ | v, s1⟩ <;> cases aligned n a <;> rfl

theorem storeFrom_relabel (n : Nat) (v a : Word) :
    storeFrom n v a (s.relabel c o) = outcomeWithCsr c (storeFrom n v a s) := by
  unfold storeFrom
  rw [memWrite_relabel]
  rcases memWrite a n v s with ⟨_ | _, s1⟩ <;> cases aligned n a <;> rfl

theorem branchIf_relabel (taken : Bool) (p : Word) :
    branchIf taken p (s.relabel c o) = outcomeWithCsr c (branchIf taken p s) := by
  cases taken <;> rfl

/-- An instruction does not depend on the CSR table and the report, and keeps the table. -/
theorem exec_relabel (i : Instr) : exec i (s.relabel c o) = outcomeWithCsr c (exec i s) := by
  cases i
  case lb | lh | lw | lbu | lhu => exact loadInto_relabel ..
  case sb | sh | sw => exact storeFrom_relabel ..
  case beq | bne | blt | bge | bltu | bgeu => exact branchIf_relabel ..
  all_goals rfl

/-! ### The cycle -/

theorem pollReceive_relabel : pollReceive (s.relabel c o) = (pollReceive s).relabel c o := by
  unfold pollReceive State.relabel
  dsimp only
  split
  · rfl
  · split <;> rfl

theorem pollTransmit_relabel : pollTransmit (s.relabel c o) = (pollTransmit s).relabel c o := by
  unfold pollTransmit State.relabel
  dsimp only
  split <;> rfl

theorem poll_relabel : poll (s.relabel c o) = (poll s).relabel c o :=
  (congrArg pollTransmit (pollReceive_relabel c o { s with host := hostArrive s.host })).trans
    (pollTransmit_relabel c o _)

theorem runWord_relabel (w : Word) : runWord w (s.relabel c o) = outcomeWithCsr c (runWord w s) := by
  have hdecode : (s.relabel c o).params.decode = s.params.decode := rfl
  unfold runWord
  rw [hdecode]
  split
  · rfl
  · rfl
  · rfl
  · rfl
  · exact exec_relabel c o s _

theorem fetchAndRun_relabel : fetchAndRun (s.relabel c o) = outcomeWithCsr c (fetchAndRun s) := by
  have hfetch : fetch (s.relabel c o) = ((fetch s).1, (fetch s).2.relabel c o) := memRead_relabel c o s s.pc 4
  unfold fetchAndRun
  rw [hfetch]
  rcases fetch s with ⟨_ | w, s1⟩
  · rfl
  · exact runWord_relabel c o s1 w

theorem coreStep_relabel : coreStep (s.relabel c o) = outcomeWithCsr c (coreStep s) := by
  have hpolicy : (s.relabel c o).params.misalignedPc = s.params.misalignedPc := rfl
  have hpc : (s.relabel c o).pc = s.pc := rfl
  unfold coreStep
  rw [hpolicy, hpc]
  split
  · exact fetchAndRun_relabel c o s
  · split
    · exact fetchAndRun_relabel c o s
    · rfl

/-- A step does not depend on the CSR table and the report, and keeps the table. -/
theorem step_relabel : step (s.relabel c o) = outcomeWithCsr c (step s) := by
  have hhalted : (s.relabel c o).halted = s.halted := rfl
  unfold step cycle
  rw [hhalted]
  split
  · rfl
  · rw [poll_relabel]
    exact coreStep_relabel c o (poll s)

end Relabel

/-- Settles O57: the state with another table is a relabelling that leaves the report. -/
theorem csrFileIsUnreachable : Obligations.CsrFileIsUnreachable := by
  unfold Obligations.CsrFileIsUnreachable
  intro s c
  have hstep : step { s with csr := c } = outcomeWithCsr c (step s) := step_relabel c s.report s
  refine ⟨fun t h => ?_, fun f h => by rw [hstep, h]; rfl⟩
  obtain ⟨hcsr, -⟩ := step_keeps h
  exact ⟨by rw [hstep, h]; rfl, hcsr⟩

/-- Settles O58: the state with another report is a relabelling that leaves the table, which the step keeps. -/
theorem trapReportIsNeverRead : Obligations.TrapReportIsNeverRead := by
  unfold Obligations.TrapReportIsNeverRead
  intro s o
  have hstep : step { s with report := o } = outcomeWithCsr s.csr (step s) := step_relabel s.csr o s
  rw [hstep]
  cases h : step s with
  | next t =>
    obtain ⟨hcsr, -⟩ := step_keeps h
    rw [outcomeWithCsr, ← hcsr]
  | fault f => rfl
  | refused r => rfl

end Sys2Proof.Machine
